-- ==== Sys2Proof/Word.lean ====
section
/-! DEFINITION. The word types of the hardware (00_scope R11 to R13): every one unsigned, named by the spec's `uN`. -/

namespace Sys2Proof

/-- A byte: 8 bits (R13). -/
abbrev Byte := BitVec 8
/-- `u16`: Note frequencies and durations, counts, arena offsets (R11). -/
abbrev U16 := BitVec 16
/-- `u32`: the tick counter, the compare values, the latched Note counters (R27 to R29). -/
abbrev U32 := BitVec 32
/-- A Note record seen as one little-endian integer (R88). -/
abbrev Note40 := BitVec 40
/-- A command word (R100). -/
abbrev Cmd80 := BitVec 80
/-- A response word (R105). -/
abbrev Resp48 := BitVec 48

end Sys2Proof
end

