-- ==== Sys2Proof/Syntax.lean ====
section
/-! DEFINITION. The instructions: one constructor per row of spec/opcode_table.json. Commands are the
CMD80 rows (30_encoding R102), Notes the NOTE40 rows (30_encoding R89). -/

namespace Sys2Proof

/-- A channel, hence a sequencer, an actuator and a timer channel: RIGHT = 0, LEFT = 1 (R104). -/
inductive Channel where
  | right
  | left
  deriving DecidableEq, Repr

/-- The instruction set. In a Note constructor `ch` is the sequencer that fetched the Note: it comes with the
fetch, not from the record's 40 bits (R140, R146; log 10). A Note constructor leaves out the field that its
row fixes at zero. -/
inductive Instr where
  /-- PLAY idx (R225) -/
  | play (idx : Byte)
  /-- ISBUSY ch (R153) -/
  | isbusy (ch : Channel)
  /-- CLEAR (R178) -/
  | clear
  /-- ADD idx, rightCount, leftCount (R186) -/
  | add (idx : Byte) (rightCount leftCount : U16)
  /-- DELETE idx (R188) -/
  | delete (idx : Byte)
  /-- SETNOTE idx, ch, noteIdx, dutyCycle, frequency, duration (R184) -/
  | setnote (idx : Byte) (ch : Channel) (noteIdx : U16) (duty : Byte) (freq dur : U16)
  /-- GETNOTE idx, ch, noteIdx (R183) -/
  | getnote (idx : Byte) (ch : Channel) (noteIdx : U16)
  /-- COUNT (R180) -/
  | count
  /-- OFFSET idx (R179) -/
  | offset (idx : Byte)
  /-- NOTECOUNT idx, ch (R182) -/
  | notecount (idx : Byte) (ch : Channel)
  /-- BYTESFREE (R190) -/
  | bytesfree
  /-- ISVALID (R191) -/
  | isvalid
  /-- LOAD (R214) -/
  | load
  /-- SAVE (R212) -/
  | save
  /-- PCLEAR (R216) -/
  | pclear
  /-- NOTE.SKIP: `duration == 0` (R147) -/
  | noteSkip (ch : Channel) (duty : Byte) (freq : U16)
  /-- NOTE.DELAY.DUTY0: `duration != 0`, `dutyCycle == 0` (R148) -/
  | noteDelayDuty0 (ch : Channel) (freq dur : U16)
  /-- NOTE.DELAY.FREQ0: `duration != 0`, `dutyCycle != 0`, `pulseFrequency == 0` (R148) -/
  | noteDelayFreq0 (ch : Channel) (duty : Byte) (dur : U16)
  /-- NOTE.PULSE: none of the three fields is zero (R149) -/
  | notePulse (ch : Channel) (duty : Byte) (freq dur : U16)
  deriving DecidableEq, Repr

end Sys2Proof
end

