-- ==== Sys2Proof/WellFormed.lean ====
section
/-! DEFINITION. Which instruction terms stand for words. A command's fields have exactly the widths of its word
(R100, R101), so every command term is well formed; a Note term must satisfy its row's condition and
no earlier row's (R89, first match wins). -/

namespace Sys2Proof

/-- R89, row by row. -/
def Instr.wellFormed : Instr → Bool
  | .play _ => true
  | .isbusy _ => true
  | .clear => true
  | .add _ _ _ => true
  | .delete _ => true
  | .setnote _ _ _ _ _ _ => true
  | .getnote _ _ _ => true
  | .count => true
  | .offset _ => true
  | .notecount _ _ => true
  | .bytesfree => true
  | .isvalid => true
  | .load => true
  | .save => true
  | .pclear => true
  | .noteSkip _ _ _ => true
  | .noteDelayDuty0 _ _ dur => dur != 0#16
  | .noteDelayFreq0 _ duty dur => dur != 0#16 && duty != 0#8
  | .notePulse _ duty freq dur => dur != 0#16 && duty != 0#8 && freq != 0#16

end Sys2Proof
end

