-- ==== Sys2Proof/Decode.lean ====
section
/-! DEFINITION. The decoders and the encoder. Two streams carry instructions: command words on the command port
(CMD80, R100 to R103) and Note records in the arena (NOTE40, R88, R89). -/

namespace Sys2Proof

/-- What a decoder answers: an instruction, or the named rejection of an undefined opcode (R103, R247). -/
inductive Decoded where
  | instr (i : Instr)
  | badCommand (op : Byte)
  deriving DecidableEq, Repr

/-- A word of one of the two formats. -/
inductive CodeWord where
  | cmd80 (w : Cmd80)
  | note40 (n : Note40)
  deriving DecidableEq, Repr

/-! ### Fields of a command word (R100) -/

def cmdOp (w : Cmd80) : Byte := w.extractLsb' 0 8
def cmdA (w : Cmd80) : Byte := w.extractLsb' 8 8
def cmdB (w : Cmd80) : Byte := w.extractLsb' 16 8
def cmdC (w : Cmd80) : U16 := w.extractLsb' 24 16
def cmdD (w : Cmd80) : Byte := w.extractLsb' 40 8
def cmdE (w : Cmd80) : U16 := w.extractLsb' 48 16
def cmdF (w : Cmd80) : U16 := w.extractLsb' 64 16

/-- The channel in `b[0]`: 0 RIGHT, 1 LEFT; `b[7:1]` is ignored (R100, R103, R104). -/
def channelOfBit (b : Byte) : Channel := if b.getLsbD 0 then .left else .right

/-- The number of a channel (R104). -/
def channelBit : Channel → Byte
  | .right => 0#8
  | .left => 1#8

/-- R102: only `op` selects the command; R103: every other `op` is illegal. -/
def decodeCommand (w : Cmd80) : Decoded :=
  match (cmdOp w).toNat with
  | 0x01 => .instr (.play (cmdA w))
  | 0x02 => .instr (.isbusy (channelOfBit (cmdB w)))
  | 0x03 => .instr .clear
  | 0x04 => .instr (.add (cmdA w) (cmdE w) (cmdF w))
  | 0x05 => .instr (.delete (cmdA w))
  | 0x06 => .instr (.setnote (cmdA w) (channelOfBit (cmdB w)) (cmdC w) (cmdD w) (cmdE w) (cmdF w))
  | 0x07 => .instr (.getnote (cmdA w) (channelOfBit (cmdB w)) (cmdC w))
  | 0x08 => .instr .count
  | 0x09 => .instr (.offset (cmdA w))
  | 0x0A => .instr (.notecount (cmdA w) (channelOfBit (cmdB w)))
  | 0x0B => .instr .bytesfree
  | 0x0C => .instr .isvalid
  | 0x0D => .instr .load
  | 0x0E => .instr .save
  | 0x0F => .instr .pclear
  | _ => .badCommand (cmdOp w)

/-! ### Fields of a Note record (R88) -/

def noteDuty (n : Note40) : Byte := n.extractLsb' 0 8
def noteFreq (n : Note40) : U16 := n.extractLsb' 8 16
def noteDur (n : Note40) : U16 := n.extractLsb' 24 16

/-- The record with the given fields (R88): `{dur, freq, duty}`. -/
def noteWord (duty : Byte) (freq dur : U16) : Note40 := dur ++ freq ++ duty

/-- The four NOTE40 rows of the opcode table. -/
inductive NoteKind where
  | skip
  | delayDuty0
  | delayFreq0
  | pulse
  deriving DecidableEq, Repr

/-- R89: the first matching row. Every 40-bit value is a legal Note. -/
def classifyNote (n : Note40) : NoteKind :=
  if noteDur n = 0#16 then .skip
  else if noteDuty n = 0#8 then .delayDuty0
  else if noteFreq n = 0#16 then .delayFreq0
  else .pulse

/-- The Note that sequencer `ch` fetched as the record `n` (R89). -/
def decodeNote (ch : Channel) (n : Note40) : Instr :=
  match classifyNote n with
  | .skip => .noteSkip ch (noteDuty n) (noteFreq n)
  | .delayDuty0 => .noteDelayDuty0 ch (noteFreq n) (noteDur n)
  | .delayFreq0 => .noteDelayFreq0 ch (noteDuty n) (noteDur n)
  | .pulse => .notePulse ch (noteDuty n) (noteFreq n) (noteDur n)

/-- Decoding of either format; `ch` is the sequencer whose fetch a Note record is. -/
def decodeWord (ch : Channel) : CodeWord → Decoded
  | .cmd80 w => decodeCommand w
  | .note40 n => .instr (decodeNote ch n)

/-! ### The encoder -/

/-- R100: `ffff eeee dd cccc bb aa oo`, most significant first. -/
def cmdWord (f e : U16) (d : Byte) (c : U16) (b a op : Byte) : Cmd80 :=
  f ++ e ++ d ++ c ++ b ++ a ++ op

/-- The word of an instruction; unused fields are zero (R112). -/
def encode : Instr → CodeWord
  | .play idx => .cmd80 (cmdWord 0#16 0#16 0#8 0#16 0#8 idx 0x01#8)
  | .isbusy ch => .cmd80 (cmdWord 0#16 0#16 0#8 0#16 (channelBit ch) 0#8 0x02#8)
  | .clear => .cmd80 (cmdWord 0#16 0#16 0#8 0#16 0#8 0#8 0x03#8)
  | .add idx r l => .cmd80 (cmdWord l r 0#8 0#16 0#8 idx 0x04#8)
  | .delete idx => .cmd80 (cmdWord 0#16 0#16 0#8 0#16 0#8 idx 0x05#8)
  | .setnote idx ch k duty freq dur => .cmd80 (cmdWord dur freq duty k (channelBit ch) idx 0x06#8)
  | .getnote idx ch k => .cmd80 (cmdWord 0#16 0#16 0#8 k (channelBit ch) idx 0x07#8)
  | .count => .cmd80 (cmdWord 0#16 0#16 0#8 0#16 0#8 0#8 0x08#8)
  | .offset idx => .cmd80 (cmdWord 0#16 0#16 0#8 0#16 0#8 idx 0x09#8)
  | .notecount idx ch => .cmd80 (cmdWord 0#16 0#16 0#8 0#16 (channelBit ch) idx 0x0A#8)
  | .bytesfree => .cmd80 (cmdWord 0#16 0#16 0#8 0#16 0#8 0#8 0x0B#8)
  | .isvalid => .cmd80 (cmdWord 0#16 0#16 0#8 0#16 0#8 0#8 0x0C#8)
  | .load => .cmd80 (cmdWord 0#16 0#16 0#8 0#16 0#8 0#8 0x0D#8)
  | .save => .cmd80 (cmdWord 0#16 0#16 0#8 0#16 0#8 0#8 0x0E#8)
  | .pclear => .cmd80 (cmdWord 0#16 0#16 0#8 0#16 0#8 0#8 0x0F#8)
  | .noteSkip _ duty freq => .note40 (noteWord duty freq 0#16)
  | .noteDelayDuty0 _ freq dur => .note40 (noteWord 0#8 freq dur)
  | .noteDelayFreq0 _ duty dur => .note40 (noteWord duty 0#16 dur)
  | .notePulse _ duty freq dur => .note40 (noteWord duty freq dur)

/-- The sequencer that fetches an instruction: a Note's own; for a command there is none, and RIGHT stands in
(the decoding of a command word does not look at it). -/
def Instr.fetcher : Instr → Channel
  | .noteSkip ch _ _ => ch
  | .noteDelayDuty0 ch _ _ => ch
  | .noteDelayFreq0 ch _ _ => ch
  | .notePulse ch _ _ _ => ch
  | .play _ => .right
  | .isbusy _ => .right
  | .clear => .right
  | .add _ _ _ => .right
  | .delete _ => .right
  | .setnote _ _ _ _ _ _ => .right
  | .getnote _ _ _ => .right
  | .count => .right
  | .offset _ => .right
  | .notecount _ _ => .right
  | .bytesfree => .right
  | .isvalid => .right
  | .load => .right
  | .save => .right
  | .pclear => .right

/-! ### The opcode table's own numbering -/

/-- Which format a table word of `nbits` bits has: CMD80 words have 80 bits and NOTE40 records 40. A row given by
fewer bits than its format: up to 8 bits, a non-zero byte is a command's `op` (0x00 is no command,
R103) and a zero byte a Note field; from 9 to 40 bits, a Note (log 15). -/
def tableWordIsNote (nbits w : Nat) : Bool :=
  if nbits ≤ 8 then w % 256 == 0 else decide (nbits ≤ 40)

/-- The instruction the decoder reads from a word of the opcode table, bits above `nbits` zero. Neither format
is memory with a word order of its own: `w` is the word (R51, R88). -/
def decodeTableWord (nbits w : Nat) : Option Instr :=
  let v := w % 2 ^ nbits
  if tableWordIsNote nbits v then some (decodeNote .right (BitVec.ofNat 40 v))
  else match decodeCommand (BitVec.ofNat 80 v) with
    | .instr i => some i
    | .badCommand _ => none

end Sys2Proof
end

