-- ==== Sys2Proof/Config.lean ====
section
/-! DEFINITION. What an implementation fixes, and the free values: the parameters of 00_scope R10.
The OPEN parameters are opaque constants, so that a claim holds whatever they are (log 7). -/

namespace Sys2Proof

/-- The OPEN parameters of R10, as one argument of the functions that need them. -/
structure Params where
  /-- `MAGIC`, the 16-bit sentinel at arena offset 0 (R81). -/
  magic : U16
  /-- `PERSIST_OFFSET`, where the arena image starts in the store (R55). -/
  persistOffset : Nat
  /-- `PERSIST_CAP`, the number of bytes of the store (R38). -/
  persistCap : Nat
  deriving DecidableEq, Repr

namespace Config

/-- `CAP`, the arena capacity in bytes: 1024, the value R10 states (log 8). -/
abbrev cap : Nat := 1024
/-- `NOTE_BYTES` (R10, R88). -/
abbrev noteBytes : Nat := 5
/-- `HDR_FIXED` (R10, R85). -/
abbrev hdrFixed : Nat := 6
/-- `DUTY_DIV` (R10, R149). -/
abbrev dutyDiv : Nat := 512
/-- `TICK_HZ` (R10): one tick is one microsecond. -/
abbrev tickHz : Nat := 1000000

/-- `MAGIC - 1`: R10 leaves the value OPEN and asks MAGIC != 0, so the free part is one of 65535 values. -/
opaque magicPred : Fin 65535
/-- `PERSIST_OFFSET`, OPEN (R10, D13). -/
opaque persistOffset : Nat
/-- `PERSIST_CAP - (PERSIST_OFFSET + CAP)`, OPEN: R10 asks that it be a natural number. -/
opaque persistSlack : Nat

/-- The parameters of this machine: every choice R10 allows, and no other. -/
def params : Params where
  magic := BitVec.ofNat 16 (magicPred.val + 1)
  persistOffset := persistOffset
  persistCap := persistOffset + cap + persistSlack

/-- FREE VALUE: what byte `a` of the store holds before anything has written it (R36, R274; log 5). -/
opaque persistPowerOn : Nat → Byte
/-- FREE VALUE: what byte `a` of the store holds after the failed write that drew choice `n` (R211; log 6). -/
opaque failedWriteByte : Nat → Nat → Byte
/-- FREE VALUE: which of several due expiries runs first, for choice `n` (R57, R253; log 1). -/
opaque expiryPick : Nat → Nat

end Config

/-- The constraints R10 puts on the OPEN parameters. -/
def Params.ok (p : Params) : Bool :=
  p.magic != 0#16 && decide (p.persistOffset + Config.cap ≤ p.persistCap)

end Sys2Proof
end

