-- ==== Sys2Proof/Machine/State.lean ====
section
/-! DEFINITION. The machine's state as plain data (10_state R20), the reasons a step can stop, and the state after
reset (10_state R36). -/

namespace Sys2Proof.Machine

/-- Bytes by address, in one canonical form (Memory.wf in Machine/Ops.lean; log 13). -/
abbrev Memory := List Host.Cell

/-- The registers of one channel: its NoteSequencer (R23 to R25, R27) and its actuator output (R26). -/
structure Sequencer where
  /-- Arena address of the first Note of the sequence (R23). -/
  seqBase : U16
  /-- Number of Notes of the sequence (R23). -/
  seqCount : U16
  /-- The program counter: number of the Note now playing (R24). -/
  index : U16
  /-- A sequence is playing (R25). -/
  busy : Bool
  /-- The actuator is driven; also the output pin (R26). -/
  out : Bool
  /-- Active phase of one pulse in microseconds, latched (R27). -/
  highUs : U32
  /-- Inactive phase of one pulse in microseconds, latched (R27). -/
  lowUs : U32
  /-- Pulse periods not yet finished, the source's remainingPulseCount (R27). -/
  rem : U32
  deriving DecidableEq, Repr

/-- One match channel of the PulseTimer (R29). -/
structure Timer where
  /-- `match[c]`, the compare value. -/
  matchAt : U32
  /-- `armed[c]`, the enable. -/
  armed : Bool
  deriving DecidableEq, Repr

/-- The PulseTimer match channels: 0 for RIGHT, 1 for LEFT, 2 reserved (R29, R129). -/
inductive TimerId where
  | c0
  | c1
  | c2
  deriving DecidableEq, Repr

/-- The outcome input of the persistent-store port (R210). -/
inductive IoOutcome where
  | ok
  | fail
  deriving DecidableEq, Repr

/-- The kinds of step (R17), and the store being rewritten from outside (R38, R286; log 9). -/
inductive Event where
  /-- `Cmd(w)`: the command agent presents `w`; `io` is what the store answers if the command uses it. -/
  | cmd (w : Cmd80) (io : IoOutcome)
  /-- `Expire(c)` (R125). -/
  | expire (c : TimerId)
  /-- `Tick` (R121). -/
  | tick
  /-- `Reset` (R270). -/
  | reset
  /-- An agent outside the block writes one byte of the store (R38). -/
  | outsideWrite (a : Nat) (b : Byte)
  deriving DecidableEq, Repr

/-- The machine's state: R20's list, then the model's own port fields and free-value counter. -/
structure State where
  /-- `A`, the arena (R21). -/
  arena : Memory
  /-- `bytesFree` (R22). -/
  bytesFree : U16
  /-- Channel RIGHT = 0 (R23 to R27). -/
  right : Sequencer
  /-- Channel LEFT = 1 (R23 to R27). -/
  left : Sequencer
  /-- The microsecond counter (R28). -/
  tick : U32
  /-- Timer channel 0, of the RIGHT sequencer (R29). -/
  timer0 : Timer
  /-- Timer channel 1, of the LEFT sequencer (R29). -/
  timer1 : Timer
  /-- Timer channel 2, reserved (R29, R129). -/
  timer2 : Timer
  /-- `P`, the persistent store (R38): the bytes that something has written. -/
  persist : Memory
  /-- Model's own: the steps still to come, oldest first (R57; log 1). -/
  schedule : List Event
  /-- Model's own: the store outcome the current command sees (R210; log 3). -/
  io : IoOutcome
  /-- Model's own: the response port; some exactly after a `Cmd` step (R105; log 4). -/
  response : Option Resp48
  /-- Model's own: how many free choices have been drawn (log 6). -/
  freeCount : Nat
  deriving DecidableEq, Repr

/-- Why the machine stops with a fault. No reachable state raises one. -/
inductive Fault where
  /-- Raised by the Note fetch (R146) when its five bytes do not all exist; invariants I5 and I6 exclude it. Safe. -/
  | noteFetchOutOfArena (ch : Channel)
  /-- Raised by a Note start with `index > seqCount`, where R145 gives no effect; invariant I5 excludes it. Safe. -/
  | noteIndexPastEnd (ch : Channel)
  /-- Raised by an outside write at a store address that does not exist (R38). Safe. -/
  | persistAddress (a : Nat)
  deriving DecidableEq, Repr

/-- Why a step has no meaning. -/
inductive Refusal where
  /-- Raised by exec for an instruction without a meaning; no arm does. Safe. -/
  | notModelled (mnemonic : String)
  /-- Raised by step when the scheduled step is not enabled (R57): no schedule of the hardware holds it. Safe. -/
  | notEnabled (e : Event)
  /-- Raised by a NOTE.PULSE term with frequency 0, which no record decodes to (R89, R154). Safe. -/
  | pulseFrequencyZero
  deriving DecidableEq, Repr

/-- A channel after reset (R36). -/
def Sequencer.reset : Sequencer where
  seqBase := 0
  seqCount := 0
  index := 0
  busy := false
  out := false
  highUs := 0
  lowUs := 0
  rem := 0

/-- A timer channel after reset (R36). -/
def Timer.reset : Timer where
  matchAt := 0
  armed := false

/-- The state after reset (R36, R270): the arena is the empty image (nothing listed), `bytesFree = CAP - 6`,
everything idle. Nothing of the store is listed (R274; log 5); the port fields are log 20's. -/
def State.reset : State where
  arena := []
  bytesFree := 1018
  right := .reset
  left := .reset
  tick := 0
  timer0 := .reset
  timer1 := .reset
  timer2 := .reset
  persist := []
  schedule := []
  io := .ok
  response := none
  freeCount := 0

end Sys2Proof.Machine
end

