-- ==== Sys2Proof/Machine/Ops.lean ====
section
/-! DEFINITION. The named operations over memory, registers, timers, actuators and ports, and the two ways control
leaves the ordinary path: an error status (R16, R240) and a timer expiry (R254). -/

namespace Sys2Proof.Machine

/-! ### Memory: sorted lists of cells. `u a` is what an unlisted address `a` reads as (none: no value). -/

/-- The listed byte at `a`. -/
def Memory.get? : Memory → Nat → Option Byte
  | [], _ => none
  | (x, b) :: m, a => if x = a then some b else Memory.get? m a

/-- The byte at `a`: the listed one, else what an unlisted address reads as. -/
def Memory.read (u : Nat → Option Byte) (m : Memory) (a : Nat) : Option Byte :=
  match Memory.get? m a with
  | some b => some b
  | none => u a

/-- The cells of a run of bytes from `a` on; a byte equal to what its address reads as unlisted is left out. -/
def Memory.cellsFrom (u : Nat → Option Byte) : Nat → List Byte → Memory
  | _, [] => []
  | a, b :: bs =>
    if u a = some b then Memory.cellsFrom u (a + 1) bs else (a, b) :: Memory.cellsFrom u (a + 1) bs

/-- Store `bs` at `a` and after. -/
def Memory.writeRange (u : Nat → Option Byte) (m : Memory) (a : Nat) (bs : List Byte) : Memory :=
  m.filter (fun c => decide (c.1 < a)) ++ Memory.cellsFrom u a bs
    ++ m.filter (fun c => decide (a + bs.length ≤ c.1))

/-- Addresses strictly rising. -/
def Memory.rising : Memory → Bool
  | [] => true
  | [_] => true
  | c :: d :: m => decide (c.1 < d.1) && Memory.rising (d :: m)

/-- The canonical form of a memory of `size` bytes: addresses rise and exist, and no cell repeats what an unlisted
address reads as. -/
def Memory.wf (size : Nat) (u : Nat → Option Byte) (m : Memory) : Bool :=
  Memory.rising m && m.all (fun c => decide (c.1 < size) && u c.1 != some c.2)

/-- Low byte first (R50): `LE16(v)` of R13. -/
def le16 (v : U16) : List Byte := [v.setWidth 8, v.extractLsb' 8 8]

/-- The five bytes of a Note record (R88). -/
def noteBytes (duty : Byte) (freq dur : U16) : List Byte := [duty] ++ le16 freq ++ le16 dur

/-- An unlisted arena address reads as the empty image (R177, R36): MAGIC at 0 and 1, then zeros. -/
def arenaUnlisted (p : Params) (a : Nat) : Option Byte :=
  some (if a = 0 then p.magic.setWidth 8 else if a = 1 then p.magic.extractLsb' 8 8 else 0#8)

/-- An unlisted store address has no value in the state (R274; log 5). -/
def persistUnlisted (_ : Nat) : Option Byte := none

/-- `A[a]` of an arena image (R15, R21). -/
def byteAt (p : Params) (X : Memory) (a : Nat) : Byte :=
  (Memory.read (arenaUnlisted p) X a).getD 0#8

/-- `MemRead(a, 2)` (R15): little-endian, as a natural number. -/
def read16 (p : Params) (X : Memory) (a : Nat) : Nat :=
  (byteAt p X a).toNat + 256 * (byteAt p X (a + 1)).toNat

/-- `n` consecutive bytes of an image. -/
def readBytes (p : Params) (X : Memory) (a n : Nat) : List Byte :=
  (List.range n).map (fun k => byteAt p X (a + k))

/-- The Note record at address `a` of an image (R88). -/
def noteAt (p : Params) (X : Memory) (a : Nat) : Note40 :=
  byteAt p X (a + 4) ++ byteAt p X (a + 3) ++ byteAt p X (a + 2) ++ byteAt p X (a + 1) ++ byteAt p X a

/-! ### Registers -/

/-- The timer channel of a sequencer (R140). -/
def timerOf : Channel → TimerId
  | .right => .c0
  | .left => .c1

/-- The registers of channel `ch`. -/
def State.seq (s : State) : Channel → Sequencer
  | .right => s.right
  | .left => s.left

/-- Write the registers of channel `ch`. -/
def setSeq (ch : Channel) (q : Sequencer) (s : State) : State :=
  match ch with
  | .right => { s with right := q }
  | .left => { s with left := q }

/-- The registers of timer channel `c`. -/
def State.timer (s : State) : TimerId → Timer
  | .c0 => s.timer0
  | .c1 => s.timer1
  | .c2 => s.timer2

/-- Write the registers of timer channel `c`. -/
def setTimer (c : TimerId) (t : Timer) (s : State) : State :=
  match c with
  | .c0 => { s with timer0 := t }
  | .c1 => { s with timer1 := t }
  | .c2 => { s with timer2 := t }

/-! ### PulseTimer (R120 to R124) and ActuatorDriver (R130, R131) -/

/-- `now()` (R120). -/
def now (s : State) : U32 := s.tick

/-- `armAt(c, t)` (R122). -/
def armAt (c : TimerId) (t : U32) (s : State) : State :=
  setTimer c { matchAt := t, armed := true } s

/-- `ArmRel(c, delta)` (R123): relative to now, modulo 2^32. -/
def armRel (c : TimerId) (delta : Nat) (s : State) : State :=
  armAt c (now s + BitVec.ofNat 32 delta) s

/-- `disarm(c)` (R124): the compare value stays. -/
def disarm (c : TimerId) (s : State) : State :=
  setTimer c { s.timer c with armed := false } s

/-- `setActive(ch, v)` (R130). -/
def setActive (ch : Channel) (v : Bool) (s : State) : State :=
  setSeq ch { s.seq ch with out := v } s

/-- `getActive(ch)` (R131). -/
def getActive (ch : Channel) (s : State) : Bool := (s.seq ch).out

/-! ### Error status and response (R16, R105, R240) -/

/-- The status of a command or of one sequence start (R240). -/
inductive Status where
  | ok
  | badIndex
  | outOfSpace
  | alreadyPlaying
  | emptySequence
  | invalidPersistedData
  | storageIoError
  | badCommand
  deriving DecidableEq, Repr

/-- The status codes (R240). -/
def Status.code : Status → Byte
  | .ok => 0#8
  | .badIndex => 1#8
  | .outOfSpace => 2#8
  | .alreadyPlaying => 3#8
  | .emptySequence => 4#8
  | .invalidPersistedData => 5#8
  | .storageIoError => 6#8
  | .badCommand => 7#8

/-- The response word (R105): `data` in r[47:8], `status` in r[7:0]. -/
def responseWord (k : Status) (data : BitVec 40) : Resp48 := data ++ k.code

/-- Answer the current command with `OK` and `data` (R105). -/
def answer (data : BitVec 40) (s : State) : State :=
  { s with response := some (responseWord .ok data) }

/-- `raise k` (R16): the one way an error is taken. Nothing is saved, no other state changes, data is 0 (R107, R248). -/
def raise (k : Status) (s : State) : State :=
  { s with response := some (responseWord k 0#40) }

/-! ### Timer expiry (R250 to R255): entry saves nothing, changes no mode, has no vector; there is no return operation. -/

/-- Entry of `Expire(c)` (R125, R254): the one-shot arm is consumed. -/
def takeExpiry (c : TimerId) (s : State) : State := disarm c s

/-! ### The persistent store (R210, R211) -/

/-- `P[a]`: the written byte, else the free value (R274; log 5). -/
def persistByte (s : State) (a : Nat) : Byte :=
  (Memory.get? s.persist a).getD (Config.persistPowerOn a)

/-- `PRead(off, n)` with `io = ok` (R211). -/
def persistRead (off n : Nat) (s : State) : List Byte :=
  (List.range n).map (fun k => persistByte s (off + k))

/-- The bytes a failed write of `n` bytes at `off` leaves: free values (R211; log 6). -/
def failedBytes (choice off n : Nat) : List Byte :=
  (List.range n).map (fun k => Config.failedWriteByte choice (off + k))

/-- `PWrite(off, bytes)` (R211): with `io = fail` the range holds unspecified bytes; nothing outside it changes. -/
def persistWrite (off : Nat) (bs : List Byte) (s : State) : State :=
  match s.io with
  | .ok => { s with persist := Memory.writeRange persistUnlisted s.persist off bs }
  | .fail =>
    { s with
      persist := Memory.writeRange persistUnlisted s.persist off (failedBytes s.freeCount off bs.length)
      freeCount := s.freeCount + 1 }

/-! ### Outcomes -/

/-- Go on from a next state; a fault or a refusal ends the step. -/
def andThen (o : Host.Outcome State Fault Refusal) (f : State → Host.Outcome State Fault Refusal) :
    Host.Outcome State Fault Refusal :=
  match o with
  | .next s => f s
  | .fault r => .fault r
  | .refused r => .refused r

end Sys2Proof.Machine
end

