-- ==== Sys2Proof/Machine/Operands.lean ====
section
/-! DEFINITION. What an index operand names inside an arena image: the header and table views (R171), a Jingle's blob
(R179), a channel's sequence (R181), the blobs themselves (R185) and the packer (R176). All take any
image and write nothing. -/

namespace Sys2Proof.Machine

/-- `Count(X)` (R83, R171). -/
def countOf (p : Params) (X : Memory) : Nat := (byteAt p X 4).toNat

/-- `Hdr(n)` (R85). -/
def hdr (n : Nat) : Nat := 6 + 2 * n

/-- `Off(X, i)` (R84, R171). -/
def offsetOf (p : Params) (X : Memory) (i : Nat) : Nat := read16 p X (6 + 2 * i)

/-- `RCount(X, o)` (R171). -/
def rCount (p : Params) (X : Memory) (o : Nat) : Nat := read16 p X o

/-- `LCount(X, o)` (R171). -/
def lCount (p : Params) (X : Memory) (o : Nat) : Nat := read16 p X (o + 2)

/-- `BlobSize(r, l)` (R87), on natural numbers. -/
def blobSize (r l : Nat) : Nat := 4 + 5 * (r + l)

/-- `SizeAt(X, o)` (R171). -/
def sizeAt (p : Params) (X : Memory) (o : Nat) : Nat := blobSize (rCount p X o) (lCount p X o)

/-- `JingleOffset(X, idx)` (R179). -/
def jingleOffset (p : Params) (X : Memory) (idx : Nat) : Option Nat :=
  if countOf p X ≤ idx then none
  else
    let o := offsetOf p X idx
    if o < hdr (countOf p X) ∨ Config.cap < o + 4 then none else some o

/-- `Notes(X, ch, idx)` (R181): the base address and the Note count of a channel's sequence. -/
def notesOf (p : Params) (X : Memory) (ch : Channel) (idx : Nat) : Option (Nat × Nat) :=
  match jingleOffset p X idx with
  | none => none
  | some o =>
    let r := rCount p X o
    let l := lCount p X o
    if Config.cap < o + 4 + 5 * (r + l) then none
    else
      match ch with
      | .right => some (o + 4, r)
      | .left => some (o + 4 + 5 * r, l)

/-- `Used(X)` (R175). -/
def usedOf (p : Params) (X : Memory) : Nat :=
  hdr (countOf p X) + ((List.range (countOf p X)).map (fun i => sizeAt p X (offsetOf p X i))).sum

/-- `Blobs(X)` (R185). -/
def blobsOf (p : Params) (X : Memory) : List (List Byte) :=
  (List.range (countOf p X)).map (fun i => readBytes p X (offsetOf p X i) (sizeAt p X (offsetOf p X i)))

/-- `NewBlob(r, l)` (R185): all Notes are (0, 0, 0). -/
def newBlob (r l : U16) : List Byte :=
  le16 r ++ le16 l ++ List.replicate (5 * (r.toNat + l.toNat)) 0#8

/-- The offset table of blobs laid one after the other from address `o` on (R176). -/
def tableFrom : Nat → List (List Byte) → List Byte
  | _, [] => []
  | o, b :: bs => le16 (BitVec.ofNat 16 o) ++ tableFrom (o + b.length) bs

/-- `Pack(r2, r3, r5, J)` (R176): reserved bytes kept, count, table, blobs back to back from `Hdr(n)`. Bytes 0 and 1
hold MAGIC and every byte after the last blob is 0x00: that is what an unlisted address reads as. -/
def pack (p : Params) (r2 r3 r5 : Byte) (J : List (List Byte)) : Memory :=
  Memory.cellsFrom (arenaUnlisted p) 2
    ([r2, r3, BitVec.ofNat 8 J.length, r5] ++ tableFrom (hdr J.length) J ++ J.flatten)

/-- `Empty` (R177). -/
def emptyImage : Memory := []

/-! ### Note arithmetic (R149, R154): natural numbers, multiply first, then divide. -/

/-- `pw`, the pulse period in microseconds. Its caller has `freq != 0` (R154). -/
def pulseWidth (freq : U16) : Nat := Config.tickHz / freq.toNat

/-- `highUs`. -/
def highTime (duty : Byte) (freq : U16) : Nat := pulseWidth freq * duty.toNat / Config.dutyDiv

/-- `lowUs`. -/
def lowTime (duty : Byte) (freq : U16) : Nat := pulseWidth freq - highTime duty freq

/-- `rem`, the source's pulseCount. -/
def pulseCount (freq dur : U16) : Nat := dur.toNat * freq.toNat / 1000

/-- The delta of a Delay Note (R148). -/
def delayTime (dur : U16) : Nat := dur.toNat * 1000

end Sys2Proof.Machine
end

