-- ==== Sys2Proof/Machine/Flags.lean ====
section
/-! DEFINITION. The conditions the machine computes, and the bounds of the Note arithmetic (R155): validity of an image (R174), what is due and enabled (R57, R121,
R125), quiescence (R291). -/

namespace Sys2Proof.Machine

/-- The table of R155: every quantity of the Note arithmetic between its bounds, the two products below 2^32. It holds for
`duty`, `freq` and `dur` all non-zero (NoteArithmeticStaysInItsBounds), so 32-bit registers never overflow. -/
def noteInBounds (duty : Byte) (freq dur : U16) : Bool :=
  decide (15 ≤ pulseWidth freq) && decide (pulseWidth freq ≤ 1000000)
    && decide (15 ≤ pulseWidth freq * duty.toNat) && decide (pulseWidth freq * duty.toNat ≤ 255000000)
    && decide (highTime duty freq ≤ 498046) && decide (2 * highTime duty freq < pulseWidth freq)
    && decide (8 ≤ lowTime duty freq) && decide (lowTime duty freq ≤ 1000000)
    && decide (highTime duty freq + lowTime duty freq = pulseWidth freq)
    && decide (1 ≤ dur.toNat * freq.toNat) && decide (dur.toNat * freq.toNat ≤ 4294836225)
    && decide (pulseCount freq dur ≤ 4294836)
    && decide (1000 ≤ delayTime dur) && decide (delayTime dur ≤ 65535000)

/-- V1 of R174: `Magic(X) = MAGIC`. The first disjunct (bytes 0 and 1 are unlisted, so they hold MAGIC) implies the
second; Laws/Image.lean proves the whole equal to the second. It lets the kernel evaluate the test
without knowing MAGIC. -/
def magicMatches (p : Params) (X : Memory) : Bool :=
  ((Memory.get? X 0).isNone && (Memory.get? X 1).isNone) || read16 p X 0 == p.magic.toNat

/-- V3 of R174 for the blob at `o`. -/
def blobInBounds (p : Params) (X : Memory) (o : Nat) : Bool :=
  decide (hdr (countOf p X) ≤ o) && decide (o + 4 ≤ Config.cap)
    && decide (o + sizeAt p X o ≤ Config.cap)

/-- V4 of R174 for entries `i` and `i + 1`. -/
def blobsInOrder (p : Params) (X : Memory) (i : Nat) : Bool :=
  decide (offsetOf p X i + sizeAt p X (offsetOf p X i) ≤ offsetOf p X (i + 1))

/-- `IsValid(X)` (R174). -/
def isValid (p : Params) (X : Memory) : Bool :=
  magicMatches p X && decide (hdr (countOf p X) ≤ Config.cap)
    && (List.range (countOf p X)).all (fun i => blobInBounds p X (offsetOf p X i))
    && (List.range (countOf p X - 1)).all (fun i => blobsInOrder p X i)

/-- `Packed(X)` (R176). -/
def packed (p : Params) (X : Memory) : Bool :=
  isValid p X && decide (X = pack p (byteAt p X 2) (byteAt p X 3) (byteAt p X 5) (blobsOf p X))

/-- Timer channel `c` is due, which is also when `Expire(c)` is enabled (R125, R251). -/
def due (c : TimerId) (s : State) : Bool :=
  (s.timer c).armed && decide (s.tick = (s.timer c).matchAt)

/-- The timer channels that are due. -/
def dueList (s : State) : List TimerId := [TimerId.c0, .c1, .c2].filter (fun c => due c s)

/-- When `Tick` is enabled: nothing is due (R121). -/
def tickEnabled (s : State) : Bool := (dueList s).isEmpty

/-- Which steps are enabled (R57). -/
def enabled (e : Event) (s : State) : Bool :=
  match e with
  | .cmd _ _ => true
  | .expire c => due c s
  | .tick => tickEnabled s
  | .reset => true
  | .outsideWrite _ _ => true

/-- The block is quiescent (R291). -/
def quiescent (s : State) : Bool := !s.right.busy && !s.left.busy

/-- One bit as response data (R107). -/
def bitData (v : Bool) : BitVec 40 := if v then 1#40 else 0#40

end Sys2Proof.Machine
end

