-- ==== Sys2Proof/Machine/Notes.lean ====
section
/-! DEFINITION. The Note instructions (NOTE.SKIP, NOTE.DELAY.DUTY0, NOTE.DELAY.FREQ0, NOTE.PULSE) and the sequencer that
runs them: start of a Note, the transition on an expiry, start of a sequence (R140 to R151), and ISBUSY. -/

namespace Sys2Proof.Machine

/-! ### Shared operations of a sequencer -/

/-- `index[ch] <- index[ch] + 1` (R147, R151). -/
def advanceIndex (ch : Channel) (s : State) : State :=
  setSeq ch { s.seq ch with index := (s.seq ch).index + 1#16 } s

/-- `highUs`, `lowUs` and `rem` are latched together (R27). -/
def latchNote (ch : Channel) (high low count : Nat) (s : State) : State :=
  setSeq ch
    { s.seq ch with
      highUs := BitVec.ofNat 32 high
      lowUs := BitVec.ofNat 32 low
      rem := BitVec.ofNat 32 count } s

/-- `StartDelay(ch, dur)` (R148). -/
def startDelay (ch : Channel) (dur : U16) (s : State) : State :=
  armRel (timerOf ch) (delayTime dur) (latchNote ch 0 0 1 (setActive ch false s))

/-- `StartPulsed(ch, duty, freq, dur)` (R149). -/
def startPulsed (ch : Channel) (duty : Byte) (freq dur : U16) (s : State) : State :=
  armRel (timerOf ch) (highTime duty freq)
    (setActive ch true
      (latchNote ch (highTime duty freq) (lowTime duty freq) (pulseCount freq dur) s))

/-- The sequence is complete (R145). -/
def endSequence (ch : Channel) (s : State) : State :=
  disarm (timerOf ch) (setSeq ch { s.seq ch with busy := false } s)

/-! ### The Note instructions, run by sequencer `ch` -/

/-- NOTE.SKIP (R147): only the index advances; duty cycle and frequency are not examined. -/
def execNoteSkip (ch : Channel) (_duty : Byte) (_freq : U16) (s : State) :
    Host.Outcome State Fault Refusal :=
  .next (advanceIndex ch s)

/-- NOTE.DELAY.DUTY0 (R148). -/
def execNoteDelayDuty0 (ch : Channel) (_freq dur : U16) (s : State) :
    Host.Outcome State Fault Refusal :=
  .next (startDelay ch dur s)

/-- NOTE.DELAY.FREQ0 (R148). -/
def execNoteDelayFreq0 (ch : Channel) (_duty : Byte) (dur : U16) (s : State) :
    Host.Outcome State Fault Refusal :=
  .next (startDelay ch dur s)

/-- NOTE.PULSE (R149). The division is by a non-zero frequency in every Note a record decodes to (R154). -/
def execNotePulse (ch : Channel) (duty : Byte) (freq dur : U16) (s : State) :
    Host.Outcome State Fault Refusal :=
  if freq = 0#16 then .refused .pulseFrequencyZero else .next (startPulsed ch duty freq dur s)

/-! ### Note fetch and Note start -/

/-- The address of the Note at `index[ch]` (R146). -/
def noteAddress (ch : Channel) (s : State) : Nat :=
  (s.seq ch).seqBase.toNat + 5 * (s.seq ch).index.toNat

/-- `Fetch(ch)` (R146): none where one of the five bytes does not exist. -/
def fetchNote (ch : Channel) (s : State) : Option Note40 :=
  if noteAddress ch s + 5 ≤ Config.cap then
    some (noteAt Config.params s.arena (noteAddress ch s))
  else none

/-- The loop and the start of R145 when `k` Notes of the sequence are left, `k = seqCount[ch] - index[ch]`. -/
def startNoteLoop (ch : Channel) : Nat → State → Host.Outcome State Fault Refusal
  | 0, s =>
    if (s.seq ch).index = (s.seq ch).seqCount then .next (endSequence ch s)
    else .fault (.noteIndexPastEnd ch)
  | k + 1, s =>
    match fetchNote ch s with
    | none => .fault (.noteFetchOutOfArena ch)
    | some n =>
      match classifyNote n with
      | .skip => andThen (execNoteSkip ch (noteDuty n) (noteFreq n) s) (startNoteLoop ch k)
      | .delayDuty0 => execNoteDelayDuty0 ch (noteFreq n) (noteDur n) s
      | .delayFreq0 => execNoteDelayFreq0 ch (noteDuty n) (noteDur n) s
      | .pulse => execNotePulse ch (noteDuty n) (noteFreq n) (noteDur n) s

/-- `StartNote(ch)` (R145). -/
def startNote (ch : Channel) (s : State) : Host.Outcome State Fault Refusal :=
  startNoteLoop ch ((s.seq ch).seqCount.toNat - (s.seq ch).index.toNat) s

/-- `NoteComplete(ch)` (R151). -/
def noteComplete (ch : Channel) (s : State) : Host.Outcome State Fault Refusal :=
  startNote ch (advanceIndex ch s)

/-! ### The transition on an expiry -/

/-- `if rem[ch] != 0 then rem[ch] <- rem[ch] - 1` (R150; saturating, corner case (c)). -/
def decrementRem (ch : Channel) (s : State) : State :=
  if (s.seq ch).rem = 0#32 then s
  else setSeq ch { s.seq ch with rem := (s.seq ch).rem - 1#32 } s

/-- What `NextState` does at the end of a low phase, a gap period or a delay, after the decrement (R150). -/
def nextPeriod (ch : Channel) (s : State) : Host.Outcome State Fault Refusal :=
  if 1 < (s.seq ch).rem.toNat then
    .next (armRel (timerOf ch) (s.seq ch).highUs.toNat (setActive ch true s))
  else if (s.seq ch).rem.toNat = 1 then
    .next (armRel (timerOf ch) ((s.seq ch).highUs.toNat + (s.seq ch).lowUs.toNat) s)
  else noteComplete ch s

/-- `NextState(ch)` (R150). -/
def nextState (ch : Channel) (s : State) : Host.Outcome State Fault Refusal :=
  if getActive ch s then
    .next (armRel (timerOf ch) (s.seq ch).lowUs.toNat (setActive ch false s))
  else nextPeriod ch (decrementRem ch s)

/-- The handler bound to timer channel `c` (R125): channel 2 has none (R129). -/
def expiryHandler (c : TimerId) (s : State) : Host.Outcome State Fault Refusal :=
  match c with
  | .c0 => nextState .right s
  | .c1 => nextState .left s
  | .c2 => .next s

/-- `Expire(c)` (R125). -/
def expire (c : TimerId) (s : State) : Host.Outcome State Fault Refusal :=
  expiryHandler c (takeExpiry c s)

/-! ### Start of a sequence -/

/-- The status of `SeqPlay(ch, ref)` (R143): busy first, then the empty or null reference. -/
def seqPlayStatus (ch : Channel) (ref : Option (Nat × Nat)) (s : State) : Status :=
  if (s.seq ch).busy then .alreadyPlaying
  else
    match ref with
    | none => .emptySequence
    | some (_, n) => if n = 0 then .emptySequence else .ok

/-- The registers of a started sequence of `n` Notes at `base` (R143). -/
def beginSequence (ch : Channel) (base n : Nat) (s : State) : State :=
  setSeq ch
    { s.seq ch with
      seqBase := BitVec.ofNat 16 base
      seqCount := BitVec.ofNat 16 n
      index := 0#16
      busy := true } s

/-- `SeqPlay(ch, ref)` (R143); a failing start changes nothing (R144). -/
def seqPlay (ch : Channel) (ref : Option (Nat × Nat)) (s : State) :
    Host.Outcome State Fault Refusal :=
  match seqPlayStatus ch ref s, ref with
  | .ok, some (base, n) => startNote ch (beginSequence ch base n s)
  | _, _ => .next s

/-! ### ISBUSY -/

/-- ISBUSY ch (R153). -/
def execIsbusy (ch : Channel) (s : State) : Host.Outcome State Fault Refusal :=
  .next (answer (bitData (s.seq ch).busy) s)

end Sys2Proof.Machine
end

