-- ==== Sys2Proof/Machine/Store.lean ====
section
/-! DEFINITION. The JingleStore commands except persistence (42_store): CLEAR, ADD, DELETE, SETNOTE, GETNOTE, COUNT, OFFSET,
NOTECOUNT, BYTESFREE, ISVALID. Each is a function of the parameters and the state; exec passes Config.params. -/

namespace Sys2Proof.Machine

/-- A natural number as response data (R105). -/
def natData (n : Nat) : BitVec 40 := BitVec.ofNat 40 n

/-- `A <- Empty; bytesFree <- CAP - 6` (R178, R214, R270). -/
def clearArena (s : State) : State :=
  { s with arena := emptyImage, bytesFree := BitVec.ofNat 16 (Config.cap - 6) }

/-- R176: `Pack` of a blob list with the reserved bytes of the present arena, and the new free count. -/
def repack (p : Params) (J : List (List Byte)) (free : Nat) (s : State) : State :=
  { s with
    arena := pack p (byteAt p s.arena 2) (byteAt p s.arena 3) (byteAt p s.arena 5) J
    bytesFree := BitVec.ofNat 16 free }

/-- Bytes an ADD needs (R186): 2 for the table entry, then the blob. -/
def addNeed (r l : U16) : Nat := 2 + 4 + 5 * (r.toNat + l.toNat)

/-- ADD (R186). -/
def addJingle (p : Params) (idx : Byte) (r l : U16) (s : State) : State :=
  if !isValid p s.arena then raise .invalidPersistedData s
  else if countOf p s.arena < idx.toNat then raise .badIndex s
  else if countOf p s.arena = 255 ∨ s.bytesFree.toNat < addNeed r l then raise .outOfSpace s
  else
    let J := blobsOf p s.arena
    answer 0#40
      (repack p (J.take idx.toNat ++ [newBlob r l] ++ J.drop idx.toNat)
        (s.bytesFree.toNat - addNeed r l) s)

/-- DELETE (R188). -/
def deleteJingle (p : Params) (idx : Byte) (s : State) : State :=
  if !isValid p s.arena then raise .invalidPersistedData s
  else if countOf p s.arena ≤ idx.toNat then raise .badIndex s
  else
    let J := blobsOf p s.arena
    answer 0#40
      (repack p (J.take idx.toNat ++ J.drop (idx.toNat + 1))
        (s.bytesFree.toNat + (2 + (J.getD idx.toNat []).length)) s)

/-- The address of Note `noteIdx` of channel `ch` of Jingle `idx`, or the error of GETNOTE and SETNOTE in the order of
R252 (R183, R184). -/
def noteSlot (p : Params) (X : Memory) (idx : Byte) (ch : Channel) (noteIdx : U16) :
    Except Status Nat :=
  if countOf p X ≤ idx.toNat then .error .badIndex
  else
    match notesOf p X ch idx.toNat with
    | none => .error .invalidPersistedData
    | some (base, n) =>
      if n ≤ noteIdx.toNat then .error .badIndex else .ok (base + 5 * noteIdx.toNat)

/-- The five bytes of a Note written in place (R184). -/
def writeNote (p : Params) (a : Nat) (duty : Byte) (freq dur : U16) (s : State) : State :=
  { s with arena := Memory.writeRange (arenaUnlisted p) s.arena a (noteBytes duty freq dur) }

/-- SETNOTE (R184). -/
def setNote (p : Params) (idx : Byte) (ch : Channel) (noteIdx : U16) (duty : Byte) (freq dur : U16)
    (s : State) : State :=
  match noteSlot p s.arena idx ch noteIdx with
  | .error k => raise k s
  | .ok a => answer 0#40 (writeNote p a duty freq dur s)

/-- GETNOTE (R183): the record is the data (R107). -/
def getNote (p : Params) (idx : Byte) (ch : Channel) (noteIdx : U16) (s : State) : State :=
  match noteSlot p s.arena idx ch noteIdx with
  | .error k => raise k s
  | .ok a => answer (noteAt p s.arena a) s

/-- OFFSET (R179). -/
def queryOffset (p : Params) (idx : Byte) (s : State) : State :=
  if countOf p s.arena ≤ idx.toNat then raise .badIndex s
  else
    match jingleOffset p s.arena idx.toNat with
    | none => raise .invalidPersistedData s
    | some o => answer (natData o) s

/-- NOTECOUNT (R182). -/
def queryNoteCount (p : Params) (idx : Byte) (ch : Channel) (s : State) : State :=
  if countOf p s.arena ≤ idx.toNat then raise .badIndex s
  else
    match notesOf p s.arena ch idx.toNat with
    | none => raise .invalidPersistedData s
    | some (_, n) => answer (natData n) s

/-! ### The instructions -/

/-- CLEAR (R178). -/
def execClear (s : State) : Host.Outcome State Fault Refusal :=
  .next (answer 0#40 (clearArena s))

/-- ADD idx, rightCount, leftCount (R186). -/
def execAdd (idx : Byte) (r l : U16) (s : State) : Host.Outcome State Fault Refusal :=
  .next (addJingle Config.params idx r l s)

/-- DELETE idx (R188). -/
def execDelete (idx : Byte) (s : State) : Host.Outcome State Fault Refusal :=
  .next (deleteJingle Config.params idx s)

/-- SETNOTE idx, ch, noteIdx, dutyCycle, frequency, duration (R184). -/
def execSetnote (idx : Byte) (ch : Channel) (noteIdx : U16) (duty : Byte) (freq dur : U16)
    (s : State) : Host.Outcome State Fault Refusal :=
  .next (setNote Config.params idx ch noteIdx duty freq dur s)

/-- GETNOTE idx, ch, noteIdx (R183). -/
def execGetnote (idx : Byte) (ch : Channel) (noteIdx : U16) (s : State) :
    Host.Outcome State Fault Refusal :=
  .next (getNote Config.params idx ch noteIdx s)

/-- COUNT (R180). -/
def execCount (s : State) : Host.Outcome State Fault Refusal :=
  .next (answer (natData (countOf Config.params s.arena)) s)

/-- OFFSET idx (R179). -/
def execOffset (idx : Byte) (s : State) : Host.Outcome State Fault Refusal :=
  .next (queryOffset Config.params idx s)

/-- NOTECOUNT idx, ch (R182). -/
def execNotecount (idx : Byte) (ch : Channel) (s : State) : Host.Outcome State Fault Refusal :=
  .next (queryNoteCount Config.params idx ch s)

/-- BYTESFREE (R190). -/
def execBytesfree (s : State) : Host.Outcome State Fault Refusal :=
  .next (answer (natData s.bytesFree.toNat) s)

/-- ISVALID (R191). -/
def execIsvalid (s : State) : Host.Outcome State Fault Refusal :=
  .next (answer (bitData (isValid Config.params s.arena)) s)

end Sys2Proof.Machine
end

