-- ==== Sys2Proof/Machine/Engine.lean ====
section
/-! DEFINITION. JingleEngine (44_engine): PLAY. -/

namespace Sys2Proof.Machine

/-- The data of a successful PLAY (R227): the RIGHT start code, then the LEFT. -/
def playData (r l : Status) : BitVec 40 := natData (r.code.toNat + 256 * l.code.toNat)

/-- PLAY idx (R225): RIGHT starts before LEFT, each on its own channel, one atomic step (R226). -/
def execPlay (idx : Byte) (s : State) : Host.Outcome State Fault Refusal :=
  if countOf Config.params s.arena ≤ idx.toNat then .next (raise .badIndex s)
  else
    let refR := notesOf Config.params s.arena .right idx.toNat
    let refL := notesOf Config.params s.arena .left idx.toNat
    andThen (seqPlay .right refR s) fun s1 =>
      andThen (seqPlay .left refL s1) fun s2 =>
        .next (answer (playData (seqPlayStatus .right refR s) (seqPlayStatus .left refL s1)) s2)

end Sys2Proof.Machine
end

