-- ==== Sys2Proof/Machine/Persist.lean ====
section
/-! DEFINITION. Persistence of the container (43_persist): LOAD, SAVE, PCLEAR. -/

namespace Sys2Proof.Machine

/-- The arena image held in the store (R55), as an image of its own. -/
def storedImage (p : Params) (s : State) : Memory :=
  Memory.cellsFrom (arenaUnlisted p) 0 (persistRead p.persistOffset Config.cap s)

/-- LOAD (R214): on either failure the arena is re-initialised. -/
def loadImage (p : Params) (s : State) : State :=
  match s.io with
  | .fail => raise .storageIoError (clearArena s)
  | .ok =>
    if !isValid p (storedImage p s) then raise .invalidPersistedData (clearArena s)
    else
      answer 0#40
        { s with
          arena := storedImage p s
          bytesFree := BitVec.ofNat 16 (Config.cap - usedOf p (storedImage p s)) }

/-- The status of an operation that only writes the store (R212, R216). -/
def storeStatus (io : IoOutcome) (s : State) : State :=
  match io with
  | .ok => answer 0#40 s
  | .fail => raise .storageIoError s

/-- SAVE (R212): all CAP bytes are copied out. -/
def saveImage (p : Params) (s : State) : State :=
  storeStatus s.io (persistWrite p.persistOffset (readBytes p s.arena 0 Config.cap) s)

/-- PCLEAR (R216): image bytes 0 to 5 are zeroed. -/
def clearStored (p : Params) (s : State) : State :=
  storeStatus s.io (persistWrite p.persistOffset (List.replicate 6 0#8) s)

/-- LOAD (R214). -/
def execLoad (s : State) : Host.Outcome State Fault Refusal :=
  .next (loadImage Config.params s)

/-- SAVE (R212). -/
def execSave (s : State) : Host.Outcome State Fault Refusal :=
  .next (saveImage Config.params s)

/-- PCLEAR (R216). -/
def execPclear (s : State) : Host.Outcome State Fault Refusal :=
  .next (clearStored Config.params s)

end Sys2Proof.Machine
end

