-- ==== Sys2Proof/Machine/Dispatch.lean ====
section
/-! DEFINITION. One arm per instruction. -/

namespace Sys2Proof.Machine

def exec (i : Instr) (s : State) : Host.Outcome State Fault Refusal :=
  match i with
  -- commands (CMD80)
  | .play idx => Sys2Proof.Machine.execPlay idx s
  | .isbusy ch => Sys2Proof.Machine.execIsbusy ch s
  | .clear => Sys2Proof.Machine.execClear s
  | .add idx r l => Sys2Proof.Machine.execAdd idx r l s
  | .delete idx => Sys2Proof.Machine.execDelete idx s
  | .setnote idx ch k duty freq dur => Sys2Proof.Machine.execSetnote idx ch k duty freq dur s
  | .getnote idx ch k => Sys2Proof.Machine.execGetnote idx ch k s
  | .count => Sys2Proof.Machine.execCount s
  | .offset idx => Sys2Proof.Machine.execOffset idx s
  | .notecount idx ch => Sys2Proof.Machine.execNotecount idx ch s
  | .bytesfree => Sys2Proof.Machine.execBytesfree s
  | .isvalid => Sys2Proof.Machine.execIsvalid s
  | .load => Sys2Proof.Machine.execLoad s
  | .save => Sys2Proof.Machine.execSave s
  | .pclear => Sys2Proof.Machine.execPclear s
  -- Notes (NOTE40), run by the sequencer that fetched them
  | .noteSkip ch duty freq => Sys2Proof.Machine.execNoteSkip ch duty freq s
  | .noteDelayDuty0 ch freq dur => Sys2Proof.Machine.execNoteDelayDuty0 ch freq dur s
  | .noteDelayFreq0 ch duty dur => Sys2Proof.Machine.execNoteDelayFreq0 ch duty dur s
  | .notePulse ch duty freq dur => Sys2Proof.Machine.execNotePulse ch duty freq dur s

end Sys2Proof.Machine
end

