-- ==== Sys2Proof/Machine/Events.lean ====
section
/-! DEFINITION. The steps of R17 around exec: a command presented, an expiry, a tick, a reset, the store rewritten from
outside; which of them is next (R57); and how a table word is put where the next step runs it. -/

namespace Sys2Proof.Machine

/-- `Cmd(w)` (R100, R103): an undefined `op` answers BadCommand and changes nothing (R247). -/
def runCommand (w : Cmd80) (io : IoOutcome) (s : State) : Host.Outcome State Fault Refusal :=
  match decodeCommand w with
  | .instr i => exec i { s with io := io }
  | .badCommand _ => .next (raise .badCommand s)

/-- `Reset` (R270): every variable of R20 except `P`. The model's own schedule, store input and free-value counter
are not the block's and stay (log 20). -/
def resetBlock (s : State) : State :=
  { State.reset with
    persist := s.persist
    schedule := s.schedule
    io := s.io
    freeCount := s.freeCount }

/-- An outside agent writes one byte of the store (R38, R286; log 9). -/
def outsideWrite (a : Nat) (b : Byte) (s : State) : Host.Outcome State Fault Refusal :=
  if a < Config.params.persistCap then
    .next { s with persist := Memory.writeRange persistUnlisted s.persist a [b] }
  else .fault (.persistAddress a)

/-- No response outside a `Cmd` step (R35, R105). -/
def clearResponse (s : State) : State := { s with response := none }

/-- The effect of an enabled step (R17). -/
def eventEffect (e : Event) (s : State) : Host.Outcome State Fault Refusal :=
  match e with
  | .cmd w io => runCommand w io s
  | .expire c => expire c (clearResponse s)
  | .tick => .next { clearResponse s with tick := s.tick + 1#32 }
  | .reset => .next (resetBlock s)
  | .outsideWrite a b => outsideWrite a b (clearResponse s)

/-- A step that is not enabled is no step of the hardware (R57; log 2). -/
def runEvent (e : Event) (s : State) : Host.Outcome State Fault Refusal :=
  if enabled e s then eventEffect e s else .refused (.notEnabled e)

/-- The step the block takes when nothing is presented to it: a due expiry, else the passage of time (R57, R121).
Which of several due expiries runs first is a free value (R253; log 1). -/
def ownEvent (s : State) : Event :=
  match dueList s with
  | [] => .tick
  | [c] => .expire c
  | c :: d :: cs => .expire ((c :: d :: cs).getD (Config.expiryPick s.freeCount % (cs.length + 2)) c)

/-- The free choice of `ownEvent`, where it makes one, is drawn. -/
def drawChoice (s : State) : State :=
  if 2 ≤ (dueList s).length then { s with freeCount := s.freeCount + 1 } else s

/-- One step: the oldest scheduled one, or the block's own. -/
def runStep (s : State) : Host.Outcome State Fault Refusal :=
  match s.schedule with
  | [] => runEvent (ownEvent s) (drawChoice s)
  | e :: rest => runEvent e { s with schedule := rest }

/-- A command word presented next; the store outcome is the one already in the state (log 14). -/
def placeCommand (w : Cmd80) (s : State) : State :=
  { s with schedule := .cmd w s.io :: s.schedule }

/-- The last five arena bytes: where `placeNote` puts a Note. -/
def placedNoteAddress : Nat := Config.cap - 5

/-- A Note record placed so that the next step fetches and starts it: it stands in the last five arena bytes as Note 1
of a two-Note sequence of RIGHT whose Note 0 ends at this very tick (log 14). -/
def placeNote (n : Note40) (s : State) : State :=
  { s with
    arena := Memory.writeRange (arenaUnlisted Config.params) s.arena placedNoteAddress
      (noteBytes (noteDuty n) (noteFreq n) (noteDur n))
    right := { s.right with
      seqBase := BitVec.ofNat 16 (placedNoteAddress - 5)
      seqCount := 2#16
      index := 0#16
      busy := true
      out := false
      rem := 1#32 }
    timer0 := { matchAt := s.tick, armed := true }
    schedule := .expire .c0 :: s.schedule }

/-- A table word placed where the next step runs it (log 14, log 15). -/
def placeWord (s : State) (nbits w : Nat) : State :=
  let v := w % 2 ^ nbits
  if tableWordIsNote nbits v then placeNote (BitVec.ofNat 40 v) s
  else placeCommand (BitVec.ofNat 80 v) s

end Sys2Proof.Machine
end

