-- ==== Sys2Proof/Machine/Step.lean ====
section
/-! DEFINITION. One atomic step of the machine (R56, R57). -/

namespace Sys2Proof.Machine

/-- The next step: the oldest scheduled one, or the block's own where none is scheduled. -/
def step (s : State) : Host.Outcome State Fault Refusal := runStep s

/-- `s` with a word of the opcode table placed so that the next step runs it (log 14). -/
def State.withFetchWord (s : State) (nbits w : Nat) : State := placeWord s nbits w

end Sys2Proof.Machine
end

