-- ==== Sys2Proof/Machine/Assembler.lean ====
section
/-! DEFINITION. The assembler: lines of text (30_encoding R112), the command each stands for, and the pseudo-instruction
`print` (R113). Nothing the machine does depends on this file. -/

namespace Sys2Proof.Machine

/-- The command mnemonics of R112. -/
inductive Mnemonic where
  | play | isbusy | clear | add | delete | setnote | getnote | count
  | offset | notecount | bytesfree | isvalid | load | save | pclear
  deriving DecidableEq, Repr

/-- An operand as written: a number, or a channel name (R112). -/
inductive Operand where
  | num (n : Nat)
  | right
  | left
  deriving DecidableEq, Repr

/-- A channel is written `RIGHT` or `LEFT`, or 0, 1 (R112). -/
def Operand.channel? : Operand → Option Channel
  | .right => some .right
  | .left => some .left
  | .num 0 => some .right
  | .num 1 => some .left
  | .num _ => none

/-- A number that fits an 8-bit field (R101). -/
def Operand.byte? : Operand → Option Byte
  | .num n => if n < 256 then some (BitVec.ofNat 8 n) else none
  | .right => none
  | .left => none

/-- A number that fits a 16-bit field (R101). -/
def Operand.u16? : Operand → Option U16
  | .num n => if n < 65536 then some (BitVec.ofNat 16 n) else none
  | .right => none
  | .left => none

/-- The command a line of R112 stands for; none where the operands do not fit it. -/
def assemble : Mnemonic → List Operand → Option Instr
  | .play, [a] => do return .play (← a.byte?)
  | .isbusy, [ch] => do return .isbusy (← ch.channel?)
  | .clear, [] => some .clear
  | .add, [a, r, l] => do return .add (← a.byte?) (← r.u16?) (← l.u16?)
  | .delete, [a] => do return .delete (← a.byte?)
  | .setnote, [a, ch, k, d, f, t] => do
    return .setnote (← a.byte?) (← ch.channel?) (← k.u16?) (← d.byte?) (← f.u16?) (← t.u16?)
  | .getnote, [a, ch, k] => do return .getnote (← a.byte?) (← ch.channel?) (← k.u16?)
  | .count, [] => some .count
  | .offset, [a] => do return .offset (← a.byte?)
  | .notecount, [a, ch] => do return .notecount (← a.byte?) (← ch.channel?)
  | .bytesfree, [] => some .bytesfree
  | .isvalid, [] => some .isvalid
  | .load, [] => some .load
  | .save, [] => some .save
  | .pclear, [] => some .pclear
  | _, _ => none

/-! ### Text -/

/-- The mnemonic as written. -/
def Mnemonic.text : Mnemonic → List Char
  | .play => ['P', 'L', 'A', 'Y']
  | .isbusy => ['I', 'S', 'B', 'U', 'S', 'Y']
  | .clear => ['C', 'L', 'E', 'A', 'R']
  | .add => ['A', 'D', 'D']
  | .delete => ['D', 'E', 'L', 'E', 'T', 'E']
  | .setnote => ['S', 'E', 'T', 'N', 'O', 'T', 'E']
  | .getnote => ['G', 'E', 'T', 'N', 'O', 'T', 'E']
  | .count => ['C', 'O', 'U', 'N', 'T']
  | .offset => ['O', 'F', 'F', 'S', 'E', 'T']
  | .notecount => ['N', 'O', 'T', 'E', 'C', 'O', 'U', 'N', 'T']
  | .bytesfree => ['B', 'Y', 'T', 'E', 'S', 'F', 'R', 'E', 'E']
  | .isvalid => ['I', 'S', 'V', 'A', 'L', 'I', 'D']
  | .load => ['L', 'O', 'A', 'D']
  | .save => ['S', 'A', 'V', 'E']
  | .pclear => ['P', 'C', 'L', 'E', 'A', 'R']

/-- The fifteen mnemonics. -/
def Mnemonic.all : List Mnemonic :=
  [.play, .isbusy, .clear, .add, .delete, .setnote, .getnote, .count, .offset, .notecount, .bytesfree, .isvalid,
    .load, .save, .pclear]

/-- The value of a digit. -/
def digitValue (c : Char) : Option Nat :=
  let n := c.toNat
  if 48 ≤ n ∧ n ≤ 57 then some (n - 48)
  else if 65 ≤ n ∧ n ≤ 70 then some (n - 55)
  else if 97 ≤ n ∧ n ≤ 102 then some (n - 87)
  else none

/-- The number the digits write in a base, continuing from `acc`. -/
def digitsValue (base : Nat) : Nat → List Char → Option Nat
  | acc, [] => some acc
  | acc, c :: cs =>
    match digitValue c with
    | none => none
    | some d => if d < base then digitsValue base (acc * base + d) cs else none

/-- A number: decimal, or hexadecimal after `0x` (R112). -/
def numberOf : List Char → Option Nat
  | [] => none
  | ['0', 'x'] => none
  | '0' :: 'x' :: ds => digitsValue 16 0 ds
  | ds => digitsValue 10 0 ds

/-- An operand as written (R112). -/
def operandOf (cs : List Char) : Option Operand :=
  if cs = ['R', 'I', 'G', 'H', 'T'] then some .right
  else if cs = ['L', 'E', 'F', 'T'] then some .left
  else (numberOf cs).map Operand.num

/-- The text between commas. -/
def splitCommas : List Char → List (List Char)
  | [] => [[]]
  | c :: cs =>
    match c == ',', splitCommas cs with
    | true, parts => [] :: parts
    | false, [] => [[c]]
    | false, part :: parts => (c :: part) :: parts

/-- Blanks at either end do not count (log 18). -/
def trimBlanks (cs : List Char) : List Char :=
  ((cs.dropWhile (· == ' ')).reverse.dropWhile (· == ' ')).reverse

/-- The operands of a line; none where one is not readable. -/
def operandsOf : List (List Char) → Option (List Operand)
  | [] => some []
  | part :: parts => do return (← operandOf (trimBlanks part)) :: (← operandsOf parts)

/-- The command a line of text stands for (R112): the mnemonic, then its operands separated by commas. -/
def assembleLine (line : String) : Option Instr :=
  let cs := trimBlanks line.toList
  let rest := trimBlanks (cs.dropWhile (· != ' '))
  match Mnemonic.all.find? (fun m => m.text == cs.takeWhile (· != ' ')) with
  | none => none
  | some m =>
    if rest = [] then assemble m []
    else (operandsOf (splitCommas rest)).bind (assemble m)

/-! ### The pseudo-instruction `print` -/

/-- `print(idx)` for a Jingle of `r` RIGHT and `l` LEFT Notes (R113). -/
def printJingle (idx : Byte) (r l : Nat) : List Instr :=
  [.notecount idx .right, .notecount idx .left]
    ++ (List.range r).map (fun k => .getnote idx .right (BitVec.ofNat 16 k))
    ++ (List.range l).map (fun k => .getnote idx .left (BitVec.ofNat 16 k))

/-- `print(i)` for each Jingle from index `i` on, given the Note counts COUNT and NOTECOUNT answer (R113). -/
def printFrom : Nat → List (Nat × Nat) → List Instr
  | _, [] => []
  | i, (r, l) :: rest => printJingle (BitVec.ofNat 8 i) r l ++ printFrom (i + 1) rest

/-- `print()` (R113). -/
def printAll (counts : List (Nat × Nat)) : List Instr := .count :: printFrom 0 counts

end Sys2Proof.Machine
end

