-- ==== Sys2Proof/Safety.lean ====
section
/-! DEFINITION. What holds in every reachable state: the invariants I1 to I7 of 10_state R32 and the ranges of R27. -/

namespace Sys2Proof.Machine

/-- What the registers of one channel keep, `armed` being the enable of its timer channel. -/
structure SequencerOk (q : Sequencer) (armed : Bool) : Prop where
  /-- I3 -/
  busyArmed : q.busy = armed
  /-- I4 -/
  idleInactive : q.busy = false → q.out = false
  /-- I5, first half -/
  indexLe : q.index.toNat ≤ q.seqCount.toNat
  /-- I5, second half -/
  indexLt : q.busy = true → q.index.toNat < q.seqCount.toNat
  /-- I6 -/
  inArena : q.seqBase.toNat + 5 * q.seqCount.toNat ≤ Config.cap
  /-- I7, and the same bounds wherever another pulse is still to start. I7 alone is not kept by every step: from a state
  that no run reaches, `out = 0`, `rem > 2` and zero durations, the next expiry breaks it (log 17). -/
  pulseLatched : q.busy = true → q.out = true ∨ 1 < q.rem.toNat →
    15 ≤ q.highUs.toNat + q.lowUs.toNat ∧ 8 ≤ q.lowUs.toNat
  /-- R27 -/
  highLe : q.highUs.toNat ≤ 498046
  /-- R27 -/
  lowLe : q.lowUs.toNat ≤ 1000000
  /-- R27 -/
  remLe : q.rem.toNat ≤ 4294836

/-- The invariant of reachable states (R32). -/
structure Inv (s : State) : Prop where
  /-- The arena is in canonical form and lists existing addresses only. -/
  arenaWf : Memory.wf Config.cap (arenaUnlisted Config.params) s.arena = true
  /-- The store is in canonical form and lists existing addresses only. -/
  persistWf : Memory.wf Config.params.persistCap persistUnlisted s.persist = true
  /-- I1 -/
  valid : isValid Config.params s.arena = true
  /-- I2 -/
  free : s.bytesFree.toNat + usedOf Config.params s.arena = Config.cap
  /-- I3 to I7 and R27, RIGHT -/
  rightOk : SequencerOk s.right s.timer0.armed
  /-- I3 to I7 and R27, LEFT -/
  leftOk : SequencerOk s.left s.timer1.armed
  /-- I3, `armed[2] = 0` -/
  spareIdle : s.timer2.armed = false

/-- `t` differs from `s` only in the registers, the output and the timer channel of sequencer `ch` (R141, R152). -/
def OnlyChannel (ch : Channel) (s t : State) : Prop :=
  t = setTimer (timerOf ch) (t.timer (timerOf ch)) (setSeq ch (t.seq ch) s)

/-- A byte string that is one Jingle's blob (R86): its two counts give its length (R87). -/
def BlobShaped (b : List Byte) : Prop :=
  4 ≤ b.length ∧
    b.length =
      blobSize ((b.getD 0 0#8).toNat + 256 * (b.getD 1 0#8).toNat)
        ((b.getD 2 0#8).toNat + 256 * (b.getD 3 0#8).toNat)

/-- What R176 asks of the blob list that `Pack` lays out. -/
structure Packable (J : List (List Byte)) : Prop where
  countLe : J.length ≤ 255
  fits : hdr J.length + J.flatten.length ≤ Config.cap
  shaped : ∀ b ∈ J, BlobShaped b

/-- Where `Pack` puts blob `i` (R176). -/
def startOf (J : List (List Byte)) (i : Nat) : Nat := hdr J.length + (J.take i).flatten.length

/-- The step a state takes next: the oldest scheduled one, or the block's own (R57; log 1). -/
def takenEvent (s : State) : Event :=
  match s.schedule with
  | [] => ownEvent s
  | e :: _ => e

/-- The step a state takes next is enabled, and an outside write hits a byte that exists: what a schedule of the
hardware looks like (R57). A state with nothing scheduled takes the block's own step. -/
def Ready (s : State) : Prop :=
  match s.schedule with
  | [] => True
  | .outsideWrite a _ :: _ => a < Config.params.persistCap
  | e :: _ => enabled e s = true

end Sys2Proof.Machine
end

