-- ==== Sys2Proof/Certificates/Slice0/Obligations.lean ====
section
/-! DEFINITION. The statements about the machine, each from the rules of the spec it cites. `Config.params` are the OPEN
parameters: every statement holds whatever they are. -/

open Sys2Proof Sys2Proof.Machine

namespace Sys2Proof.Statements

/-- `s` with the response word `{data, code}` (R105) and nothing else changed. -/
def responded (code : Byte) (data : BitVec 40) (s : State) : State := { s with response := some (data ++ code) }

/-- `A[a]` of a state's arena. -/
def arenaByte (s : State) (a : Nat) : Byte := byteAt Config.params s.arena a

/-- `Count(A)` of a state's arena. -/
def jingles (s : State) : Nat := countOf Config.params s.arena

/-- Byte by byte, the empty image (R177): LE16(MAGIC), then zeros. -/
def EmptyArena (s : State) : Prop :=
  ∀ a < 1024, arenaByte s a =
    if a = 0 then Config.params.magic.setWidth 8
    else if a = 1 then (Config.params.magic >>> 8).setWidth 8 else 0#8

/-- `PERSIST_OFFSET`. -/
def imageBase : Nat := Config.params.persistOffset

/-- `a` is the store address of no image byte (R55). -/
def OutsideImage (a : Nat) : Prop := a < imageBase ∨ imageBase + 1024 ≤ a

/-- The status code of PLAY's start of channel `ch` (R227, R243, R244). -/
def startCode (ch : Channel) (s : State) (idx : Byte) : Nat :=
  if (s.seq ch).busy then 3
  else
    match notesOf Config.params s.arena ch idx.toNat with
    | none => 4
    | some (_, n) => if n = 0 then 4 else 0

/-- Only this channel's timer can become due in `s`, and nothing is scheduled. -/
def PlaysAlone (ch : Channel) (s : State) : Prop :=
  s.schedule = [] ∧ ∀ c, c ≠ timerOf ch → (s.timer c).armed = false

/-- `NoteComplete` on the expiry that is due in `u` (R125, R150, R151): the arm is consumed, `rem` is 0, the index
advances, and the next Note starts. -/
def CompletesNext (ch : Channel) (u : State) : Prop :=
  step u = startNote ch
    (setSeq ch { u.seq ch with rem := 0#32, index := (u.seq ch).index + 1#16 }
      (setTimer (timerOf ch) { u.timer (timerOf ch) with armed := false } { u with response := none }))

end Sys2Proof.Statements

open Sys2Proof.Statements

/-! ### Decoding -/

/-- R102 and R103: `op` alone selects the command, each operand is its field, unused fields and `b[7:1]` do not
matter, and every other `op` is illegal. -/
def Obligations.OpcodeSelectsTheCommand : Prop :=
  ∀ w : Cmd80,
    let op := w.extractLsb' 0 8
    let a := w.extractLsb' 8 8
    let ch := if w.getLsbD 16 then Channel.left else Channel.right
    let c := w.extractLsb' 24 16
    let d := w.extractLsb' 40 8
    let e := w.extractLsb' 48 16
    let f := w.extractLsb' 64 16
    (op = 0x01#8 → decodeCommand w = .instr (.play a)) ∧
    (op = 0x02#8 → decodeCommand w = .instr (.isbusy ch)) ∧
    (op = 0x03#8 → decodeCommand w = .instr .clear) ∧
    (op = 0x04#8 → decodeCommand w = .instr (.add a e f)) ∧
    (op = 0x05#8 → decodeCommand w = .instr (.delete a)) ∧
    (op = 0x06#8 → decodeCommand w = .instr (.setnote a ch c d e f)) ∧
    (op = 0x07#8 → decodeCommand w = .instr (.getnote a ch c)) ∧
    (op = 0x08#8 → decodeCommand w = .instr .count) ∧
    (op = 0x09#8 → decodeCommand w = .instr (.offset a)) ∧
    (op = 0x0A#8 → decodeCommand w = .instr (.notecount a ch)) ∧
    (op = 0x0B#8 → decodeCommand w = .instr .bytesfree) ∧
    (op = 0x0C#8 → decodeCommand w = .instr .isvalid) ∧
    (op = 0x0D#8 → decodeCommand w = .instr .load) ∧
    (op = 0x0E#8 → decodeCommand w = .instr .save) ∧
    (op = 0x0F#8 → decodeCommand w = .instr .pclear) ∧
    (op = 0x00#8 ∨ 0x10#8 ≤ op → decodeCommand w = .badCommand op)

/-- R88 and R89: every record is a Note, classified by the first matching row, and no bit of it is lost. -/
def Obligations.EveryRecordIsOneNote : Prop :=
  ∀ (ch : Channel) (n : Note40),
    let duty := n.extractLsb' 0 8
    let freq := n.extractLsb' 8 16
    let dur := n.extractLsb' 24 16
    (dur = 0#16 → decodeNote ch n = .noteSkip ch duty freq) ∧
    (dur ≠ 0#16 → duty = 0#8 → decodeNote ch n = .noteDelayDuty0 ch freq dur) ∧
    (dur ≠ 0#16 → duty ≠ 0#8 → freq = 0#16 → decodeNote ch n = .noteDelayFreq0 ch duty dur) ∧
    (dur ≠ 0#16 → duty ≠ 0#8 → freq ≠ 0#16 → decodeNote ch n = .notePulse ch duty freq dur) ∧
    (decodeNote ch n).wellFormed = true ∧ encode (decodeNote ch n) = .note40 n

/-- Decoding the word of a well-formed instruction gives it back, every operand at every value. -/
def Obligations.DecodeOfEncodeIsTheInstruction : Prop :=
  ∀ i : Instr, i.wellFormed = true → decodeWord i.fetcher (encode i) = .instr i

/-- Words written out by hand from R100, R102 and R88 (the spec's vectors V-A1, V-A2, V-D4 to V-D9, R183). -/
def Obligations.WrittenOutWordsDecode : Prop :=
  decodeCommand 0x00010002000000000004#80 = .instr (.add 0#8 2#16 1#16) ∧
  decodeCommand 0x006400FA800000000006#80 = .instr (.setnote 0#8 .right 0#16 128#8 250#16 100#16) ∧
  decodeCommand 0x000401F4FF0001010006#80 = .instr (.setnote 0#8 .left 1#16 255#8 500#16 4#16) ∧
  decodeCommand 0xFFFFFFFFFFFFFFFFFF08#80 = .instr .count ∧
  decodeCommand 0x00000000000000FE0002#80 = .instr (.isbusy .right) ∧
  decodeCommand 0x00000000000000FF0002#80 = .instr (.isbusy .left) ∧
  decodeCommand 0x00000000000000000B01#80 = .instr (.play 11#8) ∧
  decodeCommand 0x0000000000000000000D#80 = .instr .load ∧
  decodeCommand 0x00000000000000000010#80 = .badCommand 0x10#8 ∧
  decodeNote .right 0x006400FA80#40 = .notePulse .right 128#8 250#16 100#16

/-! ### A step runs the decoded instruction -/

/-- A presented command word is decoded and run in that step (R17, R100). The schedule and the `io` field are the
model's (log 1, log 3). -/
def Obligations.CommandStepIsExecOfTheDecodedWord : Prop :=
  ∀ (s : State) (w : Cmd80) (io : IoOutcome) (rest : List Event) (i : Instr),
    s.schedule = .cmd w io :: rest → decodeCommand w = .instr i →
    step s = exec i { s with schedule := rest, io := io }

/-- R145: `StartNote` runs the Note fetched at `index[ch]`; a Skip Note is passed and the start goes on from the state
it leaves; past the last Note the sequence ends. -/
def Obligations.NoteStartRunsTheFetchedNote : Prop :=
  ∀ (ch : Channel) (s : State),
    ((s.seq ch).index = (s.seq ch).seqCount →
      startNote ch s = .next
        (setTimer (timerOf ch) { s.timer (timerOf ch) with armed := false }
          (setSeq ch { s.seq ch with busy := false } s))) ∧
    ∀ n : Note40, (s.seq ch).index.toNat < (s.seq ch).seqCount.toNat → fetchNote ch s = some n →
      (noteDur n ≠ 0#16 → startNote ch s = exec (decodeNote ch n) s) ∧
      (noteDur n = 0#16 →
        ∃ t, exec (decodeNote ch n) s = .next t ∧ startNote ch s = startNote ch t)

/-- R146: the fetch reads the five bytes at `seqBase[ch] + 5*index[ch]` of the arena as it is now. -/
def Obligations.NoteFetchReadsTheArenaNow : Prop :=
  ∀ (ch : Channel) (s : State),
    let a := (s.seq ch).seqBase.toNat + 5 * (s.seq ch).index.toNat
    a + 5 ≤ 1024 →
    ∃ n, fetchNote ch s = some n ∧
      n.extractLsb' 0 8 = arenaByte s a ∧ n.extractLsb' 8 8 = arenaByte s (a + 1) ∧
      n.extractLsb' 16 8 = arenaByte s (a + 2) ∧ n.extractLsb' 24 8 = arenaByte s (a + 3) ∧
      n.extractLsb' 32 8 = arenaByte s (a + 4)

/-! ### Notes -/

/-- R147: a Skip Note only advances the index of its channel. -/
def Obligations.SkipNoteOnlyAdvancesTheIndex : Prop :=
  ∀ (ch : Channel) (duty : Byte) (freq : U16) (s : State),
    exec (.noteSkip ch duty freq) s =
      .next (setSeq ch { s.seq ch with index := (s.seq ch).index + 1#16 } s)

/-- R148: both delay rows hold the actuator inactive, latch 0, 0, 1 and arm the channel's timer for `dur * 1000` µs; the
transition on the expiry then completes the Note. -/
def Obligations.DelayNotesArmTheirDuration : Prop :=
  ∀ (ch : Channel) (duty : Byte) (freq dur : U16) (s : State),
    let t := setTimer (timerOf ch) { matchAt := s.tick + BitVec.ofNat 32 (dur.toNat * 1000), armed := true }
      (setSeq ch { s.seq ch with out := false, highUs := 0#32, lowUs := 0#32, rem := 1#32 } s)
    exec (.noteDelayDuty0 ch freq dur) s = .next t ∧ exec (.noteDelayFreq0 ch duty dur) s = .next t ∧
    nextState ch t = startNote ch (setSeq ch { t.seq ch with rem := 0#32, index := (t.seq ch).index + 1#16 } t)

/-- R149: a Pulsed Note latches its arithmetic, drives the actuator and arms the timer for `highUs`; the 32-bit
registers hold the natural-number results. -/
def Obligations.PulsedNoteLatchesItsArithmetic : Prop :=
  ∀ (ch : Channel) (duty : Byte) (freq dur : U16) (s : State),
    (Instr.notePulse ch duty freq dur).wellFormed = true →
    ∃ (h l n : U32),
      h.toNat = 1000000 / freq.toNat * duty.toNat / 512 ∧
      l.toNat = 1000000 / freq.toNat - h.toNat ∧
      n.toNat = dur.toNat * freq.toNat / 1000 ∧
      exec (.notePulse ch duty freq dur) s = .next
        (setTimer (timerOf ch) { matchAt := s.tick + h, armed := true }
          (setSeq ch { s.seq ch with out := true, highUs := h, lowUs := l, rem := n } s))

/-- R154 and log 12 (the model's choice): the one Pulsed term whose division R154 excludes is refused. -/
def Obligations.PulsedTermWithFrequencyZeroIsRefused : Prop :=
  ∀ (ch : Channel) (duty : Byte) (dur : U16) (s : State),
    exec (.notePulse ch duty 0#16 dur) s = .refused .pulseFrequencyZero

/-- R155: the table of bounds, the model's own condition `noteInBounds` and written out; the extremes where it says. -/
def Obligations.NoteArithmeticStaysInItsBounds : Prop :=
  (∀ (duty : Byte) (freq dur : U16), duty ≠ 0#8 → freq ≠ 0#16 → dur ≠ 0#16 →
    let pw := 1000000 / freq.toNat
    let high := pw * duty.toNat / 512
    15 ≤ pw ∧ pw ≤ 1000000 ∧ 15 ≤ pw * duty.toNat ∧ pw * duty.toNat ≤ 255000000 ∧
    high ≤ 498046 ∧ high ≤ pw ∧ 8 ≤ pw - high ∧ pw - high ≤ 1000000 ∧
    1 ≤ dur.toNat * freq.toNat ∧ dur.toNat * freq.toNat ≤ 4294836225 ∧
    dur.toNat * freq.toNat / 1000 ≤ 4294836 ∧
    1000 ≤ dur.toNat * 1000 ∧ dur.toNat * 1000 ≤ 65535000 ∧
    pulseWidth freq = pw ∧ highTime duty freq = high ∧ lowTime duty freq = pw - high ∧
    pulseCount freq dur = dur.toNat * freq.toNat / 1000 ∧ delayTime dur = dur.toNat * 1000 ∧
    noteInBounds duty freq dur = true) ∧
  pulseWidth 65535#16 = 15 ∧ pulseWidth 1#16 = 1000000 ∧ highTime 255#8 1#16 = 498046 ∧
  highTime 1#8 65535#16 = 0 ∧ lowTime 255#8 65535#16 = 8 ∧ pulseCount 65535#16 65535#16 = 4294836 ∧
  pulseCount 500#16 1#16 = 0

/-! ### The transition on an expiry -/

/-- R150 and R151: the four cases of `NextState`; `r` is `rem[ch]` after the saturating decrement. -/
def Obligations.ExpiryTransitionFollowsTheFourCases : Prop :=
  ∀ (ch : Channel) (s : State),
    let q := s.seq ch
    let arm (d : U32) (u : State) := setTimer (timerOf ch) { matchAt := s.tick + d, armed := true } u
    (q.out = true → nextState ch s = .next (arm q.lowUs (setSeq ch { q with out := false } s))) ∧
    (q.out = false → ∀ r : U32, r.toNat = q.rem.toNat - 1 →
      (1 < r.toNat → nextState ch s = .next (arm q.highUs (setSeq ch { q with out := true, rem := r } s))) ∧
      (r.toNat = 1 → nextState ch s = .next (arm (q.highUs + q.lowUs) (setSeq ch { q with rem := r } s))) ∧
      (r.toNat = 0 → nextState ch s =
        startNote ch (setSeq ch { q with rem := r, index := q.index + 1#16 } s)))

/-- R125: when `Expire(c)` is enabled; it consumes the arm and runs the handler bound to its channel; channel 2 has
none. -/
def Obligations.DueExpiryRunsItsHandler : Prop :=
  ∀ (s : State) (c : TimerId),
    (enabled (.expire c) s = true ↔ (s.timer c).armed = true ∧ s.tick = (s.timer c).matchAt) ∧
    let s' := setTimer c { s.timer c with armed := false } s
    (c = .c0 → expire c s = nextState .right s') ∧ (c = .c1 → expire c s = nextState .left s') ∧
    (c = .c2 → expire c s = .next s')

/-- R141: an expiry step writes its own channel's registers, output and timer, and nothing else of the machine. -/
def Obligations.ExpiryStepStaysOnItsChannel : Prop :=
  ∀ (s t : State) (ch : Channel) (rest : List Event),
    s.schedule = .expire (timerOf ch) :: rest → step s = .next t →
    OnlyChannel ch { s with schedule := rest, response := none } t

/-- R152 and R253: the two expiry handlers commute. -/
def Obligations.ExpiriesOfTheTwoChannelsCommute : Prop :=
  ∀ (ch d : Channel) (s s1 s2 : State), ch ≠ d →
    expire (timerOf ch) s = .next s1 → expire (timerOf d) s1 = .next s2 →
    ∃ u, expire (timerOf d) s = .next u ∧ expire (timerOf ch) u = .next s2

/-- R156: a Pulsed Note of count N started at `s.tick`, with nothing else going on, drives the actuator exactly on the
first `highUs` µs of its first `max 1 (N-1)` periods, and completes after `max 1 N` periods and `2N - 1`
expiries (2 for N at most 1). Times are read in states where nothing is due; nothing is scheduled, so time passes
(log 1). -/
def Obligations.PulsedNoteMakesItsWaveform : Prop :=
  ∀ (ch : Channel) (duty : Byte) (freq dur : U16) (s s1 : State),
    duty ≠ 0#8 → freq ≠ 0#16 → dur ≠ 0#16 → PlaysAlone ch s →
    exec (.notePulse ch duty freq dur) s = .next s1 →
    let pw := 1000000 / freq.toNat
    let high := pw * duty.toNat / 512
    let N := dur.toNat * freq.toNat / 1000
    let expiries := if 2 ≤ N then 2 * N - 1 else 2
    let steps := max 1 N * pw + (expiries - 1)
    (1 ≤ N → N * pw ≤ dur.toNat * 1000) ∧
    (∀ k ≤ steps, ∃ v, core.run k s1 = .next v ∧
      ((∀ c, due c v = false) →
        ((v.seq ch).out = true ↔
          (v.tick - s.tick).toNat / pw < max 1 (N - 1) ∧ (v.tick - s.tick).toNat % pw < high))) ∧
    ∃ u, core.run steps s1 = .next u ∧ u.tick = s.tick + BitVec.ofNat 32 (max 1 N * pw) ∧
      due (timerOf ch) u = true ∧ CompletesNext ch u

/-- R158: a Delay Note keeps the actuator inactive, takes one expiry and completes after `dur * 1000` µs. -/
def Obligations.DelayNoteLastsItsDuration : Prop :=
  ∀ (ch : Channel) (i : Instr) (duty : Byte) (freq dur : U16) (s s1 : State),
    dur ≠ 0#16 → i = .noteDelayDuty0 ch freq dur ∨ i = .noteDelayFreq0 ch duty dur →
    PlaysAlone ch s → exec i s = .next s1 →
    (∀ k ≤ dur.toNat * 1000, ∃ v, core.run k s1 = .next v ∧ (v.seq ch).out = false ∧
      v.tick = s.tick + BitVec.ofNat 32 k ∧ (due (timerOf ch) v = true ↔ k = dur.toNat * 1000)) ∧
    ∃ u, core.run (dur.toNat * 1000) s1 = .next u ∧ CompletesNext ch u

/-! ### Sequence start and PLAY -/

/-- R143 and R144: `SeqPlay` tests busy first, then the reference; a failing start changes nothing. -/
def Obligations.SequenceStartTestsBusyFirst : Prop :=
  ∀ (ch : Channel) (ref : Option (Nat × Nat)) (s : State),
    ((s.seq ch).busy = true → seqPlayStatus ch ref s = .alreadyPlaying ∧ seqPlay ch ref s = .next s) ∧
    ((s.seq ch).busy = false → (ref = none ∨ ∃ base, ref = some (base, 0)) →
      seqPlayStatus ch ref s = .emptySequence ∧ seqPlay ch ref s = .next s) ∧
    ((s.seq ch).busy = false → ∀ base n, ref = some (base, n) → n ≠ 0 →
      seqPlayStatus ch ref s = .ok ∧
      seqPlay ch ref s = startNote ch
        (setSeq ch
          { s.seq ch with
            seqBase := BitVec.ofNat 16 base
            seqCount := BitVec.ofNat 16 n
            index := 0#16
            busy := true } s))

/-- R225 to R228: PLAY answers in every state; each channel is started as if it were alone, or left as it was, and the
data carries both start codes. -/
def Obligations.PlayStartsEachChannelOnItsOwn : Prop :=
  ∀ (s : State) (idx : Byte),
    (jingles s ≤ idx.toNat → exec (.play idx) s = .next (responded 1#8 0#40 s)) ∧
    (idx.toNat < jingles s →
      ∃ t, exec (.play idx) s = .next t ∧
        t.response = some (BitVec.ofNat 40 (startCode .right s idx + 256 * startCode .left s idx) ++ 0#8) ∧
        t = { s with
          right := t.right, left := t.left, timer0 := t.timer0, timer1 := t.timer1, response := t.response } ∧
        ∀ ch,
          (startCode ch s idx ≠ 0 → t.seq ch = s.seq ch ∧ t.timer (timerOf ch) = s.timer (timerOf ch)) ∧
          (startCode ch s idx = 0 →
            ∃ base n u, notesOf Config.params s.arena ch idx.toNat = some (base, n) ∧
              seqPlay ch (some (base, n)) s = .next u ∧
              t.seq ch = u.seq ch ∧ t.timer (timerOf ch) = u.timer (timerOf ch)))

/-- R153: ISBUSY answers `busy[ch]` and writes nothing. -/
def Obligations.IsbusyAnswersTheFlag : Prop :=
  ∀ (ch : Channel) (s : State),
    exec (.isbusy ch) s = .next (responded 0#8 (if (s.seq ch).busy then 1#40 else 0#40) s)

/-! ### Store queries -/

/-- R180 and R190: COUNT and BYTESFREE answer the count and the register, and write nothing. -/
def Obligations.CountAndBytesfreeAnswer : Prop :=
  ∀ s : State,
    exec .count s = .next (responded 0#8 (BitVec.ofNat 40 (arenaByte s 4).toNat) s) ∧
    exec .bytesfree s = .next (responded 0#8 (BitVec.ofNat 40 s.bytesFree.toNat) s)

/-- R174: `IsValid` is the conjunction of V1 to V4, for any image and any parameters. -/
def Obligations.ValidityIsTheFourConditions : Prop :=
  ∀ (p : Params) (X : Memory),
    let n := (byteAt p X 4).toNat
    let off (i : Nat) := (byteAt p X (6 + 2 * i)).toNat + 256 * (byteAt p X (7 + 2 * i)).toNat
    let size (o : Nat) :=
      4 + 5 * (((byteAt p X o).toNat + 256 * (byteAt p X (o + 1)).toNat)
        + ((byteAt p X (o + 2)).toNat + 256 * (byteAt p X (o + 3)).toNat))
    isValid p X = true ↔
      (byteAt p X 0).toNat + 256 * (byteAt p X 1).toNat = p.magic.toNat ∧
      6 + 2 * n ≤ 1024 ∧
      (∀ i < n, 6 + 2 * n ≤ off i ∧ off i + 4 ≤ 1024 ∧ off i + size (off i) ≤ 1024) ∧
      (∀ i, i + 1 < n → off i + size (off i) ≤ off (i + 1))

/-- R191: ISVALID answers `IsValid(A)` and writes nothing; where the invariant holds the answer is 1. -/
def Obligations.IsvalidAnswersValidity : Prop :=
  ∀ s : State,
    exec .isvalid s =
      .next (responded 0#8 (if isValid Config.params s.arena then 1#40 else 0#40) s) ∧
    (Inv s → exec .isvalid s = .next (responded 0#8 1#40 s))

/-- R179: OFFSET, its two errors, and that the second is unreachable where the arena is valid. -/
def Obligations.OffsetAnswersTheTableEntry : Prop :=
  ∀ (s : State) (idx : Byte),
    let o := (arenaByte s (6 + 2 * idx.toNat)).toNat + 256 * (arenaByte s (7 + 2 * idx.toNat)).toNat
    let good := 6 + 2 * jingles s ≤ o ∧ o + 4 ≤ 1024
    (jingles s ≤ idx.toNat → jingleOffset Config.params s.arena idx.toNat = none ∧
      exec (.offset idx) s = .next (responded 1#8 0#40 s)) ∧
    (idx.toNat < jingles s → good →
      jingleOffset Config.params s.arena idx.toNat = some o ∧
      exec (.offset idx) s = .next (responded 0#8 (BitVec.ofNat 40 o) s)) ∧
    (idx.toNat < jingles s → ¬ good →
      jingleOffset Config.params s.arena idx.toNat = none ∧
      exec (.offset idx) s = .next (responded 5#8 0#40 s)) ∧
    (isValid Config.params s.arena = true → idx.toNat < jingles s → good)

/-- R181: the view of a channel's Notes, and R142's bound on it. -/
def Obligations.NotesViewOfABlob : Prop :=
  ∀ (p : Params) (X : Memory) (idx : Nat),
    (jingleOffset p X idx = none → ∀ ch, notesOf p X ch idx = none) ∧
    (∀ o, jingleOffset p X idx = some o →
      let r := (byteAt p X o).toNat + 256 * (byteAt p X (o + 1)).toNat
      let l := (byteAt p X (o + 2)).toNat + 256 * (byteAt p X (o + 3)).toNat
      (1024 < o + 4 + 5 * (r + l) → ∀ ch, notesOf p X ch idx = none) ∧
      (o + 4 + 5 * (r + l) ≤ 1024 →
        notesOf p X .right idx = some (o + 4, r) ∧ notesOf p X .left idx = some (o + 4 + 5 * r, l))) ∧
    (∀ ch base n, notesOf p X ch idx = some (base, n) → base + 5 * n ≤ 1024) ∧
    (isValid p X = true → idx < countOf p X → ∀ ch, notesOf p X ch idx ≠ none)

/-- R182: NOTECOUNT and its errors, the second of which no valid arena raises. -/
def Obligations.NotecountAnswersTheCount : Prop :=
  ∀ (s : State) (idx : Byte) (ch : Channel),
    (jingles s ≤ idx.toNat → exec (.notecount idx ch) s = .next (responded 1#8 0#40 s)) ∧
    (idx.toNat < jingles s → notesOf Config.params s.arena ch idx.toNat = none →
      exec (.notecount idx ch) s = .next (responded 5#8 0#40 s)) ∧
    (∀ base n, notesOf Config.params s.arena ch idx.toNat = some (base, n) →
      exec (.notecount idx ch) s = .next (responded 0#8 (BitVec.ofNat 40 n) s)) ∧
    (isValid Config.params s.arena = true → idx.toNat < jingles s → notesOf Config.params s.arena ch idx.toNat ≠ none)

/-- R183: GETNOTE, its errors in order, and the record as data: duty, frequency low and high, duration low and high. -/
def Obligations.GetnoteAnswersTheRecord : Prop :=
  ∀ (s : State) (idx : Byte) (ch : Channel) (k : U16),
    (jingles s ≤ idx.toNat → exec (.getnote idx ch k) s = .next (responded 1#8 0#40 s)) ∧
    (idx.toNat < jingles s → notesOf Config.params s.arena ch idx.toNat = none →
      exec (.getnote idx ch k) s = .next (responded 5#8 0#40 s)) ∧
    (∀ base n, notesOf Config.params s.arena ch idx.toNat = some (base, n) →
      (n ≤ k.toNat → exec (.getnote idx ch k) s = .next (responded 1#8 0#40 s)) ∧
      (k.toNat < n →
        let a := base + 5 * k.toNat
        exec (.getnote idx ch k) s = .next (responded 0#8
          (arenaByte s (a + 4) ++ arenaByte s (a + 3) ++ arenaByte s (a + 2) ++ arenaByte s (a + 1)
            ++ arenaByte s a) s)))

/-! ### Store mutations -/

/-- R178: CLEAR leaves the empty image and 1018 free bytes, and touches nothing else. -/
def Obligations.ClearLeavesTheEmptyImage : Prop :=
  ∀ s : State, ∃ t, exec .clear s = .next t ∧ EmptyArena t ∧ t.bytesFree = 1018#16 ∧
    t = responded 0#8 0#40 { s with arena := t.arena, bytesFree := t.bytesFree }

/-- R184: SETNOTE writes five bytes in place and nothing else, keeps validity, or answers its error. -/
def Obligations.SetnoteWritesFiveBytes : Prop :=
  ∀ (s : State) (idx : Byte) (ch : Channel) (k : U16) (duty : Byte) (freq dur : U16),
    (jingles s ≤ idx.toNat →
      exec (.setnote idx ch k duty freq dur) s = .next (responded 1#8 0#40 s)) ∧
    (idx.toNat < jingles s → notesOf Config.params s.arena ch idx.toNat = none →
      exec (.setnote idx ch k duty freq dur) s = .next (responded 5#8 0#40 s)) ∧
    (∀ base n, notesOf Config.params s.arena ch idx.toNat = some (base, n) →
      (n ≤ k.toNat → exec (.setnote idx ch k duty freq dur) s = .next (responded 1#8 0#40 s)) ∧
      (k.toNat < n →
        let a := base + 5 * k.toNat
        ∃ t, exec (.setnote idx ch k duty freq dur) s = .next t ∧
          t = responded 0#8 0#40 { s with arena := t.arena } ∧
          arenaByte t a = duty ∧
          arenaByte t (a + 1) = freq.setWidth 8 ∧ arenaByte t (a + 2) = (freq >>> 8).setWidth 8 ∧
          arenaByte t (a + 3) = dur.setWidth 8 ∧ arenaByte t (a + 4) = (dur >>> 8).setWidth 8 ∧
          (∀ x, x < a ∨ a + 5 ≤ x → arenaByte t x = arenaByte s x) ∧
          (isValid Config.params s.arena = true → isValid Config.params t.arena = true)))

/-- R186: ADD, its errors in order, and its effect: the blobs with the new one inserted, packed, and the bytes paid. -/
def Obligations.AddInsertsAZeroedJingle : Prop :=
  ∀ (s : State) (idx : Byte) (r l : U16),
    let need := 2 + 4 + 5 * (r.toNat + l.toNat)
    let J := blobsOf Config.params s.arena
    (isValid Config.params s.arena = false → exec (.add idx r l) s = .next (responded 5#8 0#40 s)) ∧
    (isValid Config.params s.arena = true →
      (jingles s < idx.toNat → exec (.add idx r l) s = .next (responded 1#8 0#40 s)) ∧
      (idx.toNat ≤ jingles s → jingles s = 255 ∨ s.bytesFree.toNat < need →
        exec (.add idx r l) s = .next (responded 2#8 0#40 s)) ∧
      (idx.toNat ≤ jingles s → jingles s ≠ 255 → need ≤ s.bytesFree.toNat →
        s.bytesFree.toNat + usedOf Config.params s.arena = 1024 →
        ∃ t, exec (.add idx r l) s = .next t ∧
          t = responded 0#8 0#40 { s with arena := t.arena, bytesFree := t.bytesFree } ∧
          t.bytesFree.toNat = s.bytesFree.toNat - need ∧
          jingles t = jingles s + 1 ∧
          blobsOf Config.params t.arena =
            J.take idx.toNat ++ [le16 r ++ le16 l ++ List.replicate (5 * (r.toNat + l.toNat)) 0#8]
              ++ J.drop idx.toNat ∧
          arenaByte t 2 = arenaByte s 2 ∧ arenaByte t 3 = arenaByte s 3 ∧ arenaByte t 5 = arenaByte s 5 ∧
          packed Config.params t.arena = true))

/-- R187: on a packed arena ADD moves the blobs below it by 2 bytes and those above by 2 bytes more than the new blob. -/
def Obligations.AddMovesTheOtherBlobs : Prop :=
  ∀ (s t : State) (idx : Byte) (r l : U16),
    let p := Config.params
    let X := s.arena
    let size := 4 + 5 * (r.toNat + l.toNat)
    packed p X = true → s.bytesFree.toNat + usedOf p X = 1024 →
    exec (.add idx r l) s = .next t → t.response = some (0#40 ++ 0#8) →
    (∀ i < idx.toNat, offsetOf p t.arena i = offsetOf p X i + 2 ∧
      ∀ k < sizeAt p X (offsetOf p X i), arenaByte t (offsetOf p X i + 2 + k) = arenaByte s (offsetOf p X i + k)) ∧
    offsetOf p t.arena idx.toNat =
      (if idx.toNat < jingles s then offsetOf p X idx.toNat else usedOf p X) + 2 ∧
    (∀ i, idx.toNat ≤ i → i < jingles s → offsetOf p t.arena (i + 1) = offsetOf p X i + 2 + size ∧
      ∀ k < sizeAt p X (offsetOf p X i),
        arenaByte t (offsetOf p X i + 2 + size + k) = arenaByte s (offsetOf p X i + k))

/-- R188: DELETE, its errors, and its effect: the blobs without the deleted one, packed, and the bytes returned. -/
def Obligations.DeleteRemovesTheJingle : Prop :=
  ∀ (s : State) (idx : Byte),
    let J := blobsOf Config.params s.arena
    (isValid Config.params s.arena = false → exec (.delete idx) s = .next (responded 5#8 0#40 s)) ∧
    (isValid Config.params s.arena = true →
      (jingles s ≤ idx.toNat → exec (.delete idx) s = .next (responded 1#8 0#40 s)) ∧
      (idx.toNat < jingles s → s.bytesFree.toNat + usedOf Config.params s.arena = 1024 →
        ∃ t, exec (.delete idx) s = .next t ∧
          t = responded 0#8 0#40 { s with arena := t.arena, bytesFree := t.bytesFree } ∧
          t.bytesFree.toNat = s.bytesFree.toNat + (2 + (J.getD idx.toNat []).length) ∧
          jingles t + 1 = jingles s ∧
          blobsOf Config.params t.arena = J.take idx.toNat ++ J.drop (idx.toNat + 1) ∧
          arenaByte t 2 = arenaByte s 2 ∧ arenaByte t 3 = arenaByte s 3 ∧ arenaByte t 5 = arenaByte s 5 ∧
          packed Config.params t.arena = true))

/-- R189: ADD then DELETE of the same index restores the free count and the blobs, and a packed arena byte for byte. -/
def Obligations.AddThenDeleteRestores : Prop :=
  ∀ (s t : State) (idx : Byte) (r l : U16), Inv s →
    exec (.add idx r l) s = .next t → t.response = some (0#40 ++ 0#8) →
    ∃ u, exec (.delete idx) t = .next u ∧ u.response = some (0#40 ++ 0#8) ∧
      u.bytesFree = s.bytesFree ∧
      blobsOf Config.params u.arena = blobsOf Config.params s.arena ∧
      (packed Config.params s.arena = true → u.arena = s.arena)

/-! ### Persistence -/

/-- R214: LOAD, its errors in order, each of which re-initialises the arena, and its effect. -/
def Obligations.LoadCopiesAValidImage : Prop :=
  ∀ s : State,
    let X := storedImage Config.params s
    (∀ k < 1024, byteAt Config.params X k = persistByte s (imageBase + k)) ∧
    (s.io = .fail → ∃ t, exec .load s = .next t ∧ EmptyArena t ∧
      t = responded 6#8 0#40 { s with arena := t.arena, bytesFree := 1018#16 }) ∧
    (s.io = .ok → isValid Config.params X = false → ∃ t, exec .load s = .next t ∧ EmptyArena t ∧
      t = responded 5#8 0#40 { s with arena := t.arena, bytesFree := 1018#16 }) ∧
    (s.io = .ok → isValid Config.params X = true → ∃ t, exec .load s = .next t ∧
      t = responded 0#8 0#40 { s with arena := t.arena, bytesFree := t.bytesFree } ∧
      (∀ k < 1024, arenaByte t k = persistByte s (imageBase + k)) ∧
      t.bytesFree.toNat = 1024 - usedOf Config.params X)

/-- R212: SAVE copies all 1024 bytes; on failure only the image region is touched; the block's state stays. -/
def Obligations.SaveCopiesTheArenaOut : Prop :=
  ∀ s : State,
    (s.io = .ok → ∃ t, exec .save s = .next t ∧ t = responded 0#8 0#40 { s with persist := t.persist } ∧
      (∀ k < 1024, persistByte t (imageBase + k) = arenaByte s k) ∧
      (∀ a, OutsideImage a → persistByte t a = persistByte s a)) ∧
    (s.io = .fail → ∃ t, exec .save s = .next t ∧
      t = responded 6#8 0#40 { s with persist := t.persist, freeCount := t.freeCount } ∧
      (∀ a, OutsideImage a → persistByte t a = persistByte s a))

/-- R216: PCLEAR zeroes image bytes 0 to 5 and touches nothing else of the store; the arena stays; because MAGIC != 0, a
LOAD that reads what it left finds no valid image. -/
def Obligations.PclearZeroesTheStoredHeader : Prop :=
  ∀ s : State,
    (s.io = .ok → ∃ t, exec .pclear s = .next t ∧ t = responded 0#8 0#40 { s with persist := t.persist } ∧
      (∀ k < 6, persistByte t (imageBase + k) = 0#8) ∧
      (∀ a, a < imageBase ∨ imageBase + 6 ≤ a → persistByte t a = persistByte s a) ∧
      ∀ u, u.io = .ok → (∀ k < 1024, persistByte u (imageBase + k) = persistByte t (imageBase + k)) →
        ∃ v, exec .load u = .next v ∧ v.response = some (0#40 ++ 5#8) ∧ EmptyArena v ∧ jingles v = 0) ∧
    (s.io = .fail → ∃ t, exec .pclear s = .next t ∧
      t = responded 6#8 0#40 { s with persist := t.persist, freeCount := t.freeCount } ∧
      (∀ a, a < imageBase ∨ imageBase + 6 ≤ a → persistByte t a = persistByte s a))

/-- R217: LOAD after SAVE, the image bytes of the store being as SAVE left them, restores the arena byte for byte. -/
def Obligations.SaveThenLoadRestoresTheArena : Prop :=
  ∀ s t u : State, Inv s → s.io = .ok → exec .save s = .next t → u.io = .ok →
    (∀ k < 1024, persistByte u (imageBase + k) = persistByte t (imageBase + k)) →
    ∃ v, exec .load u = .next v ∧ v.response = some (0#40 ++ 0#8) ∧
      v.arena = s.arena ∧ v.bytesFree = s.bytesFree

/-- R218: after every LOAD, successful or not, the arena is valid and the free count is what it leaves; it is a copy of the
stored image or the empty image. -/
def Obligations.LoadAlwaysLeavesAValidArena : Prop :=
  ∀ s : State, ∃ t, exec .load s = .next t ∧ isValid Config.params t.arena = true ∧
    t.bytesFree.toNat + usedOf Config.params t.arena = 1024 ∧
    (EmptyArena t ∨ ∀ k < 1024, arenaByte t k = persistByte s (imageBase + k))

/-- R38 and R286 as an event of the model (log 9): an outside agent writes one byte of the store, and an address
that does not exist faults. -/
def Obligations.OutsideWriteChangesOneStoreByte : Prop :=
  ∀ (s : State) (a : Nat) (b : Byte) (rest : List Event), s.schedule = .outsideWrite a b :: rest →
    (a < Config.params.persistCap → ∃ t, step s = .next t ∧
      t = { s with schedule := rest, response := none, persist := t.persist } ∧
      persistByte t a = b ∧ ∀ x, x ≠ a → persistByte t x = persistByte s x) ∧
    (Config.params.persistCap ≤ a → step s = .fault (.persistAddress a))

/-! ### Time, timers, actuators -/

/-- R121: when `Tick` is enabled, and what it does. The idle response port is the model's (log 4). -/
def Obligations.TickAdvancesOnlyTheCounter : Prop :=
  ∀ s : State,
    (enabled .tick s = true ↔ ∀ c, ¬((s.timer c).armed = true ∧ s.tick = (s.timer c).matchAt)) ∧
    (∀ rest, s.schedule = .tick :: rest → enabled .tick s = true →
      step s = .next { s with schedule := rest, tick := s.tick + 1#32, response := none }) ∧
    (s.tick = 0xFFFFFFFF#32 → s.tick + 1#32 = 0#32)

/-- R122, R124, R130, R131: the timer and actuator primitives write only their own registers. -/
def Obligations.PrimitivesWriteOnlyTheirRegister : Prop :=
  ∀ (s : State) (c : TimerId) (v : U32) (ch : Channel) (b : Bool),
    armAt c v s = setTimer c { matchAt := v, armed := true } s ∧
    disarm c s = setTimer c { matchAt := (s.timer c).matchAt, armed := false } s ∧
    setActive ch b s = setSeq ch { s.seq ch with out := b } s ∧
    getActive ch (setActive ch b s) = b

/-- R123: a relative arm is due after exactly `delta` ticks, whatever `tick` is, and not before. -/
def Obligations.RelativeArmIsDueAfterDelta : Prop :=
  ∀ (s : State) (c : TimerId) (delta k : Nat), delta < 2 ^ 32 → k ≤ delta →
    armRel c delta s = setTimer c { matchAt := s.tick + BitVec.ofNat 32 delta, armed := true } s ∧
    (due c { armRel c delta s with tick := s.tick + BitVec.ofNat 32 k } = true ↔ k = delta)

/-- R57 with log 1 and log 2 (the model's choices): a scheduled step is taken if it is enabled and refused if not; with
nothing scheduled the block takes a due expiry, any one of them, else time passes. An expiry clears the response port
(log 4). -/
def Obligations.StepTakesTheScheduledEvent : Prop :=
  ∀ s : State,
    (∀ e rest, s.schedule = e :: rest → enabled e s = true →
      step s = eventEffect e { s with schedule := rest }) ∧
    (∀ e rest, s.schedule = e :: rest → enabled e s = false → step s = .refused (.notEnabled e)) ∧
    (s.schedule = [] → (∀ c, due c s = false) → step s = eventEffect .tick s) ∧
    (s.schedule = [] → ∀ c, due c s = true → ∃ d n, due d s = true ∧
      ((∀ e, due e s = true → e = c) → n = s.freeCount) ∧
      step s = eventEffect (.expire d) { s with freeCount := n }) ∧
    ∀ c, eventEffect (.expire c) s = expire c { s with response := none }

/-- R121 and R251: no step lets time pass a due expiry; only Tick moves the counter, by one, and only Reset sets it. -/
def Obligations.TimeNeverPassesADueExpiry : Prop :=
  ∀ s t : State, step s = .next t → t.tick ≠ s.tick →
    takenEvent s = .reset ∨
      (takenEvent s = .tick ∧ (∀ c, due c s = false) ∧ t.tick = s.tick + 1#32)

/-! ### Reset and errors -/

/-- R270: the Reset step, enabled in every state. -/
def Obligations.ResetStepSetsEveryRegister : Prop :=
  ∀ s : State, enabled .reset s = true ∧
    ∃ t, eventEffect .reset s = .next t ∧ EmptyArena t ∧ t.bytesFree = 1018#16 ∧
      (∀ ch, t.seq ch =
        { seqBase := 0#16, seqCount := 0#16, index := 0#16, busy := false, out := false,
          highUs := 0#32, lowUs := 0#32, rem := 0#32 }) ∧
      t.tick = 0#32 ∧ (∀ c, t.timer c = { matchAt := 0#32, armed := false }) ∧ t.persist = s.persist

/-- R247: an undefined `op` answers BadCommand and changes no state. -/
def Obligations.UndefinedOpcodeAnswersBadCommand : Prop :=
  ∀ (s : State) (w : Cmd80) (io : IoOutcome),
    (w.extractLsb' 0 8 = 0x00#8 ∨ 0x10#8 ≤ w.extractLsb' 0 8 ↔
      decodeCommand w = .badCommand (w.extractLsb' 0 8)) ∧
    (w.extractLsb' 0 8 = 0x00#8 ∨ 0x10#8 ≤ w.extractLsb' 0 8 →
      eventEffect (.cmd w io) s = .next (responded 7#8 0#40 s))

/-- R249: a command that answers a non-zero status has changed nothing, but for LOAD's recovery and for the image
bytes of the store after a failed SAVE or PCLEAR. -/
def Obligations.ErrorsArePrecise : Prop :=
  ∀ (s t : State) (w : Cmd80) (io : IoOutcome) (rest : List Event) (r : Resp48),
    s.schedule = .cmd w io :: rest → step s = .next t → t.response = some r → r.extractLsb' 0 8 ≠ 0#8 →
    let op := w.extractLsb' 0 8
    r.extractLsb' 8 40 = 0#40 ∧
    (op ≠ 0x0D#8 → op ≠ 0x0E#8 → op ≠ 0x0F#8 →
      t = { s with schedule := rest, io := t.io, response := some r }) ∧
    (op = 0x0D#8 → EmptyArena t ∧
      t = { s with schedule := rest, io := io, response := some r, arena := t.arena, bytesFree := 1018#16 }) ∧
    (op = 0x0E#8 ∨ op = 0x0F#8 → (∀ a, OutsideImage a → persistByte t a = persistByte s a) ∧
      t = { s with
        schedule := rest, io := io, response := some r, persist := t.persist, freeCount := t.freeCount })

/-- R240 and R105: a response appears exactly in a command step (log 4), and its status is one of the codes 0 to 7. -/
def Obligations.ResponsesCarryAStatusCode : Prop :=
  ∀ s t : State, step s = .next t →
    (t.response.isSome = true ↔ ∃ w io, takenEvent s = .cmd w io) ∧
    ∀ r, t.response = some r → (r.extractLsb' 0 8).toNat ≤ 7

/-! ### Whole-machine rules -/

/-- R60 and R283: a channel becomes busy only by PLAY, and stops being busy only by its own expiry or by Reset. -/
def Obligations.BusyRisesByPlayAndFallsByExpiry : Prop :=
  ∀ (s t : State) (ch : Channel), step s = .next t →
    ((s.seq ch).busy = false → (t.seq ch).busy = true →
      ∃ w io, takenEvent s = .cmd w io ∧ w.extractLsb' 0 8 = 0x01#8) ∧
    ((s.seq ch).busy = true → (t.seq ch).busy = false →
      takenEvent s = .expire (timerOf ch) ∨ takenEvent s = .reset)

/-- R21 and R170: only CLEAR, ADD, DELETE, SETNOTE, LOAD and Reset write the arena or `bytesFree`. -/
def Obligations.OnlyStoreCommandsWriteTheArena : Prop :=
  ∀ s t : State, step s = .next t → t.arena ≠ s.arena ∨ t.bytesFree ≠ s.bytesFree →
    takenEvent s = .reset ∨
      ∃ w io, takenEvent s = .cmd w io ∧
        w.extractLsb' 0 8 ∈ [0x03#8, 0x04#8, 0x05#8, 0x06#8, 0x0D#8]

/-- R38: of the block's steps only SAVE and PCLEAR write the store, and only inside the image region. -/
def Obligations.BlockWritesOnlyTheImageRegion : Prop :=
  ∀ s t : State, step s = .next t → (∀ a b, takenEvent s ≠ .outsideWrite a b) →
    (∀ a, OutsideImage a → persistByte t a = persistByte s a) ∧
    (t.persist ≠ s.persist →
      ∃ w io, takenEvent s = .cmd w io ∧ (w.extractLsb' 0 8 = 0x0E#8 ∨ w.extractLsb' 0 8 = 0x0F#8))

/-- R27 and R62: no command but PLAY writes a sequencer, an output or a timer, and no command moves time. -/
def Obligations.CommandsButPlayLeaveTheSequencers : Prop :=
  ∀ (s t : State) (w : Cmd80) (io : IoOutcome), takenEvent s = .cmd w io → step s = .next t →
    t.tick = s.tick ∧ t.timer2 = s.timer2 ∧
    (w.extractLsb' 0 8 ≠ 0x01#8 →
      t.right = s.right ∧ t.left = s.left ∧ t.timer0 = s.timer0 ∧ t.timer1 = s.timer1)

/-- R113 and R261: `print` expands to queries, each of which completes in every state and changes nothing but the response
port. -/
def Obligations.PrintChangesNoState : Prop :=
  ∀ (counts : List (Nat × Nat)) (i : Instr) (s : State), i ∈ printAll counts →
    ∃ r, exec i s = .next { s with response := some r }

/-! ### The invariant -/

/-- R37: the reset state satisfies the invariant; the empty image is valid, with count 0 and 6 bytes used. -/
def Obligations.ResetStateMeetsTheInvariant : Prop :=
  Inv State.reset ∧ jingles State.reset = 0 ∧ usedOf Config.params State.reset.arena = 6 ∧
    (∀ ch, (State.reset.seq ch).busy = false ∧ (State.reset.seq ch).out = false) ∧
    ∀ c, (State.reset.timer c).armed = false

/-- R32 (with I7 strengthened, log 17): every step from a state that meets the invariant leaves one that does. -/
def Obligations.EveryStepKeepsTheInvariant : Prop :=
  ∀ s t : State, Inv s → step s = .next t → Inv t

/-- R57, R63, R255: from a state that meets the invariant every enabled step completes; nothing faults. -/
def Obligations.EnabledStepsCompleteUnderTheInvariant : Prop :=
  ∀ s : State, Inv s → Ready s → ∃ t, step s = .next t

/-- R159: with nothing scheduled (log 1), at most four expiries run before time goes on, two on each channel. -/
def Obligations.TimeGoesOnWithinFourExpiries : Prop :=
  ∀ s : State, Inv s → s.schedule = [] →
    ∃ k ≤ 4, ∃ t, core.run k s = .next t ∧ t.tick = s.tick ∧ step t = .next
      { t with tick := s.tick + 1#32, response := none }

/-- R291: in a quiescent state no timer is armed, both outputs are inactive, and no expiry is enabled. -/
def Obligations.QuiescentBlockIsSilent : Prop :=
  ∀ s : State, Inv s → quiescent s = true →
    (∀ c, (s.timer c).armed = false ∧ enabled (.expire c) s = false) ∧
    (∀ ch, (s.seq ch).out = false) ∧ enabled .tick s = true

/-! ### Both channels -/

/-- R156 and R152: the waveform of a Pulsed Note, whatever the other channel and timer channel 2 do meanwhile. `v` is any state
reached with nothing scheduled (so only expiries and Ticks happen, log 1) while the Note's `max 1 N` periods are not over: if
its channel is not due there, the actuator is active exactly on the first `highUs` µs of the first `max 1 (N-1)` periods; and
the Tick that ends the last period makes its channel due for the expiry that completes the Note. -/
def Obligations.WaveformBesideTheOtherChannel : Prop :=
  ∀ (ch : Channel) (duty : Byte) (freq dur : U16) (s s1 v : State) (k : Nat),
    duty ≠ 0#8 → freq ≠ 0#16 → dur ≠ 0#16 → s.schedule = [] →
    exec (.notePulse ch duty freq dur) s = .next s1 →
    let pw := 1000000 / freq.toNat
    let high := pw * duty.toNat / 512
    let N := dur.toNat * freq.toNat / 1000
    let elapsed (u : State) := (u.tick - s.tick).toNat
    (∀ j ≤ k, ∃ u, core.run j s1 = .next u ∧ elapsed u < max 1 N * pw) →
    core.run k s1 = .next v →
    (due (timerOf ch) v = false →
      ((v.seq ch).out = true ↔ elapsed v / pw < max 1 (N - 1) ∧ elapsed v % pw < high)) ∧
    ∀ u, step v = .next u → elapsed u = max 1 N * pw →
      due (timerOf ch) u = true ∧
      expire (timerOf ch) u = startNote ch
        (setSeq ch { u.seq ch with rem := 0#32, index := (u.seq ch).index + 1#16 }
          (setTimer (timerOf ch) { u.timer (timerOf ch) with armed := false } u))
end

