-- ==== Sys2Proof/Laws/Memory.lean ====
section
/-! SUPPORT. Memory laws: a read after a write gives the byte written and every other byte as before, and a write keeps
the canonical form. -/

namespace Sys2Proof.Machine

theorem Memory.get?_append (m n : Memory) (a : Nat) :
    Memory.get? (m ++ n) a = (Memory.get? m a).or (Memory.get? n a) := by
  induction m with
  | nil => simp [Memory.get?]
  | cons c m ih =>
    obtain ⟨x, b⟩ := c
    by_cases h : x = a <;> simp [Memory.get?, h, ih]

theorem Memory.get?_filter (f : Nat → Bool) (m : Memory) (a : Nat) :
    Memory.get? (m.filter (fun c => f c.1)) a = if f a then Memory.get? m a else none := by
  induction m with
  | nil => simp [Memory.get?]
  | cons c m ih =>
    obtain ⟨x, b⟩ := c
    by_cases hx : f x <;> by_cases h : x = a <;> simp_all [Memory.get?]

/-- The cells of a run list exactly the bytes of the run that differ from what their address reads as unlisted. -/
theorem Memory.get?_cellsFrom (u : Nat → Option Byte) (o : Nat) (bs : List Byte) (a : Nat) :
    Memory.get? (Memory.cellsFrom u o bs) a =
      if o ≤ a ∧ a < o + bs.length then
        (if u a = bs[a - o]? then none else bs[a - o]?) else none := by
  induction bs generalizing o with
  | nil => simp [Memory.cellsFrom, Memory.get?]
  | cons b bs ih =>
    rcases Nat.lt_trichotomy a o with h | h | h
    · have h1 : ¬ o ≤ a := by omega
      have h2 : ¬ o + 1 ≤ a := by omega
      have h3 : ¬ o = a := by omega
      by_cases hb : u o = some b <;>
        simp only [Memory.cellsFrom, Memory.get?, hb, ih, h1, h2, h3, false_and, if_false, if_true]
    · subst h
      by_cases hb : u a = some b <;> simp [Memory.cellsFrom, Memory.get?, hb, ih]
    · have h2 : a - o = (a - (o + 1)) + 1 := by omega
      have h3 : (o + 1 ≤ a ∧ a < o + 1 + bs.length) ↔ (o ≤ a ∧ a < o + (bs.length + 1)) := by omega
      have h4 : ¬ o = a := by omega
      by_cases hb : u o = some b <;>
        simp only [Memory.cellsFrom, Memory.get?, hb, ih, h2, h3, h4, if_false, if_true,
          List.length_cons, List.getElem?_cons_succ]

theorem Memory.read_eq (u : Nat → Option Byte) (m : Memory) (a : Nat) :
    Memory.read u m a = (Memory.get? m a).or (u a) := by
  unfold Memory.read
  cases Memory.get? m a <;> rfl

/-- Everything a range write does to reads: the range holds the bytes written, every other address reads as before. -/
theorem Memory.read_writeRange (u : Nat → Option Byte) (m : Memory) (o : Nat) (bs : List Byte) (a : Nat) :
    Memory.read u (Memory.writeRange u m o bs) a =
      if o ≤ a ∧ a < o + bs.length then bs[a - o]? else Memory.read u m a := by
  rw [Memory.read_eq, Memory.read_eq, Memory.writeRange, Memory.get?_append, Memory.get?_append,
    Memory.get?_filter (fun x => decide (x < o)), Memory.get?_filter (fun x => decide (o + bs.length ≤ x)),
    Memory.get?_cellsFrom]
  by_cases h1 : o ≤ a <;> by_cases h2 : a < o + bs.length
  · have h4 : ¬ o + bs.length ≤ a := by omega
    have h5 : a - o < bs.length := by omega
    by_cases hu : u a = some bs[a - o] <;>
      simp [Nat.not_lt.2 h1, h1, h2, h4, hu, List.getElem?_eq_getElem h5]
  · simp [Nat.not_lt.2 h1, h2, Nat.le_of_not_lt h2]
  · have h4 : ¬ o + bs.length ≤ a := by omega
    simp [Nat.lt_of_not_le h1, h1, h4]
  · omega

/-- A memory built from a run alone reads as the run, and elsewhere as unlisted. -/
theorem Memory.read_cellsFrom (u : Nat → Option Byte) (o : Nat) (bs : List Byte) (a : Nat) :
    Memory.read u (Memory.cellsFrom u o bs) a =
      if o ≤ a ∧ a < o + bs.length then bs[a - o]? else u a := by
  have h := Memory.read_writeRange u [] o bs a
  simpa [Memory.writeRange, Memory.read_eq, Memory.get?] using h

/-! ### Canonical form -/

theorem Memory.rising_iff (m : Memory) :
    Memory.rising m = true ↔ m.Pairwise (fun c d => c.1 < d.1) := by
  induction m with
  | nil => simp [Memory.rising]
  | cons c m ih =>
    cases m with
    | nil => simp [Memory.rising]
    | cons d m =>
      simp only [Memory.rising, Bool.and_eq_true, decide_eq_true_eq, ih, List.pairwise_cons]
      constructor
      · rintro ⟨h, h1, h2⟩
        refine ⟨?_, h1, h2⟩
        intro e he
        rcases List.mem_cons.1 he with rfl | he
        · exact h
        · exact Nat.lt_trans h (h1 e he)
      · rintro ⟨h, h1, h2⟩
        exact ⟨h d (by simp), h1, h2⟩

theorem Memory.wf_iff (size : Nat) (u : Nat → Option Byte) (m : Memory) :
    Memory.wf size u m = true ↔
      m.Pairwise (fun c d => c.1 < d.1) ∧ ∀ c ∈ m, c.1 < size ∧ u c.1 ≠ some c.2 := by
  simp [Memory.wf, Memory.rising_iff]

theorem Memory.wf_nil (size : Nat) (u : Nat → Option Byte) : Memory.wf size u [] = true := rfl

theorem Memory.mem_cellsFrom {u : Nat → Option Byte} {o : Nat} {bs : List Byte} {c : Host.Cell}
    (h : c ∈ Memory.cellsFrom u o bs) : o ≤ c.1 ∧ c.1 < o + bs.length ∧ u c.1 ≠ some c.2 := by
  induction bs generalizing o with
  | nil => simp [Memory.cellsFrom] at h
  | cons b bs ih =>
    simp only [Memory.cellsFrom] at h
    split at h
    · have := ih h
      simp only [List.length_cons]
      exact ⟨by omega, by omega, this.2.2⟩
    · rename_i hb
      rcases List.mem_cons.1 h with rfl | h
      · exact ⟨Nat.le_refl _, by simp, hb⟩
      · have := ih h
        simp only [List.length_cons]
        exact ⟨by omega, by omega, this.2.2⟩

theorem Memory.cellsFrom_rising (u : Nat → Option Byte) (o : Nat) (bs : List Byte) :
    (Memory.cellsFrom u o bs).Pairwise (fun c d => c.1 < d.1) := by
  induction bs generalizing o with
  | nil => simp [Memory.cellsFrom]
  | cons b bs ih =>
    simp only [Memory.cellsFrom]
    split
    · exact ih _
    · refine List.pairwise_cons.2 ⟨fun c hc => ?_, ih _⟩
      have := Memory.mem_cellsFrom hc
      show o < c.1
      omega

/-- A run of bytes that exist, written alone, is in canonical form. -/
theorem Memory.cellsFrom_wf {size : Nat} (u : Nat → Option Byte) {o : Nat} {bs : List Byte}
    (h : o + bs.length ≤ size) : Memory.wf size u (Memory.cellsFrom u o bs) = true := by
  refine (Memory.wf_iff ..).2 ⟨Memory.cellsFrom_rising .., fun c hc => ?_⟩
  have := Memory.mem_cellsFrom hc
  exact ⟨by omega, this.2.2⟩

/-- Every memory operation writes through `writeRange`, and it keeps the canonical form. -/
theorem Memory.writeRange_wf {size : Nat} {u : Nat → Option Byte} {m : Memory} {o : Nat} {bs : List Byte}
    (hm : Memory.wf size u m = true) (h : o + bs.length ≤ size) :
    Memory.wf size u (Memory.writeRange u m o bs) = true := by
  obtain ⟨hr, hc⟩ := (Memory.wf_iff ..).1 hm
  refine (Memory.wf_iff ..).2 ⟨?_, ?_⟩
  · refine List.pairwise_append.2 ⟨List.pairwise_append.2
      ⟨hr.sublist List.filter_sublist, Memory.cellsFrom_rising .., ?_⟩,
      hr.sublist List.filter_sublist, ?_⟩
    · intro c h1 d h2
      have := Memory.mem_cellsFrom h2
      simp at h1
      omega
    · intro c h1 d h2
      simp at h2
      rcases List.mem_append.1 h1 with h1 | h1
      · simp at h1
        omega
      · have := Memory.mem_cellsFrom h1
        omega
  · intro c h1
    simp only [Memory.writeRange, List.mem_append] at h1
    rcases h1 with (h1 | h1) | h1
    · exact hc c (List.mem_filter.1 h1).1
    · have := Memory.mem_cellsFrom h1
      exact ⟨by omega, this.2.2⟩
    · exact hc c (List.mem_filter.1 h1).1

/-- In canonical form a read decides whether a cell is listed. -/
theorem Memory.get?_of_wf {size : Nat} {u : Nat → Option Byte} {m : Memory}
    (h : Memory.wf size u m = true) {a : Nat} {b : Byte} (hg : Memory.get? m a = some b) :
    a < size ∧ u a ≠ some b := by
  have hmem : (a, b) ∈ m := by
    clear h
    induction m with
    | nil => simp [Memory.get?] at hg
    | cons c m ih =>
      obtain ⟨x, y⟩ := c
      simp only [Memory.get?] at hg
      split at hg
      · simp_all
      · exact List.mem_cons_of_mem _ (ih hg)
  exact ((Memory.wf_iff ..).1 h).2 (a, b) hmem

theorem Memory.get?_eq_none_of_lt {m : Memory} {a : Nat} (h : ∀ c ∈ m, a < c.1) :
    Memory.get? m a = none := by
  induction m with
  | nil => rfl
  | cons c m ih =>
    obtain ⟨x, b⟩ := c
    have h1 : ¬ x = a := by have := h (x, b) (by simp); simp at this; omega
    simp [Memory.get?, h1, ih (fun d hd => h d (List.mem_cons_of_mem _ hd))]

/-- Equal reads are equal lists: the canonical form is one form. -/
theorem Memory.ext_of_wf {size : Nat} {u : Nat → Option Byte} {m n : Memory}
    (hm : Memory.wf size u m = true) (hn : Memory.wf size u n = true)
    (h : ∀ a, Memory.read u m a = Memory.read u n a) : m = n := by
  have hg : ∀ a, Memory.get? m a = Memory.get? n a := by
    intro a
    have ha := h a
    rw [Memory.read_eq, Memory.read_eq] at ha
    cases h1 : Memory.get? m a <;> cases h2 : Memory.get? n a <;> simp [h1, h2] at ha ⊢
    · exact absurd ha (Memory.get?_of_wf hn h2).2
    · exact absurd ha.symm (Memory.get?_of_wf hm h1).2
    · exact ha
  have hm' := ((Memory.wf_iff ..).1 hm).1
  have hn' := ((Memory.wf_iff ..).1 hn).1
  clear h hm hn
  induction m generalizing n with
  | nil =>
    cases n with
    | nil => rfl
    | cons c n => have := hg c.1; simp [Memory.get?] at this
  | cons c m ih =>
    cases n with
    | nil => have := hg c.1; simp [Memory.get?] at this
    | cons d n =>
      obtain ⟨x, b⟩ := c
      obtain ⟨y, e⟩ := d
      obtain ⟨hx, hmt⟩ := List.pairwise_cons.1 hm'
      obtain ⟨hy, hnt⟩ := List.pairwise_cons.1 hn'
      have hxy : x = y := by
        rcases Nat.lt_trichotomy x y with hlt | heq | hgt
        · have h1 := hg x
          rw [Memory.get?_eq_none_of_lt (m := (y, e) :: n)] at h1
          · simp [Memory.get?] at h1
          · intro c hc
            rcases List.mem_cons.1 hc with rfl | hc
            · exact hlt
            · exact Nat.lt_trans hlt (hy c hc)
        · exact heq
        · have h1 := hg y
          rw [Memory.get?_eq_none_of_lt (m := (x, b) :: m)] at h1
          · simp [Memory.get?] at h1
          · intro c hc
            rcases List.mem_cons.1 hc with rfl | hc
            · exact hgt
            · exact Nat.lt_trans hgt (hx c hc)
      subst hxy
      have hbe : b = e := by have := hg x; simpa [Memory.get?] using this
      subst hbe
      congr 1
      refine ih ?_ hmt hnt
      intro a
      have h1 := hg a
      by_cases hax : x = a
      · subst hax
        rw [Memory.get?_eq_none_of_lt hx, Memory.get?_eq_none_of_lt hy]
      · simpa [Memory.get?, hax] using h1

end Sys2Proof.Machine
end

