-- ==== Sys2Proof/Laws/Image.lean ====
section
/-! SUPPORT. Arena images: reads after writes, the magic test, and what `Pack` builds (R176): a valid image with the
given blobs, its offsets and its used count. -/

namespace Sys2Proof.Machine

variable (p : Params)

/-! ### Byte reads -/

theorem read_arenaUnlisted (X : Memory) (a : Nat) :
    Memory.read (arenaUnlisted p) X a = some (byteAt p X a) := by
  unfold byteAt Memory.read
  cases Memory.get? X a <;> rfl

theorem byteAt_eq (X : Memory) (a : Nat) :
    byteAt p X a = ((Memory.get? X a).or (arenaUnlisted p a)).getD 0#8 := by
  rw [byteAt, Memory.read_eq]

/-- Reading a byte after a range write (R15, R58). -/
theorem byteAt_writeRange (X : Memory) (o : Nat) (bs : List Byte) (a : Nat) :
    byteAt p (Memory.writeRange (arenaUnlisted p) X o bs) a =
      if h : o ≤ a ∧ a < o + bs.length then bs[a - o]'(by omega) else byteAt p X a := by
  rw [byteAt, Memory.read_writeRange]
  split
  · rename_i h
    have : a - o < bs.length := by omega
    simp [List.getElem?_eq_getElem this]
  · simp [byteAt]

theorem byteAt_writeRange_of_not_mem {X : Memory} {o : Nat} {bs : List Byte} {a : Nat}
    (h : a < o ∨ o + bs.length ≤ a) :
    byteAt p (Memory.writeRange (arenaUnlisted p) X o bs) a = byteAt p X a := by
  rw [byteAt_writeRange, dif_neg (by omega)]

theorem byteAt_cellsFrom (o : Nat) (bs : List Byte) (a : Nat) :
    byteAt p (Memory.cellsFrom (arenaUnlisted p) o bs) a =
      if h : o ≤ a ∧ a < o + bs.length then bs[a - o]'(by omega)
      else ((arenaUnlisted p) a).getD 0#8 := by
  rw [byteAt, Memory.read_cellsFrom]
  split
  · rename_i h
    have : a - o < bs.length := by omega
    simp [List.getElem?_eq_getElem this]
  · simp

theorem arenaUnlisted_ge_two {a : Nat} (h : 2 ≤ a) : arenaUnlisted p a = some 0#8 := by
  have h0 : ¬ a = 0 := by omega
  have h1 : ¬ a = 1 := by omega
  simp [arenaUnlisted, h0, h1]

/-! ### The magic word -/

theorem toNat_low_high (v : U16) :
    (v.setWidth 8).toNat + 256 * (v.extractLsb' 8 8).toNat = v.toNat := by
  have := v.isLt
  simp [BitVec.extractLsb'_toNat, BitVec.toNat_setWidth, Nat.shiftRight_eq_div_pow]
  omega

theorem read16_of_unlisted {X : Memory} (h0 : Memory.get? X 0 = none) (h1 : Memory.get? X 1 = none) :
    read16 p X 0 = p.magic.toNat := by
  rw [read16, byteAt_eq, byteAt_eq, h0, h1]
  simpa [arenaUnlisted] using toNat_low_high p.magic

/-- The magic test is V1 of R174. -/
theorem magicMatches_iff (X : Memory) : magicMatches p X = true ↔ read16 p X 0 = p.magic.toNat := by
  unfold magicMatches
  constructor
  · intro h
    rcases (Bool.or_eq_true _ _).mp h with h | h
    · simp only [Bool.and_eq_true, Option.isNone_iff_eq_none] at h
      exact read16_of_unlisted p h.1 h.2
    · simpa using h
  · intro h
    simp [h]

/-! ### Little-endian pairs -/

theorem le16_length (v : U16) : (le16 v).length = 2 := rfl

theorem le16_ofNat_toNat {n : Nat} (h : n < 65536) :
    ((le16 (BitVec.ofNat 16 n)).getD 0 0#8).toNat + 256 * ((le16 (BitVec.ofNat 16 n)).getD 1 0#8).toNat = n := by
  have := toNat_low_high (BitVec.ofNat 16 n)
  simp only [le16, List.getD_cons_zero, List.getD_cons_succ]
  rw [this, BitVec.toNat_ofNat, Nat.mod_eq_of_lt h]

/-! ### The packer -/

theorem tableFrom_length (o : Nat) (J : List (List Byte)) : (tableFrom o J).length = 2 * J.length := by
  induction J generalizing o with
  | nil => rfl
  | cons b J ih => simp [tableFrom, le16, ih]; omega

/-- Entry `i` of the table is the address where blob `i` is laid. -/
theorem tableFrom_entry (o : Nat) (J : List (List Byte)) {i : Nat} (hi : i < J.length) {j : Nat} (hj : j < 2) :
    (tableFrom o J).getD (2 * i + j) 0#8 =
      (le16 (BitVec.ofNat 16 (o + (J.take i).flatten.length))).getD j 0#8 := by
  induction J generalizing o i with
  | nil => simp at hi
  | cons b J ih =>
    cases i with
    | zero =>
      rcases j with _ | _ | j
      · simp [tableFrom, le16]
      · simp [tableFrom, le16]
      · omega
    | succ i =>
      have h1 : 2 * (i + 1) + j = (2 * i + j) + 2 := by omega
      have h2 : (tableFrom o (b :: J)).getD (2 * (i + 1) + j) 0#8 =
          (tableFrom (o + b.length) J).getD (2 * i + j) 0#8 := by
        rw [h1]
        simp [tableFrom, le16]
      rw [h2, ih (o + b.length) (by simpa using hi)]
      simp [Nat.add_assoc]

theorem flatten_entry (J : List (List Byte)) {i : Nat} (hi : i < J.length) {k : Nat} (hk : k < J[i].length) :
    J.flatten.getD ((J.take i).flatten.length + k) 0#8 = J[i].getD k 0#8 := by
  induction J generalizing i with
  | nil => simp at hi
  | cons b J ih =>
    cases i with
    | zero =>
      simp only [List.getElem_cons_zero] at hk
      simp [List.getElem?_append_left hk]
    | succ i =>
      have h1 : ((b :: J).take (i + 1)).flatten.length + k = b.length + ((J.take i).flatten.length + k) := by
        simp [Nat.add_assoc]
      rw [h1]
      have := ih (by simpa using hi) (by simpa using hk)
      simpa [List.getD_eq_getElem?_getD, List.getElem?_append_right] using this

theorem take_flatten_length_le (J : List (List Byte)) {i : Nat} (hi : i < J.length) :
    (J.take i).flatten.length + J[i].length ≤ J.flatten.length := by
  induction J generalizing i with
  | nil => simp at hi
  | cons b J ih =>
    cases i with
    | zero => simp
    | succ i =>
      have := ih (by simpa using hi)
      simp at this ⊢
      omega

theorem take_succ_flatten_length (J : List (List Byte)) {i : Nat} (hi : i < J.length) :
    (J.take (i + 1)).flatten.length = (J.take i).flatten.length + J[i].length := by
  induction J generalizing i with
  | nil => simp at hi
  | cons b J ih =>
    cases i with
    | zero => simp
    | succ i =>
      have h := ih (i := i) (by simpa using hi)
      simp only [List.take_succ_cons, List.flatten_cons, List.length_append, List.getElem_cons_succ, h]
      omega

variable (r2 r3 r5 : Byte) {J : List (List Byte)}

theorem byteAt_pack {a : Nat} (h : 2 ≤ a) :
    byteAt p (pack p r2 r3 r5 J) a =
      ([r2, r3, BitVec.ofNat 8 J.length, r5] ++ tableFrom (hdr J.length) J ++ J.flatten).getD (a - 2) 0#8 := by
  rw [pack, byteAt_cellsFrom]
  split
  · rename_i h1
    rw [List.getD_eq_getElem?_getD, List.getElem?_eq_getElem (by omega)]
    rfl
  · rename_i h1
    rw [arenaUnlisted_ge_two p h, List.getD_eq_getElem?_getD, List.getElem?_eq_none (by omega)]
    rfl

/-- Reserved bytes and count of a packed image (R176). -/
theorem byteAt_pack_two : byteAt p (pack p r2 r3 r5 J) 2 = r2 := by rw [byteAt_pack p _ _ _ (by omega)]; rfl
theorem byteAt_pack_three : byteAt p (pack p r2 r3 r5 J) 3 = r3 := by rw [byteAt_pack p _ _ _ (by omega)]; rfl
theorem byteAt_pack_four : byteAt p (pack p r2 r3 r5 J) 4 = BitVec.ofNat 8 J.length := by
  rw [byteAt_pack p _ _ _ (by omega)]; rfl
theorem byteAt_pack_five : byteAt p (pack p r2 r3 r5 J) 5 = r5 := by rw [byteAt_pack p _ _ _ (by omega)]; rfl

theorem countOf_pack (h : J.length ≤ 255) : countOf p (pack p r2 r3 r5 J) = J.length := by
  rw [countOf, byteAt_pack_four, BitVec.toNat_ofNat]
  omega

theorem byteAt_pack_table {i j : Nat} (hi : i < J.length) (hj : j < 2) :
    byteAt p (pack p r2 r3 r5 J) (6 + 2 * i + j) =
      (le16 (BitVec.ofNat 16 (startOf J i))).getD j 0#8 := by
  rw [byteAt_pack p _ _ _ (by omega)]
  have h1 : 6 + 2 * i + j - 2 = 4 + (2 * i + j) := by omega
  have h2 : 2 * i + j < (tableFrom (hdr J.length) J).length := by rw [tableFrom_length]; omega
  rw [h1, List.append_assoc, List.getD_append_right _ _ _ _ (by simp)]
  simp only [List.length_cons, List.length_nil, Nat.zero_add, Nat.reduceAdd, Nat.add_sub_cancel_left]
  rw [List.getD_append _ _ _ _ h2, tableFrom_entry _ _ hi hj]
  rfl

theorem byteAt_pack_blob {i k : Nat} (hi : i < J.length) (hk : k < J[i].length) :
    byteAt p (pack p r2 r3 r5 J) (startOf J i + k) = J[i].getD k 0#8 := by
  have hs : 6 + 2 * J.length ≤ startOf J i := by unfold startOf hdr; omega
  rw [byteAt_pack p _ _ _ (by omega)]
  have h1 : startOf J i + k - 2 =
      ([r2, r3, BitVec.ofNat 8 J.length, r5] ++ tableFrom (hdr J.length) J).length
        + ((J.take i).flatten.length + k) := by
    simp only [List.length_append, tableFrom_length, List.length_cons, List.length_nil, startOf, hdr]
    omega
  rw [h1, List.getD_append_right _ _ _ _ (by omega), Nat.add_sub_cancel_left, flatten_entry J hi hk]

theorem offsetOf_pack (h : Packable J) {i : Nat} (hi : i < J.length) :
    offsetOf p (pack p r2 r3 r5 J) i = startOf J i := by
  have h1 := take_flatten_length_le J hi
  have h2 := h.fits
  have h3 : startOf J i < 65536 := by unfold startOf; simp only [Config.cap] at h2; omega
  have e0 := byteAt_pack_table p r2 r3 r5 hi (j := 0) (by omega)
  have e1 := byteAt_pack_table p r2 r3 r5 hi (j := 1) (by omega)
  rw [Nat.add_zero] at e0
  rw [offsetOf, read16, e0, e1]
  exact le16_ofNat_toNat h3

theorem readBytes_pack {i : Nat} (hi : i < J.length) :
    readBytes p (pack p r2 r3 r5 J) (startOf J i) J[i].length = J[i] := by
  apply List.ext_getElem
  · simp [readBytes]
  · intro k h1 h2
    simp only [readBytes, List.getElem_map, List.getElem_range]
    rw [byteAt_pack_blob p r2 r3 r5 hi h2, List.getD_eq_getElem?_getD, List.getElem?_eq_getElem h2]
    rfl

theorem sizeAt_pack (h : Packable J) {i : Nat} (hi : i < J.length) :
    sizeAt p (pack p r2 r3 r5 J) (startOf J i) = J[i].length := by
  obtain ⟨h4, hl⟩ := h.shaped J[i] (List.getElem_mem hi)
  have e0 := byteAt_pack_blob p r2 r3 r5 hi (k := 0) (by omega)
  have e1 := byteAt_pack_blob p r2 r3 r5 hi (k := 1) (by omega)
  have e2 := byteAt_pack_blob p r2 r3 r5 hi (k := 2) (by omega)
  have e3 := byteAt_pack_blob p r2 r3 r5 hi (k := 3) (by omega)
  rw [Nat.add_zero] at e0
  rw [hl]
  simp only [sizeAt, rCount, lCount, read16, Nat.add_assoc, e0, e1, e2, e3]

theorem get?_pack_low {a : Nat} (h : a < 2) : Memory.get? (pack p r2 r3 r5 J) a = none := by
  apply Memory.get?_eq_none_of_lt
  intro c hc
  have := Memory.mem_cellsFrom hc
  omega

theorem magicMatches_pack : magicMatches p (pack p r2 r3 r5 J) = true := by
  rw [magicMatches_iff]
  exact read16_of_unlisted p (get?_pack_low p r2 r3 r5 (by omega)) (get?_pack_low p r2 r3 r5 (by omega))

/-- `Pack` returns a valid image (R176). -/
theorem isValid_pack (h : Packable J) : isValid p (pack p r2 r3 r5 J) = true := by
  have hf := h.fits
  simp only [isValid, countOf_pack p r2 r3 r5 h.countLe, magicMatches_pack, Bool.true_and,
    Bool.and_eq_true, decide_eq_true_eq, List.all_eq_true, List.mem_range]
  refine ⟨⟨by omega, fun i hi => ?_⟩, fun i hi => ?_⟩
  · have h1 := take_flatten_length_le J hi
    have h4 := (h.shaped J[i] (List.getElem_mem hi)).1
    simp only [blobInBounds, countOf_pack p r2 r3 r5 h.countLe, offsetOf_pack p r2 r3 r5 h hi,
      sizeAt_pack p r2 r3 r5 h hi, Bool.and_eq_true, decide_eq_true_eq]
    simp only [startOf]
    omega
  · have hi0 : i < J.length := by omega
    have hi1 : i + 1 < J.length := by omega
    simp only [blobsInOrder, offsetOf_pack p r2 r3 r5 h hi0, offsetOf_pack p r2 r3 r5 h hi1,
      sizeAt_pack p r2 r3 r5 h hi0, decide_eq_true_eq]
    simp only [startOf, take_succ_flatten_length J hi0]
    omega

/-- The blobs of a packed image are the blobs packed (R176). -/
theorem blobsOf_pack (h : Packable J) : blobsOf p (pack p r2 r3 r5 J) = J := by
  apply List.ext_getElem
  · simp [blobsOf, countOf_pack p r2 r3 r5 h.countLe]
  · intro i h1 h2
    simp only [blobsOf, List.getElem_map, List.getElem_range, offsetOf_pack p r2 r3 r5 h h2,
      sizeAt_pack p r2 r3 r5 h h2, readBytes_pack p r2 r3 r5 h2]

/-- `Used` of an image is its header and its blobs' bytes (R175). -/
theorem usedOf_eq (X : Memory) : usedOf p X = hdr (countOf p X) + (blobsOf p X).flatten.length := by
  have h : ∀ (l : List Nat), (l.map (fun i => readBytes p X (offsetOf p X i) (sizeAt p X (offsetOf p X i)))).flatten.length
      = (l.map (fun i => sizeAt p X (offsetOf p X i))).sum := by
    intro l
    induction l with
    | nil => rfl
    | cons i l ih => simp only [List.map_cons, List.flatten_cons, List.length_append, ih, List.sum_cons]; simp [readBytes]
  rw [usedOf, blobsOf, h]

theorem usedOf_pack (h : Packable J) : usedOf p (pack p r2 r3 r5 J) = hdr J.length + J.flatten.length := by
  rw [usedOf_eq, blobsOf_pack p r2 r3 r5 h, countOf_pack p r2 r3 r5 h.countLe]

theorem pack_wf (h : Packable J) : Memory.wf Config.cap (arenaUnlisted p) (pack p r2 r3 r5 J) = true := by
  have hf := h.fits
  refine Memory.cellsFrom_wf _ ?_
  simp only [List.length_append, tableFrom_length, List.length_cons, List.length_nil]
  simp only [hdr] at hf
  omega

/-! ### Blobs of a valid image -/

theorem blobsOf_length (X : Memory) : (blobsOf p X).length = countOf p X := by simp [blobsOf]

theorem readBytes_length (X : Memory) (a n : Nat) : (readBytes p X a n).length = n := by simp [readBytes]

theorem readBytes_getD (X : Memory) (a : Nat) {n k : Nat} (h : k < n) :
    (readBytes p X a n).getD k 0#8 = byteAt p X (a + k) := by
  simp [readBytes, List.getD_eq_getElem?_getD, List.getElem?_map, List.getElem?_range h]

theorem readBytes_shaped (X : Memory) (o : Nat) : BlobShaped (readBytes p X o (sizeAt p X o)) := by
  have h4 : 4 ≤ sizeAt p X o := by unfold sizeAt blobSize; omega
  refine ⟨by rw [readBytes_length]; exact h4, ?_⟩
  rw [readBytes_length, readBytes_getD p X o (by omega), readBytes_getD p X o (by omega),
    readBytes_getD p X o (by omega), readBytes_getD p X o (by omega)]
  rfl

theorem blobsOf_shaped (X : Memory) : ∀ b ∈ blobsOf p X, BlobShaped b := by
  intro b hb
  obtain ⟨i, -, rfl⟩ := List.mem_map.1 hb
  exact readBytes_shaped p X _

theorem newBlob_length (r l : U16) : (newBlob r l).length = 4 + 5 * (r.toNat + l.toNat) := by
  simp [newBlob, le16]
  omega

theorem newBlob_shaped (r l : U16) : BlobShaped (newBlob r l) := by
  refine ⟨by rw [newBlob_length]; omega, ?_⟩
  rw [newBlob_length]
  simp only [newBlob, le16, List.cons_append, List.nil_append, List.getD_cons_zero, List.getD_cons_succ,
    toNat_low_high, blobSize]

/-! ### What validity says -/

structure ValidImage (X : Memory) : Prop where
  magic : read16 p X 0 = p.magic.toNat
  header : hdr (countOf p X) ≤ Config.cap
  start : ∀ i < countOf p X, hdr (countOf p X) ≤ offsetOf p X i
  stop : ∀ i < countOf p X, offsetOf p X i + sizeAt p X (offsetOf p X i) ≤ Config.cap
  order : ∀ i, i + 1 < countOf p X →
    offsetOf p X i + sizeAt p X (offsetOf p X i) ≤ offsetOf p X (i + 1)

theorem four_le_sizeAt (X : Memory) (o : Nat) : 4 ≤ sizeAt p X o := by unfold sizeAt blobSize; omega

/-- `isValid` is V1 to V4 of R174. -/
theorem isValid_iff (X : Memory) : isValid p X = true ↔ ValidImage p X := by
  simp only [isValid, Bool.and_eq_true, decide_eq_true_eq, List.all_eq_true, List.mem_range, magicMatches_iff,
    blobInBounds, blobsInOrder]
  constructor
  · rintro ⟨⟨⟨h1, h2⟩, h3⟩, h4⟩
    exact ⟨h1, h2, fun i hi => (h3 i hi).1.1, fun i hi => (h3 i hi).2, fun i hi => h4 i (by omega)⟩
  · rintro ⟨h1, h2, h3, h4, h5⟩
    refine ⟨⟨⟨h1, h2⟩, fun i hi => ⟨⟨h3 i hi, ?_⟩, h4 i hi⟩⟩, fun i hi => h5 i (by omega)⟩
    have := h4 i hi
    have := four_le_sizeAt p X (offsetOf p X i)
    omega

/-- The header and the first `k` blobs of a valid image end before blob `k` starts. -/
theorem ValidImage.prefix_le {X : Memory} (h : ValidImage p X) {k : Nat} (hk : k < countOf p X) :
    hdr (countOf p X) + ((List.range k).map (fun i => sizeAt p X (offsetOf p X i))).sum ≤ offsetOf p X k := by
  induction k with
  | zero => simpa using h.start 0 hk
  | succ k ih =>
    have h1 := ih (by omega)
    have h2 := h.order k hk
    simp only [List.range_succ, List.map_append, List.map_cons, List.map_nil, List.sum_append, List.sum_cons, List.sum_nil]
    omega

/-- `Used(X) <= CAP` for a valid image (R175). -/
theorem usedOf_le {X : Memory} (h : isValid p X = true) : usedOf p X ≤ Config.cap := by
  have hv := (isValid_iff p X).1 h
  unfold usedOf
  rcases Nat.eq_zero_or_pos (countOf p X) with h0 | h0
  · have := hv.header
    simp only [h0, List.range_zero, List.map_nil, List.sum_nil] at this ⊢
    omega
  · obtain ⟨k, hk⟩ : ∃ k, countOf p X = k + 1 := ⟨countOf p X - 1, by omega⟩
    have h1 := hv.prefix_le p (k := k) (by omega)
    have h2 := hv.stop k (by omega)
    rw [hk, List.range_succ]
    rw [hk] at h1
    simp only [List.map_append, List.map_cons, List.map_nil, List.sum_append, List.sum_cons, List.sum_nil]
    omega

/-- The blobs of a valid image can be packed. -/
theorem blobsOf_packable {X : Memory} (h : isValid p X = true) : Packable (blobsOf p X) := by
  refine ⟨?_, ?_, blobsOf_shaped p X⟩
  · rw [blobsOf_length]
    have := (byteAt p X 4).isLt
    unfold countOf
    omega
  · rw [blobsOf_length, ← usedOf_eq]
    exact usedOf_le p h

end Sys2Proof.Machine
end

