-- ==== Sys2Proof/Laws/State.lean ====
section
/-! SUPPORT. One lemma per field per update: what each named update of State leaves in each field. -/

namespace Sys2Proof.Machine

/-! ### setSeq, setTimer -/

@[simp] theorem setSeq_arena (ch : Channel) (q : Sequencer) (s : State) : (setSeq ch q s).arena = s.arena := by cases ch <;> rfl
@[simp] theorem setSeq_bytesFree (ch : Channel) (q : Sequencer) (s : State) : (setSeq ch q s).bytesFree = s.bytesFree := by cases ch <;> rfl
@[simp] theorem setSeq_tick (ch : Channel) (q : Sequencer) (s : State) : (setSeq ch q s).tick = s.tick := by cases ch <;> rfl
@[simp] theorem setSeq_persist (ch : Channel) (q : Sequencer) (s : State) : (setSeq ch q s).persist = s.persist := by cases ch <;> rfl
@[simp] theorem setSeq_schedule (ch : Channel) (q : Sequencer) (s : State) : (setSeq ch q s).schedule = s.schedule := by cases ch <;> rfl
@[simp] theorem setSeq_io (ch : Channel) (q : Sequencer) (s : State) : (setSeq ch q s).io = s.io := by cases ch <;> rfl
@[simp] theorem setSeq_response (ch : Channel) (q : Sequencer) (s : State) : (setSeq ch q s).response = s.response := by cases ch <;> rfl
@[simp] theorem setSeq_freeCount (ch : Channel) (q : Sequencer) (s : State) : (setSeq ch q s).freeCount = s.freeCount := by cases ch <;> rfl
@[simp] theorem setSeq_timer (ch : Channel) (q : Sequencer) (s : State) (c : TimerId) : (setSeq ch q s).timer c = s.timer c := by cases ch <;> cases c <;> rfl
@[simp] theorem setSeq_seq (ch : Channel) (q : Sequencer) (s : State) : (setSeq ch q s).seq ch = q := by cases ch <;> rfl
theorem setSeq_seq_of_ne {ch d : Channel} (h : d ≠ ch) (q : Sequencer) (s : State) : (setSeq ch q s).seq d = s.seq d := by
  cases ch <;> cases d <;> first | rfl | exact absurd rfl h
@[simp] theorem setSeq_setSeq (ch : Channel) (q r : Sequencer) (s : State) : setSeq ch q (setSeq ch r s) = setSeq ch q s := by
  cases ch <;> rfl
@[simp] theorem setSeq_self (ch : Channel) (s : State) : setSeq ch (s.seq ch) s = s := by
  cases ch <;> rfl
@[simp] theorem setTimer_arena (c : TimerId) (t : Timer) (s : State) : (setTimer c t s).arena = s.arena := by cases c <;> rfl
@[simp] theorem setTimer_bytesFree (c : TimerId) (t : Timer) (s : State) : (setTimer c t s).bytesFree = s.bytesFree := by cases c <;> rfl
@[simp] theorem setTimer_tick (c : TimerId) (t : Timer) (s : State) : (setTimer c t s).tick = s.tick := by cases c <;> rfl
@[simp] theorem setTimer_persist (c : TimerId) (t : Timer) (s : State) : (setTimer c t s).persist = s.persist := by cases c <;> rfl
@[simp] theorem setTimer_schedule (c : TimerId) (t : Timer) (s : State) : (setTimer c t s).schedule = s.schedule := by cases c <;> rfl
@[simp] theorem setTimer_io (c : TimerId) (t : Timer) (s : State) : (setTimer c t s).io = s.io := by cases c <;> rfl
@[simp] theorem setTimer_response (c : TimerId) (t : Timer) (s : State) : (setTimer c t s).response = s.response := by cases c <;> rfl
@[simp] theorem setTimer_freeCount (c : TimerId) (t : Timer) (s : State) : (setTimer c t s).freeCount = s.freeCount := by cases c <;> rfl
@[simp] theorem setTimer_seq (c : TimerId) (t : Timer) (s : State) (ch : Channel) : (setTimer c t s).seq ch = s.seq ch := by cases ch <;> cases c <;> rfl
@[simp] theorem setTimer_timer (c : TimerId) (t : Timer) (s : State) : (setTimer c t s).timer c = t := by cases c <;> rfl
theorem setTimer_timer_of_ne {c d : TimerId} (h : d ≠ c) (t : Timer) (s : State) : (setTimer c t s).timer d = s.timer d := by
  cases c <;> cases d <;> first | rfl | exact absurd rfl h
@[simp] theorem setTimer_setTimer (c : TimerId) (t v : Timer) (s : State) : setTimer c t (setTimer c v s) = setTimer c t s := by
  cases c <;> rfl
@[simp] theorem setTimer_self (c : TimerId) (s : State) : setTimer c (s.timer c) s = s := by
  cases c <;> rfl
theorem setTimer_setSeq (c : TimerId) (t : Timer) (ch : Channel) (q : Sequencer) (s : State) : setTimer c t (setSeq ch q s) = setSeq ch q (setTimer c t s) := by
  cases c <;> cases ch <;> rfl

/-! ### answer, raise, clearResponse, drawChoice -/

@[simp] theorem answer_arena (d : BitVec 40) (s : State) : (answer d s).arena = s.arena := rfl
@[simp] theorem answer_bytesFree (d : BitVec 40) (s : State) : (answer d s).bytesFree = s.bytesFree := rfl
@[simp] theorem answer_tick (d : BitVec 40) (s : State) : (answer d s).tick = s.tick := rfl
@[simp] theorem answer_persist (d : BitVec 40) (s : State) : (answer d s).persist = s.persist := rfl
@[simp] theorem answer_schedule (d : BitVec 40) (s : State) : (answer d s).schedule = s.schedule := rfl
@[simp] theorem answer_io (d : BitVec 40) (s : State) : (answer d s).io = s.io := rfl
@[simp] theorem answer_freeCount (d : BitVec 40) (s : State) : (answer d s).freeCount = s.freeCount := rfl
@[simp] theorem answer_seq (d : BitVec 40) (s : State) (ch : Channel) : (answer d s).seq ch = s.seq ch := by cases ch <;> rfl
@[simp] theorem answer_timer (d : BitVec 40) (s : State) (c : TimerId) : (answer d s).timer c = s.timer c := by cases c <;> rfl
@[simp] theorem raise_arena (k : Status) (s : State) : (raise k s).arena = s.arena := rfl
@[simp] theorem raise_bytesFree (k : Status) (s : State) : (raise k s).bytesFree = s.bytesFree := rfl
@[simp] theorem raise_tick (k : Status) (s : State) : (raise k s).tick = s.tick := rfl
@[simp] theorem raise_persist (k : Status) (s : State) : (raise k s).persist = s.persist := rfl
@[simp] theorem raise_schedule (k : Status) (s : State) : (raise k s).schedule = s.schedule := rfl
@[simp] theorem raise_io (k : Status) (s : State) : (raise k s).io = s.io := rfl
@[simp] theorem raise_freeCount (k : Status) (s : State) : (raise k s).freeCount = s.freeCount := rfl
@[simp] theorem raise_seq (k : Status) (s : State) (ch : Channel) : (raise k s).seq ch = s.seq ch := by cases ch <;> rfl
@[simp] theorem raise_timer (k : Status) (s : State) (c : TimerId) : (raise k s).timer c = s.timer c := by cases c <;> rfl
@[simp] theorem clearResponse_arena (s : State) : (clearResponse s).arena = s.arena := rfl
@[simp] theorem clearResponse_bytesFree (s : State) : (clearResponse s).bytesFree = s.bytesFree := rfl
@[simp] theorem clearResponse_tick (s : State) : (clearResponse s).tick = s.tick := rfl
@[simp] theorem clearResponse_persist (s : State) : (clearResponse s).persist = s.persist := rfl
@[simp] theorem clearResponse_schedule (s : State) : (clearResponse s).schedule = s.schedule := rfl
@[simp] theorem clearResponse_io (s : State) : (clearResponse s).io = s.io := rfl
@[simp] theorem clearResponse_freeCount (s : State) : (clearResponse s).freeCount = s.freeCount := rfl
@[simp] theorem clearResponse_seq (s : State) (ch : Channel) : (clearResponse s).seq ch = s.seq ch := by cases ch <;> rfl
@[simp] theorem clearResponse_timer (s : State) (c : TimerId) : (clearResponse s).timer c = s.timer c := by cases c <;> rfl
@[simp] theorem answer_response (d : BitVec 40) (s : State) : (answer d s).response = some (responseWord .ok d) := rfl
@[simp] theorem raise_response (k : Status) (s : State) : (raise k s).response = some (responseWord k 0#40) := rfl
@[simp] theorem clearResponse_response (s : State) : (clearResponse s).response = none := rfl
@[simp] theorem drawChoice_arena (s : State) : (drawChoice s).arena = s.arena := by unfold drawChoice; split <;> rfl
@[simp] theorem drawChoice_bytesFree (s : State) : (drawChoice s).bytesFree = s.bytesFree := by unfold drawChoice; split <;> rfl
@[simp] theorem drawChoice_tick (s : State) : (drawChoice s).tick = s.tick := by unfold drawChoice; split <;> rfl
@[simp] theorem drawChoice_persist (s : State) : (drawChoice s).persist = s.persist := by unfold drawChoice; split <;> rfl
@[simp] theorem drawChoice_schedule (s : State) : (drawChoice s).schedule = s.schedule := by unfold drawChoice; split <;> rfl
@[simp] theorem drawChoice_io (s : State) : (drawChoice s).io = s.io := by unfold drawChoice; split <;> rfl
@[simp] theorem drawChoice_response (s : State) : (drawChoice s).response = s.response := by unfold drawChoice; split <;> rfl
@[simp] theorem drawChoice_seq (s : State) (ch : Channel) : (drawChoice s).seq ch = s.seq ch := by unfold drawChoice; split <;> cases ch <;> rfl
@[simp] theorem drawChoice_timer (s : State) (c : TimerId) : (drawChoice s).timer c = s.timer c := by unfold drawChoice; split <;> cases c <;> rfl

/-! ### Timer and actuator operations, latching, index, end of a sequence -/

@[simp] theorem armAt_arena (c : TimerId) (t : U32) (s : State) : (armAt c t s).arena = s.arena := by simp [armAt]
@[simp] theorem armAt_bytesFree (c : TimerId) (t : U32) (s : State) : (armAt c t s).bytesFree = s.bytesFree := by simp [armAt]
@[simp] theorem armAt_tick (c : TimerId) (t : U32) (s : State) : (armAt c t s).tick = s.tick := by simp [armAt]
@[simp] theorem armAt_persist (c : TimerId) (t : U32) (s : State) : (armAt c t s).persist = s.persist := by simp [armAt]
@[simp] theorem armAt_schedule (c : TimerId) (t : U32) (s : State) : (armAt c t s).schedule = s.schedule := by simp [armAt]
@[simp] theorem armAt_io (c : TimerId) (t : U32) (s : State) : (armAt c t s).io = s.io := by simp [armAt]
@[simp] theorem armAt_response (c : TimerId) (t : U32) (s : State) : (armAt c t s).response = s.response := by simp [armAt]
@[simp] theorem armAt_freeCount (c : TimerId) (t : U32) (s : State) : (armAt c t s).freeCount = s.freeCount := by simp [armAt]
@[simp] theorem armAt_seq (c : TimerId) (t : U32) (s : State) (ch : Channel) : (armAt c t s).seq ch = s.seq ch := by simp [armAt]
@[simp] theorem armRel_arena (c : TimerId) (n : Nat) (s : State) : (armRel c n s).arena = s.arena := by simp [armRel, armAt]
@[simp] theorem armRel_bytesFree (c : TimerId) (n : Nat) (s : State) : (armRel c n s).bytesFree = s.bytesFree := by simp [armRel, armAt]
@[simp] theorem armRel_tick (c : TimerId) (n : Nat) (s : State) : (armRel c n s).tick = s.tick := by simp [armRel, armAt]
@[simp] theorem armRel_persist (c : TimerId) (n : Nat) (s : State) : (armRel c n s).persist = s.persist := by simp [armRel, armAt]
@[simp] theorem armRel_schedule (c : TimerId) (n : Nat) (s : State) : (armRel c n s).schedule = s.schedule := by simp [armRel, armAt]
@[simp] theorem armRel_io (c : TimerId) (n : Nat) (s : State) : (armRel c n s).io = s.io := by simp [armRel, armAt]
@[simp] theorem armRel_response (c : TimerId) (n : Nat) (s : State) : (armRel c n s).response = s.response := by simp [armRel, armAt]
@[simp] theorem armRel_freeCount (c : TimerId) (n : Nat) (s : State) : (armRel c n s).freeCount = s.freeCount := by simp [armRel, armAt]
@[simp] theorem armRel_seq (c : TimerId) (n : Nat) (s : State) (ch : Channel) : (armRel c n s).seq ch = s.seq ch := by simp [armRel, armAt]
@[simp] theorem disarm_arena (c : TimerId) (s : State) : (disarm c s).arena = s.arena := by simp [disarm]
@[simp] theorem disarm_bytesFree (c : TimerId) (s : State) : (disarm c s).bytesFree = s.bytesFree := by simp [disarm]
@[simp] theorem disarm_tick (c : TimerId) (s : State) : (disarm c s).tick = s.tick := by simp [disarm]
@[simp] theorem disarm_persist (c : TimerId) (s : State) : (disarm c s).persist = s.persist := by simp [disarm]
@[simp] theorem disarm_schedule (c : TimerId) (s : State) : (disarm c s).schedule = s.schedule := by simp [disarm]
@[simp] theorem disarm_io (c : TimerId) (s : State) : (disarm c s).io = s.io := by simp [disarm]
@[simp] theorem disarm_response (c : TimerId) (s : State) : (disarm c s).response = s.response := by simp [disarm]
@[simp] theorem disarm_freeCount (c : TimerId) (s : State) : (disarm c s).freeCount = s.freeCount := by simp [disarm]
@[simp] theorem disarm_seq (c : TimerId) (s : State) (ch : Channel) : (disarm c s).seq ch = s.seq ch := by simp [disarm]
@[simp] theorem takeExpiry_arena (c : TimerId) (s : State) : (takeExpiry c s).arena = s.arena := by simp [takeExpiry, disarm]
@[simp] theorem takeExpiry_bytesFree (c : TimerId) (s : State) : (takeExpiry c s).bytesFree = s.bytesFree := by simp [takeExpiry, disarm]
@[simp] theorem takeExpiry_tick (c : TimerId) (s : State) : (takeExpiry c s).tick = s.tick := by simp [takeExpiry, disarm]
@[simp] theorem takeExpiry_persist (c : TimerId) (s : State) : (takeExpiry c s).persist = s.persist := by simp [takeExpiry, disarm]
@[simp] theorem takeExpiry_schedule (c : TimerId) (s : State) : (takeExpiry c s).schedule = s.schedule := by simp [takeExpiry, disarm]
@[simp] theorem takeExpiry_io (c : TimerId) (s : State) : (takeExpiry c s).io = s.io := by simp [takeExpiry, disarm]
@[simp] theorem takeExpiry_response (c : TimerId) (s : State) : (takeExpiry c s).response = s.response := by simp [takeExpiry, disarm]
@[simp] theorem takeExpiry_freeCount (c : TimerId) (s : State) : (takeExpiry c s).freeCount = s.freeCount := by simp [takeExpiry, disarm]
@[simp] theorem takeExpiry_seq (c : TimerId) (s : State) (ch : Channel) : (takeExpiry c s).seq ch = s.seq ch := by simp [takeExpiry, disarm]
@[simp] theorem setActive_arena (ch : Channel) (v : Bool) (s : State) : (setActive ch v s).arena = s.arena := by simp [setActive]
@[simp] theorem setActive_bytesFree (ch : Channel) (v : Bool) (s : State) : (setActive ch v s).bytesFree = s.bytesFree := by simp [setActive]
@[simp] theorem setActive_tick (ch : Channel) (v : Bool) (s : State) : (setActive ch v s).tick = s.tick := by simp [setActive]
@[simp] theorem setActive_persist (ch : Channel) (v : Bool) (s : State) : (setActive ch v s).persist = s.persist := by simp [setActive]
@[simp] theorem setActive_schedule (ch : Channel) (v : Bool) (s : State) : (setActive ch v s).schedule = s.schedule := by simp [setActive]
@[simp] theorem setActive_io (ch : Channel) (v : Bool) (s : State) : (setActive ch v s).io = s.io := by simp [setActive]
@[simp] theorem setActive_response (ch : Channel) (v : Bool) (s : State) : (setActive ch v s).response = s.response := by simp [setActive]
@[simp] theorem setActive_freeCount (ch : Channel) (v : Bool) (s : State) : (setActive ch v s).freeCount = s.freeCount := by simp [setActive]
@[simp] theorem setActive_timer (ch : Channel) (v : Bool) (s : State) (c : TimerId) : (setActive ch v s).timer c = s.timer c := by simp [setActive]
@[simp] theorem advanceIndex_arena (ch : Channel) (s : State) : (advanceIndex ch s).arena = s.arena := by simp [advanceIndex]
@[simp] theorem advanceIndex_bytesFree (ch : Channel) (s : State) : (advanceIndex ch s).bytesFree = s.bytesFree := by simp [advanceIndex]
@[simp] theorem advanceIndex_tick (ch : Channel) (s : State) : (advanceIndex ch s).tick = s.tick := by simp [advanceIndex]
@[simp] theorem advanceIndex_persist (ch : Channel) (s : State) : (advanceIndex ch s).persist = s.persist := by simp [advanceIndex]
@[simp] theorem advanceIndex_schedule (ch : Channel) (s : State) : (advanceIndex ch s).schedule = s.schedule := by simp [advanceIndex]
@[simp] theorem advanceIndex_io (ch : Channel) (s : State) : (advanceIndex ch s).io = s.io := by simp [advanceIndex]
@[simp] theorem advanceIndex_response (ch : Channel) (s : State) : (advanceIndex ch s).response = s.response := by simp [advanceIndex]
@[simp] theorem advanceIndex_freeCount (ch : Channel) (s : State) : (advanceIndex ch s).freeCount = s.freeCount := by simp [advanceIndex]
@[simp] theorem advanceIndex_timer (ch : Channel) (s : State) (c : TimerId) : (advanceIndex ch s).timer c = s.timer c := by simp [advanceIndex]
@[simp] theorem latchNote_arena (ch : Channel) (h l n : Nat) (s : State) : (latchNote ch h l n s).arena = s.arena := by simp [latchNote]
@[simp] theorem latchNote_bytesFree (ch : Channel) (h l n : Nat) (s : State) : (latchNote ch h l n s).bytesFree = s.bytesFree := by simp [latchNote]
@[simp] theorem latchNote_tick (ch : Channel) (h l n : Nat) (s : State) : (latchNote ch h l n s).tick = s.tick := by simp [latchNote]
@[simp] theorem latchNote_persist (ch : Channel) (h l n : Nat) (s : State) : (latchNote ch h l n s).persist = s.persist := by simp [latchNote]
@[simp] theorem latchNote_schedule (ch : Channel) (h l n : Nat) (s : State) : (latchNote ch h l n s).schedule = s.schedule := by simp [latchNote]
@[simp] theorem latchNote_io (ch : Channel) (h l n : Nat) (s : State) : (latchNote ch h l n s).io = s.io := by simp [latchNote]
@[simp] theorem latchNote_response (ch : Channel) (h l n : Nat) (s : State) : (latchNote ch h l n s).response = s.response := by simp [latchNote]
@[simp] theorem latchNote_freeCount (ch : Channel) (h l n : Nat) (s : State) : (latchNote ch h l n s).freeCount = s.freeCount := by simp [latchNote]
@[simp] theorem latchNote_timer (ch : Channel) (h l n : Nat) (s : State) (c : TimerId) : (latchNote ch h l n s).timer c = s.timer c := by simp [latchNote]
@[simp] theorem endSequence_arena (ch : Channel) (s : State) : (endSequence ch s).arena = s.arena := by simp [endSequence, disarm]
@[simp] theorem endSequence_bytesFree (ch : Channel) (s : State) : (endSequence ch s).bytesFree = s.bytesFree := by simp [endSequence, disarm]
@[simp] theorem endSequence_tick (ch : Channel) (s : State) : (endSequence ch s).tick = s.tick := by simp [endSequence, disarm]
@[simp] theorem endSequence_persist (ch : Channel) (s : State) : (endSequence ch s).persist = s.persist := by simp [endSequence, disarm]
@[simp] theorem endSequence_schedule (ch : Channel) (s : State) : (endSequence ch s).schedule = s.schedule := by simp [endSequence, disarm]
@[simp] theorem endSequence_io (ch : Channel) (s : State) : (endSequence ch s).io = s.io := by simp [endSequence, disarm]
@[simp] theorem endSequence_response (ch : Channel) (s : State) : (endSequence ch s).response = s.response := by simp [endSequence, disarm]
@[simp] theorem endSequence_freeCount (ch : Channel) (s : State) : (endSequence ch s).freeCount = s.freeCount := by simp [endSequence, disarm]
@[simp] theorem startDelay_arena (ch : Channel) (dur : U16) (s : State) : (startDelay ch dur s).arena = s.arena := by simp [startDelay]
@[simp] theorem startDelay_bytesFree (ch : Channel) (dur : U16) (s : State) : (startDelay ch dur s).bytesFree = s.bytesFree := by simp [startDelay]
@[simp] theorem startDelay_tick (ch : Channel) (dur : U16) (s : State) : (startDelay ch dur s).tick = s.tick := by simp [startDelay]
@[simp] theorem startDelay_persist (ch : Channel) (dur : U16) (s : State) : (startDelay ch dur s).persist = s.persist := by simp [startDelay]
@[simp] theorem startDelay_schedule (ch : Channel) (dur : U16) (s : State) : (startDelay ch dur s).schedule = s.schedule := by simp [startDelay]
@[simp] theorem startDelay_io (ch : Channel) (dur : U16) (s : State) : (startDelay ch dur s).io = s.io := by simp [startDelay]
@[simp] theorem startDelay_response (ch : Channel) (dur : U16) (s : State) : (startDelay ch dur s).response = s.response := by simp [startDelay]
@[simp] theorem startDelay_freeCount (ch : Channel) (dur : U16) (s : State) : (startDelay ch dur s).freeCount = s.freeCount := by simp [startDelay]
@[simp] theorem startPulsed_arena (ch : Channel) (duty : Byte) (freq dur : U16) (s : State) : (startPulsed ch duty freq dur s).arena = s.arena := by simp [startPulsed]
@[simp] theorem startPulsed_bytesFree (ch : Channel) (duty : Byte) (freq dur : U16) (s : State) : (startPulsed ch duty freq dur s).bytesFree = s.bytesFree := by simp [startPulsed]
@[simp] theorem startPulsed_tick (ch : Channel) (duty : Byte) (freq dur : U16) (s : State) : (startPulsed ch duty freq dur s).tick = s.tick := by simp [startPulsed]
@[simp] theorem startPulsed_persist (ch : Channel) (duty : Byte) (freq dur : U16) (s : State) : (startPulsed ch duty freq dur s).persist = s.persist := by simp [startPulsed]
@[simp] theorem startPulsed_schedule (ch : Channel) (duty : Byte) (freq dur : U16) (s : State) : (startPulsed ch duty freq dur s).schedule = s.schedule := by simp [startPulsed]
@[simp] theorem startPulsed_io (ch : Channel) (duty : Byte) (freq dur : U16) (s : State) : (startPulsed ch duty freq dur s).io = s.io := by simp [startPulsed]
@[simp] theorem startPulsed_response (ch : Channel) (duty : Byte) (freq dur : U16) (s : State) : (startPulsed ch duty freq dur s).response = s.response := by simp [startPulsed]
@[simp] theorem startPulsed_freeCount (ch : Channel) (duty : Byte) (freq dur : U16) (s : State) : (startPulsed ch duty freq dur s).freeCount = s.freeCount := by simp [startPulsed]
@[simp] theorem decrementRem_arena (ch : Channel) (s : State) : (decrementRem ch s).arena = s.arena := by unfold decrementRem; split <;> simp
@[simp] theorem decrementRem_bytesFree (ch : Channel) (s : State) : (decrementRem ch s).bytesFree = s.bytesFree := by unfold decrementRem; split <;> simp
@[simp] theorem decrementRem_tick (ch : Channel) (s : State) : (decrementRem ch s).tick = s.tick := by unfold decrementRem; split <;> simp
@[simp] theorem decrementRem_persist (ch : Channel) (s : State) : (decrementRem ch s).persist = s.persist := by unfold decrementRem; split <;> simp
@[simp] theorem decrementRem_schedule (ch : Channel) (s : State) : (decrementRem ch s).schedule = s.schedule := by unfold decrementRem; split <;> simp
@[simp] theorem decrementRem_io (ch : Channel) (s : State) : (decrementRem ch s).io = s.io := by unfold decrementRem; split <;> simp
@[simp] theorem decrementRem_response (ch : Channel) (s : State) : (decrementRem ch s).response = s.response := by unfold decrementRem; split <;> simp
@[simp] theorem decrementRem_freeCount (ch : Channel) (s : State) : (decrementRem ch s).freeCount = s.freeCount := by unfold decrementRem; split <;> simp
@[simp] theorem decrementRem_timer (ch : Channel) (s : State) (c : TimerId) : (decrementRem ch s).timer c = s.timer c := by unfold decrementRem; split <;> simp
@[simp] theorem armAt_timer (c : TimerId) (t : U32) (s : State) : (armAt c t s).timer c = { matchAt := t, armed := true } := by simp [armAt]
@[simp] theorem armRel_timer (c : TimerId) (n : Nat) (s : State) : (armRel c n s).timer c = { matchAt := s.tick + BitVec.ofNat 32 n, armed := true } := by simp [armRel, now]
@[simp] theorem disarm_timer (c : TimerId) (s : State) : (disarm c s).timer c = { s.timer c with armed := false } := by simp [disarm]
@[simp] theorem takeExpiry_timer (c : TimerId) (s : State) : (takeExpiry c s).timer c = { s.timer c with armed := false } := by simp [takeExpiry]
@[simp] theorem setActive_seq (ch : Channel) (v : Bool) (s : State) : (setActive ch v s).seq ch = { s.seq ch with out := v } := by simp [setActive]
@[simp] theorem advanceIndex_seq (ch : Channel) (s : State) : (advanceIndex ch s).seq ch = { s.seq ch with index := (s.seq ch).index + 1#16 } := by simp [advanceIndex]
@[simp] theorem endSequence_seq (ch : Channel) (s : State) : (endSequence ch s).seq ch = { s.seq ch with busy := false } := by simp [endSequence]
@[simp] theorem endSequence_timer (ch : Channel) (s : State) : (endSequence ch s).timer (timerOf ch) = { s.timer (timerOf ch) with armed := false } := by simp [endSequence]
@[simp] theorem startDelay_seq (ch : Channel) (dur : U16) (s : State) :
    (startDelay ch dur s).seq ch =
      { s.seq ch with out := false, highUs := 0#32, lowUs := 0#32, rem := 1#32 } := by
  simp [startDelay, latchNote]
@[simp] theorem startDelay_timer (ch : Channel) (dur : U16) (s : State) :
    (startDelay ch dur s).timer (timerOf ch) =
      { matchAt := s.tick + BitVec.ofNat 32 (delayTime dur), armed := true } := by
  simp [startDelay]
@[simp] theorem startPulsed_seq (ch : Channel) (duty : Byte) (freq dur : U16) (s : State) :
    (startPulsed ch duty freq dur s).seq ch =
      { s.seq ch with
        out := true
        highUs := BitVec.ofNat 32 (highTime duty freq)
        lowUs := BitVec.ofNat 32 (lowTime duty freq)
        rem := BitVec.ofNat 32 (pulseCount freq dur) } := by
  simp [startPulsed, latchNote]
@[simp] theorem startPulsed_timer (ch : Channel) (duty : Byte) (freq dur : U16) (s : State) :
    (startPulsed ch duty freq dur s).timer (timerOf ch) =
      { matchAt := s.tick + BitVec.ofNat 32 (highTime duty freq), armed := true } := by
  simp [startPulsed]
theorem decrementRem_seq (ch : Channel) (s : State) :
    (decrementRem ch s).seq ch =
      { s.seq ch with rem := if (s.seq ch).rem = 0#32 then 0#32 else (s.seq ch).rem - 1#32 } := by
  by_cases h : (s.seq ch).rem = 0#32
  · simp only [decrementRem, h, if_true]
    rw [← h]
  · simp [decrementRem, h]

/-! ### Store operations -/

@[simp] theorem clearArena_tick (s : State) : (clearArena s).tick = s.tick := rfl
@[simp] theorem clearArena_persist (s : State) : (clearArena s).persist = s.persist := rfl
@[simp] theorem clearArena_schedule (s : State) : (clearArena s).schedule = s.schedule := rfl
@[simp] theorem clearArena_io (s : State) : (clearArena s).io = s.io := rfl
@[simp] theorem clearArena_response (s : State) : (clearArena s).response = s.response := rfl
@[simp] theorem clearArena_freeCount (s : State) : (clearArena s).freeCount = s.freeCount := rfl
@[simp] theorem clearArena_seq (s : State) (ch : Channel) : (clearArena s).seq ch = s.seq ch := by cases ch <;> rfl
@[simp] theorem clearArena_timer (s : State) (c : TimerId) : (clearArena s).timer c = s.timer c := by cases c <;> rfl
@[simp] theorem repack_tick (p : Params) (J : List (List Byte)) (n : Nat) (s : State) : (repack p J n s).tick = s.tick := rfl
@[simp] theorem repack_persist (p : Params) (J : List (List Byte)) (n : Nat) (s : State) : (repack p J n s).persist = s.persist := rfl
@[simp] theorem repack_schedule (p : Params) (J : List (List Byte)) (n : Nat) (s : State) : (repack p J n s).schedule = s.schedule := rfl
@[simp] theorem repack_io (p : Params) (J : List (List Byte)) (n : Nat) (s : State) : (repack p J n s).io = s.io := rfl
@[simp] theorem repack_response (p : Params) (J : List (List Byte)) (n : Nat) (s : State) : (repack p J n s).response = s.response := rfl
@[simp] theorem repack_freeCount (p : Params) (J : List (List Byte)) (n : Nat) (s : State) : (repack p J n s).freeCount = s.freeCount := rfl
@[simp] theorem repack_seq (p : Params) (J : List (List Byte)) (n : Nat) (s : State) (ch : Channel) : (repack p J n s).seq ch = s.seq ch := by cases ch <;> rfl
@[simp] theorem repack_timer (p : Params) (J : List (List Byte)) (n : Nat) (s : State) (c : TimerId) : (repack p J n s).timer c = s.timer c := by cases c <;> rfl
@[simp] theorem writeNote_tick (p : Params) (a : Nat) (d : Byte) (f t : U16) (s : State) : (writeNote p a d f t s).tick = s.tick := rfl
@[simp] theorem writeNote_persist (p : Params) (a : Nat) (d : Byte) (f t : U16) (s : State) : (writeNote p a d f t s).persist = s.persist := rfl
@[simp] theorem writeNote_schedule (p : Params) (a : Nat) (d : Byte) (f t : U16) (s : State) : (writeNote p a d f t s).schedule = s.schedule := rfl
@[simp] theorem writeNote_io (p : Params) (a : Nat) (d : Byte) (f t : U16) (s : State) : (writeNote p a d f t s).io = s.io := rfl
@[simp] theorem writeNote_response (p : Params) (a : Nat) (d : Byte) (f t : U16) (s : State) : (writeNote p a d f t s).response = s.response := rfl
@[simp] theorem writeNote_freeCount (p : Params) (a : Nat) (d : Byte) (f t : U16) (s : State) : (writeNote p a d f t s).freeCount = s.freeCount := rfl
@[simp] theorem writeNote_seq (p : Params) (a : Nat) (d : Byte) (f t : U16) (s : State) (ch : Channel) : (writeNote p a d f t s).seq ch = s.seq ch := by cases ch <;> rfl
@[simp] theorem writeNote_timer (p : Params) (a : Nat) (d : Byte) (f t : U16) (s : State) (c : TimerId) : (writeNote p a d f t s).timer c = s.timer c := by cases c <;> rfl
@[simp] theorem persistWrite_arena (o : Nat) (bs : List Byte) (s : State) : (persistWrite o bs s).arena = s.arena := by unfold persistWrite; split <;> rfl
@[simp] theorem persistWrite_bytesFree (o : Nat) (bs : List Byte) (s : State) : (persistWrite o bs s).bytesFree = s.bytesFree := by unfold persistWrite; split <;> rfl
@[simp] theorem persistWrite_tick (o : Nat) (bs : List Byte) (s : State) : (persistWrite o bs s).tick = s.tick := by unfold persistWrite; split <;> rfl
@[simp] theorem persistWrite_schedule (o : Nat) (bs : List Byte) (s : State) : (persistWrite o bs s).schedule = s.schedule := by unfold persistWrite; split <;> rfl
@[simp] theorem persistWrite_io (o : Nat) (bs : List Byte) (s : State) : (persistWrite o bs s).io = s.io := by unfold persistWrite; split <;> rfl
@[simp] theorem persistWrite_response (o : Nat) (bs : List Byte) (s : State) : (persistWrite o bs s).response = s.response := by unfold persistWrite; split <;> rfl
@[simp] theorem persistWrite_seq (o : Nat) (bs : List Byte) (s : State) (ch : Channel) : (persistWrite o bs s).seq ch = s.seq ch := by unfold persistWrite; split <;> cases ch <;> rfl
@[simp] theorem persistWrite_timer (o : Nat) (bs : List Byte) (s : State) (c : TimerId) : (persistWrite o bs s).timer c = s.timer c := by unfold persistWrite; split <;> cases c <;> rfl

end Sys2Proof.Machine
end

