-- ==== Sys2Proof/Laws/Notes.lean ====
section
/-! SUPPORT. The sequencer: ranges of the Note arithmetic (R155), everything a Note start can do (R145), that a sequencer
step stays on its channel (R141, R152), and that it keeps I3 to I7. -/

namespace Sys2Proof.Machine

/-! ### Note arithmetic -/

theorem toNat_pos_of_ne_zero {n : Nat} {v : BitVec n} (h : v ≠ 0#n) : 1 ≤ v.toNat := by
  rcases Nat.eq_zero_or_pos v.toNat with h0 | h0
  · exact absurd (BitVec.eq_of_toNat_eq (by simpa using h0)) h
  · exact h0

theorem pulseWidth_ge {freq : U16} (h : freq ≠ 0#16) : 15 ≤ pulseWidth freq := by
  have h1 := toNat_pos_of_ne_zero h
  have h2 := freq.isLt
  unfold pulseWidth
  rw [Nat.le_div_iff_mul_le h1]
  simp only [Config.tickHz]
  omega

theorem pulseWidth_le (freq : U16) : pulseWidth freq ≤ 1000000 := Nat.div_le_self _ _

/-- `highUs` is at most 255/512 of the period. -/
theorem highTime_mul_le (duty : Byte) (freq : U16) : highTime duty freq * 512 ≤ pulseWidth freq * 255 := by
  have h1 : highTime duty freq * 512 ≤ pulseWidth freq * duty.toNat := Nat.div_mul_le_self _ _
  have h2 : pulseWidth freq * duty.toNat ≤ pulseWidth freq * 255 :=
    Nat.mul_le_mul_left _ (by have := duty.isLt; omega)
  omega

theorem highTime_le_pulseWidth (duty : Byte) (freq : U16) : highTime duty freq ≤ pulseWidth freq := by
  have := highTime_mul_le duty freq
  omega

theorem highTime_add_lowTime (duty : Byte) (freq : U16) :
    highTime duty freq + lowTime duty freq = pulseWidth freq := by
  have := highTime_le_pulseWidth duty freq
  unfold lowTime
  omega

theorem highTime_lt (duty : Byte) (freq : U16) : highTime duty freq ≤ 498046 := by
  have h1 := highTime_mul_le duty freq
  have h2 := pulseWidth_le freq
  omega

theorem lowTime_lt (duty : Byte) (freq : U16) : lowTime duty freq ≤ 1000000 := by
  have h1 := highTime_add_lowTime duty freq
  have h2 := pulseWidth_le freq
  omega

theorem lowTime_ge_eight (duty : Byte) {freq : U16} (h : freq ≠ 0#16) : 8 ≤ lowTime duty freq := by
  have h1 := highTime_mul_le duty freq
  have h2 := highTime_add_lowTime duty freq
  have h3 := pulseWidth_ge h
  omega

theorem pulseCount_lt (freq dur : U16) : pulseCount freq dur ≤ 4294836 := by
  have h1 := freq.isLt
  have h2 := dur.isLt
  have h3 : dur.toNat * freq.toNat ≤ 65535 * 65535 := Nat.mul_le_mul (by omega) (by omega)
  unfold pulseCount
  omega

theorem toNat_ofNat_of_le {n b : Nat} (h : n ≤ b) (hb : b < 2 ^ 32) : (BitVec.ofNat 32 n).toNat = n := by
  rw [BitVec.toNat_ofNat, Nat.mod_eq_of_lt (by omega)]

/-! ### One channel only -/

theorem OnlyChannel.refl (ch : Channel) (s : State) : OnlyChannel ch s s := by simp [OnlyChannel]

theorem OnlyChannel.mk (ch : Channel) (q : Sequencer) (v : Timer) (s : State) :
    OnlyChannel ch s (setTimer (timerOf ch) v (setSeq ch q s)) := by
  simp [OnlyChannel]

theorem OnlyChannel.trans {ch : Channel} {s t u : State} (h : OnlyChannel ch s t) (h' : OnlyChannel ch t u) :
    OnlyChannel ch s u := by
  unfold OnlyChannel at *
  rw [h', h]
  simp [setTimer_setSeq]

theorem OnlyChannel.setSeq (ch : Channel) (q : Sequencer) (s : State) :
    OnlyChannel ch s (Machine.setSeq ch q s) := by
  simp [OnlyChannel, setTimer_setSeq]

theorem OnlyChannel.setTimer (ch : Channel) (v : Timer) (s : State) :
    OnlyChannel ch s (Machine.setTimer (timerOf ch) v s) := by
  simp [OnlyChannel]

/-- A step on one channel leaves the other channel's registers. -/
theorem OnlyChannel.seq_of_ne {ch d : Channel} (hd : d ≠ ch) {s t : State} (h : OnlyChannel ch s t) :
    t.seq d = s.seq d := by
  rw [h, setTimer_seq, setSeq_seq_of_ne hd]

/-- A step on one channel leaves every other timer channel. -/
theorem OnlyChannel.timer_of_ne {ch : Channel} {c : TimerId} (hc : c ≠ timerOf ch) {s t : State}
    (h : OnlyChannel ch s t) : t.timer c = s.timer c := by
  rw [h, setTimer_timer_of_ne hc, setSeq_timer]

/-- A step on one channel leaves the arena, `bytesFree`, `tick`, the store and the ports. -/
theorem OnlyChannel.frame {ch : Channel} {s t : State} (h : OnlyChannel ch s t) :
    t.arena = s.arena ∧ t.bytesFree = s.bytesFree ∧ t.tick = s.tick ∧ t.persist = s.persist ∧
      t.schedule = s.schedule ∧ t.io = s.io ∧ t.response = s.response ∧ t.freeCount = s.freeCount := by
  rw [h]
  simp

theorem onlyChannel_armRel (ch : Channel) (n : Nat) (s : State) : OnlyChannel ch s (armRel (timerOf ch) n s) :=
  OnlyChannel.setTimer ch _ s

theorem onlyChannel_takeExpiry (ch : Channel) (s : State) : OnlyChannel ch s (takeExpiry (timerOf ch) s) :=
  OnlyChannel.setTimer ch _ s

theorem onlyChannel_setActive (ch : Channel) (v : Bool) (s : State) : OnlyChannel ch s (setActive ch v s) :=
  OnlyChannel.setSeq ch _ s

theorem onlyChannel_advanceIndex (ch : Channel) (s : State) : OnlyChannel ch s (advanceIndex ch s) :=
  OnlyChannel.setSeq ch _ s

theorem onlyChannel_startDelay (ch : Channel) (dur : U16) (s : State) : OnlyChannel ch s (startDelay ch dur s) :=
  ((onlyChannel_setActive ch false s).trans (OnlyChannel.setSeq ch _ _)).trans (onlyChannel_armRel ch _ _)

theorem onlyChannel_startPulsed (ch : Channel) (duty : Byte) (freq dur : U16) (s : State) :
    OnlyChannel ch s (startPulsed ch duty freq dur s) :=
  ((OnlyChannel.setSeq ch _ s).trans (onlyChannel_setActive ch true _)).trans (onlyChannel_armRel ch _ _)

theorem onlyChannel_endSequence (ch : Channel) (s : State) : OnlyChannel ch s (endSequence ch s) :=
  (OnlyChannel.setSeq ch _ s).trans (OnlyChannel.setTimer ch _ _)

theorem onlyChannel_decrementRem (ch : Channel) (s : State) : OnlyChannel ch s (decrementRem ch s) := by
  unfold decrementRem
  split
  · exact OnlyChannel.refl ch s
  · exact OnlyChannel.setSeq ch _ s

/-! ### Everything a Note start can do (R145) -/

/-- `j` Skip Notes passed. -/
def skipTo (ch : Channel) (j : Nat) (s : State) : State :=
  setSeq ch { s.seq ch with index := (s.seq ch).index + BitVec.ofNat 16 j } s

theorem skipTo_zero (ch : Channel) (s : State) : skipTo ch 0 s = s := by
  have h : (s.seq ch).index + 0#16 = (s.seq ch).index := by simp
  unfold skipTo
  rw [h]
  exact setSeq_self ch s

theorem skipTo_advanceIndex (ch : Channel) (j : Nat) (s : State) :
    skipTo ch j (advanceIndex ch s) = skipTo ch (j + 1) s := by
  have h : (s.seq ch).index + 1#16 + BitVec.ofNat 16 j = (s.seq ch).index + BitVec.ofNat 16 (j + 1) := by
    apply BitVec.eq_of_toNat_eq
    simp only [BitVec.toNat_add, BitVec.toNat_ofNat]
    omega
  simp only [skipTo, advanceIndex_seq, h]
  simp [advanceIndex]

@[simp] theorem skipTo_seq (ch : Channel) (j : Nat) (s : State) :
    (skipTo ch j s).seq ch = { s.seq ch with index := (s.seq ch).index + BitVec.ofNat 16 j } := by simp [skipTo]

@[simp] theorem skipTo_timer (ch : Channel) (j : Nat) (s : State) (c : TimerId) :
    (skipTo ch j s).timer c = s.timer c := by simp [skipTo]

/-- How a Note that is not a Skip begins: a delay, or a pulse train. -/
inductive Begun (ch : Channel) (s t : State) : Prop where
  | delayed (n : Note40) (hf : fetchNote ch s = some n) (hd : noteDur n ≠ 0#16)
      (hz : noteDuty n = 0#8 ∨ noteFreq n = 0#16) (ht : t = startDelay ch (noteDur n) s)
  | pulsed (n : Note40) (hf : fetchNote ch s = some n) (hd : noteDur n ≠ 0#16) (hu : noteDuty n ≠ 0#8)
      (hq : noteFreq n ≠ 0#16) (ht : t = startPulsed ch (noteDuty n) (noteFreq n) (noteDur n) s)

/-- The first `j` Notes from `index[ch]` on are Skip Notes. -/
def SkipsTo (ch : Channel) (j : Nat) (s : State) : Prop :=
  ∀ i < j, ∃ n, fetchNote ch (skipTo ch i s) = some n ∧ noteDur n = 0#16

/-- A Note start that answers a next state: either all `k` Notes left are Skip Notes and the sequence ends, or some
Skip Notes are passed and a Note begins. -/
theorem startNoteLoop_next {ch : Channel} {k : Nat} {s t : State} (h : startNoteLoop ch k s = .next t) :
    (SkipsTo ch k s ∧ ((skipTo ch k s).seq ch).index = (s.seq ch).seqCount ∧ t = endSequence ch (skipTo ch k s)) ∨
      ∃ j < k, SkipsTo ch j s ∧ Begun ch (skipTo ch j s) t := by
  induction k generalizing s with
  | zero =>
    simp only [startNoteLoop] at h
    split at h
    · rename_i hi
      refine Or.inl ⟨fun i hi => absurd hi (Nat.not_lt_zero i), ?_, ?_⟩ <;> rw [skipTo_zero]
      · exact hi
      · exact (Host.Outcome.next.inj h).symm
    · simp at h
  | succ k ih =>
    simp only [startNoteLoop] at h
    split at h
    · simp at h
    · rename_i n hf
      unfold classifyNote at h
      by_cases h1 : noteDur n = 0#16
      · simp only [h1, if_true, execNoteSkip, andThen] at h
        have hskip : ∀ j, SkipsTo ch j (advanceIndex ch s) → SkipsTo ch (j + 1) s := by
          intro j hj i hi
          cases i with
          | zero => exact ⟨n, by rw [skipTo_zero]; exact hf, h1⟩
          | succ i =>
            rw [← skipTo_advanceIndex]
            exact hj i (by omega)
        rcases ih h with ⟨h2, h3, h4⟩ | ⟨j, hj, h2, h3⟩
        · rw [skipTo_advanceIndex] at h3 h4
          exact Or.inl ⟨hskip k h2, by simpa using h3, h4⟩
        · rw [skipTo_advanceIndex] at h3
          exact Or.inr ⟨j + 1, by omega, hskip j h2, h3⟩
      · refine Or.inr ⟨0, by omega, fun i hi => absurd hi (Nat.not_lt_zero i), ?_⟩
        rw [skipTo_zero]
        by_cases h2 : noteDuty n = 0#8
        · simp only [h1, h2, if_true, if_false, execNoteDelayDuty0] at h
          exact .delayed n hf h1 (Or.inl h2) (Host.Outcome.next.inj h).symm
        · by_cases h3 : noteFreq n = 0#16
          · simp only [h1, h2, h3, if_true, if_false, execNoteDelayFreq0] at h
            exact .delayed n hf h1 (Or.inr h3) (Host.Outcome.next.inj h).symm
          · simp only [h1, h2, h3, if_false, execNotePulse] at h
            exact .pulsed n hf h1 h2 h3 (Host.Outcome.next.inj h).symm

theorem onlyChannel_begun {ch : Channel} {s t : State} (h : Begun ch s t) : OnlyChannel ch s t := by
  cases h with
  | delayed _ _ _ _ ht => rw [ht]; exact onlyChannel_startDelay ch _ s
  | pulsed _ _ _ _ _ ht => rw [ht]; exact onlyChannel_startPulsed ch _ _ _ s

/-- A Note start touches its own channel only (R141, R152). -/
theorem onlyChannel_startNote {ch : Channel} {s t : State} (h : startNote ch s = .next t) : OnlyChannel ch s t := by
  rcases startNoteLoop_next h with ⟨-, -, ht⟩ | ⟨j, -, -, hs⟩
  · rw [ht]
    exact (OnlyChannel.setSeq ch _ s).trans (onlyChannel_endSequence ch _)
  · exact (OnlyChannel.setSeq ch _ s).trans (onlyChannel_begun hs)

theorem onlyChannel_nextPeriod {ch : Channel} {s t : State} (h : nextPeriod ch s = .next t) : OnlyChannel ch s t := by
  unfold nextPeriod at h
  split at h
  · obtain rfl := Host.Outcome.next.inj h
    exact (onlyChannel_setActive ch true s).trans (onlyChannel_armRel ch _ _)
  · split at h
    · obtain rfl := Host.Outcome.next.inj h
      exact onlyChannel_armRel ch _ _
    · exact (onlyChannel_advanceIndex ch s).trans (onlyChannel_startNote h)

theorem onlyChannel_nextState {ch : Channel} {s t : State} (h : nextState ch s = .next t) : OnlyChannel ch s t := by
  unfold nextState at h
  split at h
  · obtain rfl := Host.Outcome.next.inj h
    exact (onlyChannel_setActive ch false s).trans (onlyChannel_armRel ch _ _)
  · exact (onlyChannel_decrementRem ch s).trans (onlyChannel_nextPeriod h)

theorem expire_timerOf (ch : Channel) (s : State) :
    expire (timerOf ch) s = nextState ch (takeExpiry (timerOf ch) s) := by cases ch <;> rfl

/-- An expiry step touches its own channel only (R125, R152). -/
theorem onlyChannel_expire {ch : Channel} {s t : State} (h : expire (timerOf ch) s = .next t) : OnlyChannel ch s t := by
  rw [expire_timerOf] at h
  exact (onlyChannel_takeExpiry ch s).trans (onlyChannel_nextState h)

theorem onlyChannel_seqPlay {ch : Channel} {ref : Option (Nat × Nat)} {s t : State}
    (h : seqPlay ch ref s = .next t) : OnlyChannel ch s t := by
  unfold seqPlay at h
  split at h
  · exact (OnlyChannel.setSeq ch _ s).trans (onlyChannel_startNote h)
  · obtain rfl := Host.Outcome.next.inj h
    exact OnlyChannel.refl ch _

/-! ### A Note start never faults where I5 and I6 hold -/

theorem noteAddress_skipTo (ch : Channel) (j : Nat) (s : State)
    (h : (s.seq ch).index.toNat + j < 65536) :
    noteAddress ch (skipTo ch j s) = (s.seq ch).seqBase.toNat + 5 * ((s.seq ch).index.toNat + j) := by
  simp only [noteAddress, skipTo_seq, BitVec.toNat_add, BitVec.toNat_ofNat]
  congr 2
  omega

theorem startNoteLoop_total (ch : Channel) (k : Nat) (s : State)
    (hk : (s.seq ch).index.toNat + k = (s.seq ch).seqCount.toNat)
    (ha : (s.seq ch).seqBase.toNat + 5 * (s.seq ch).seqCount.toNat ≤ Config.cap) :
    ∃ t, startNoteLoop ch k s = .next t := by
  induction k generalizing s with
  | zero =>
    have hi : (s.seq ch).index = (s.seq ch).seqCount := BitVec.eq_of_toNat_eq (by omega)
    exact ⟨endSequence ch s, by simp only [startNoteLoop, hi, if_true]⟩
  | succ k ih =>
    have hc := (s.seq ch).seqCount.isLt
    have hf : fetchNote ch s = some (noteAt Config.params s.arena (noteAddress ch s)) := by
      unfold fetchNote
      rw [if_pos]
      unfold noteAddress
      omega
    simp only [startNoteLoop, hf]
    generalize noteAt Config.params s.arena (noteAddress ch s) = n
    unfold classifyNote
    by_cases h1 : noteDur n = 0#16
    · simp only [h1, if_true, execNoteSkip, andThen]
      apply ih
      · simp only [advanceIndex_seq, BitVec.toNat_add, BitVec.toNat_ofNat]
        omega
      · simpa using ha
    · by_cases h2 : noteDuty n = 0#8
      · exact ⟨startDelay ch (noteDur n) s, by simp only [h1, h2, if_true, if_false, execNoteDelayDuty0]⟩
      · by_cases h3 : noteFreq n = 0#16
        · exact ⟨startDelay ch (noteDur n) s, by simp only [h1, h2, h3, if_true, if_false, execNoteDelayFreq0]⟩
        · exact ⟨startPulsed ch (noteDuty n) (noteFreq n) (noteDur n) s, by
          simp only [h1, h2, h3, if_false, execNotePulse]⟩

theorem startNote_total (ch : Channel) (s : State) (hi : (s.seq ch).index.toNat ≤ (s.seq ch).seqCount.toNat)
    (ha : (s.seq ch).seqBase.toNat + 5 * (s.seq ch).seqCount.toNat ≤ Config.cap) :
    ∃ t, startNote ch s = .next t :=
  startNoteLoop_total ch _ s (by omega) ha

/-! ### A Note start keeps I3 to I7 -/

/-- What a sequencer must satisfy when a Note start begins on it. -/
structure Startable (q : Sequencer) : Prop where
  busy : q.busy = true
  inactive : q.out = false
  indexLe : q.index.toNat ≤ q.seqCount.toNat
  inArena : q.seqBase.toNat + 5 * q.seqCount.toNat ≤ Config.cap
  highLe : q.highUs.toNat ≤ 498046
  lowLe : q.lowUs.toNat ≤ 1000000
  remLe : q.rem.toNat ≤ 4294836

theorem sequencerOk_startNote {ch : Channel} {s t : State} (hq : Startable (s.seq ch))
    (h : startNote ch s = .next t) : SequencerOk (t.seq ch) (t.timer (timerOf ch)).armed := by
  obtain ⟨hb, ho, hi, ha, h1, h2, h3⟩ := hq
  have hc := (s.seq ch).seqCount.isLt
  have hidx : ∀ j ≤ (s.seq ch).seqCount.toNat - (s.seq ch).index.toNat,
      ((s.seq ch).index.toNat + j % 65536) % 65536 = (s.seq ch).index.toNat + j := by
    intro j hj
    omega
  rcases startNoteLoop_next h with ⟨-, -, rfl⟩ | ⟨j, hj, -, hs⟩
  · have := hidx _ (Nat.le_refl _)
    constructor <;> simp [ho, this] <;> omega
  · have hj' := hidx j (by omega)
    cases hs with
    | delayed n _ _ _ ht =>
      subst ht
      constructor <;> simp [hb, hj'] <;> omega
    | pulsed n _ _ _ hq ht =>
      subst ht
      have e1 := highTime_lt (noteDuty n) (noteFreq n)
      have e2 := lowTime_lt (noteDuty n) (noteFreq n)
      have e3 := pulseCount_lt (noteFreq n) (noteDur n)
      have e4 := lowTime_ge_eight (noteDuty n) hq
      have e5 := pulseWidth_ge hq
      have e6 := highTime_add_lowTime (noteDuty n) (noteFreq n)
      have f1 := Nat.mod_eq_of_lt (show highTime (noteDuty n) (noteFreq n) < 4294967296 by omega)
      have f2 := Nat.mod_eq_of_lt (show lowTime (noteDuty n) (noteFreq n) < 4294967296 by omega)
      have f3 := Nat.mod_eq_of_lt (show pulseCount (noteFreq n) (noteDur n) < 4294967296 by omega)
      constructor <;> simp [hb, hj', f1, f2, f3] <;> omega

/-- The saturating decrement (R150, corner case (c)) is natural-number subtraction. -/
theorem decrementRem_rem (ch : Channel) (s : State) :
    ((decrementRem ch s).seq ch).rem.toNat = (s.seq ch).rem.toNat - 1 := by
  rw [decrementRem_seq]
  by_cases h : (s.seq ch).rem = 0#32
  · simp [h]
  · have h1 := toNat_pos_of_ne_zero h
    have h2 := (s.seq ch).rem.isLt
    simp only [h, if_false, BitVec.toNat_sub, BitVec.toNat_ofNat]
    omega

/-- From a playing sequencer that keeps I3 to I7, the transition on an expiry answers a next state that keeps them
(R150). `armed` is not asked for: the expiry has consumed it. -/
theorem sequencerOk_nextState {ch : Channel} {s : State} (hq : SequencerOk (s.seq ch) true) :
    ∃ t, nextState ch s = .next t ∧ SequencerOk (t.seq ch) (t.timer (timerOf ch)).armed := by
  obtain ⟨hb, hio, hi, hlt, ha, hp, h1, h2, h3⟩ := hq
  have hlt := hlt hb
  unfold nextState getActive
  by_cases ho : (s.seq ch).out = true
  · rw [if_pos ho]
    have hp' := hp hb
    refine ⟨_, rfl, ?_⟩
    constructor <;> simp [hb] <;> omega
  · rw [if_neg ho]
    have ho' : (s.seq ch).out = false := by simpa using ho
    have hr := decrementRem_rem ch s
    have hs := decrementRem_seq ch s
    generalize hd : decrementRem ch s = d at *
    have eb : (d.seq ch).busy = (s.seq ch).busy := by rw [hs]
    have eo : (d.seq ch).out = (s.seq ch).out := by rw [hs]
    have ei : (d.seq ch).index = (s.seq ch).index := by rw [hs]
    have ec : (d.seq ch).seqCount = (s.seq ch).seqCount := by rw [hs]
    have ea : (d.seq ch).seqBase = (s.seq ch).seqBase := by rw [hs]
    have eh : (d.seq ch).highUs = (s.seq ch).highUs := by rw [hs]
    have el : (d.seq ch).lowUs = (s.seq ch).lowUs := by rw [hs]
    unfold nextPeriod
    by_cases hr1 : 1 < (d.seq ch).rem.toNat
    · rw [if_pos hr1]
      have hp' := hp hb (Or.inr (by omega))
      refine ⟨_, rfl, ?_⟩
      constructor <;> simp [eb, ei, ec, ea, eh, el, hb] <;> omega
    · rw [if_neg hr1]
      by_cases hr2 : (d.seq ch).rem.toNat = 1
      · rw [if_pos hr2]
        refine ⟨_, rfl, ?_⟩
        constructor <;> simp [eb, ei, ec, ea, eh, el, eo, hb, ho'] <;> omega
      · rw [if_neg hr2]
        have hc := (s.seq ch).seqCount.isLt
        have hidx : ((d.seq ch).index + 1#16).toNat = (s.seq ch).index.toNat + 1 := by
          rw [ei]
          simp only [BitVec.toNat_add, BitVec.toNat_ofNat]
          omega
        have hst : Startable ((advanceIndex ch d).seq ch) := by
          rw [advanceIndex_seq]
          refine ⟨?_, ?_, ?_, ?_, ?_, ?_, ?_⟩ <;> simp only [eb, eo, ec, ea, eh, el, hidx] <;>
            first | assumption | omega
        obtain ⟨t, ht⟩ := startNote_total ch (advanceIndex ch d) hst.indexLe hst.inArena
        exact ⟨t, ht, sequencerOk_startNote hst ht⟩

/-! ### Start of a sequence (R143) -/

theorem startable_beginSequence {ch : Channel} {base n : Nat} {s : State} (hout : (s.seq ch).out = false)
    (hn : base + 5 * n ≤ Config.cap) (h1 : (s.seq ch).highUs.toNat ≤ 498046)
    (h2 : (s.seq ch).lowUs.toNat ≤ 1000000) (h3 : (s.seq ch).rem.toNat ≤ 4294836) :
    Startable ((beginSequence ch base n s).seq ch) := by
  have hcap : Config.cap = 1024 := rfl
  have e1 : base % 65536 = base := by omega
  have e2 : n % 65536 = n := by omega
  refine ⟨?_, ?_, ?_, ?_, ?_, ?_, ?_⟩ <;> simp [beginSequence, hout, e1, e2] <;> omega

/-- A sequence start with a reference that lies in the arena always answers a next state. -/
theorem seqPlay_total (ch : Channel) (ref : Option (Nat × Nat)) (s : State)
    (h : ∀ base n, ref = some (base, n) → base + 5 * n ≤ Config.cap) : ∃ t, seqPlay ch ref s = .next t := by
  unfold seqPlay
  split
  · rename_i base n _
    have hn := h base n rfl
    have hcap : Config.cap = 1024 := rfl
    apply startNote_total
    · simp [beginSequence]
    · have e1 : base % 65536 = base := by omega
      have e2 : n % 65536 = n := by omega
      simp [beginSequence, e1, e2]
      omega
  · exact ⟨s, rfl⟩

/-- A sequence start keeps I3 to I7 on its channel (R143, R144). -/
theorem sequencerOk_seqPlay {ch : Channel} {ref : Option (Nat × Nat)} {s t : State}
    (hq : SequencerOk (s.seq ch) (s.timer (timerOf ch)).armed)
    (h : ∀ base n, ref = some (base, n) → base + 5 * n ≤ Config.cap)
    (ht : seqPlay ch ref s = .next t) : SequencerOk (t.seq ch) (t.timer (timerOf ch)).armed := by
  unfold seqPlay at ht
  split at ht
  · rename_i base n hst
    have hbusy : (s.seq ch).busy = false := by
      unfold seqPlayStatus at hst
      cases hb : (s.seq ch).busy with
      | false => rfl
      | true => simp [hb] at hst
    exact sequencerOk_startNote
      (startable_beginSequence (hq.idleInactive hbusy) (h base n rfl) hq.highLe hq.lowLe hq.remLe) ht
  · obtain rfl := Host.Outcome.next.inj ht
    exact hq

end Sys2Proof.Machine
end

