-- ==== Sys2Proof/Laws/PerInstr.lean ====
section
/-! SUPPORT. One family of statements per instruction: the word `encode` gives carries the fixed bits of the
instruction's row of spec/opcode_table.json and meets the row's condition. -/

namespace Sys2Proof.Laws.RowBits

/-- A CMD80 word of the row whose `op` is the given one (R102). -/
def IsCommand (op : Byte) (c : CodeWord) : Prop := ∃ w : Cmd80, c = .cmd80 w ∧ w.extractLsb' 0 8 = op

/-- A NOTE40 word of the row of the given kind (R89). -/
def IsNote (k : NoteKind) (c : CodeWord) : Prop := ∃ n : Note40, c = .note40 n ∧ classifyNote n = k

/-- A well-formed instruction is encoded as a word of its own row. -/
def Statement : Instr → Prop
  | .play idx => IsCommand 0x01#8 (encode (.play idx))
  | .isbusy ch => IsCommand 0x02#8 (encode (.isbusy ch))
  | .clear => IsCommand 0x03#8 (encode .clear)
  | .add idx r l => IsCommand 0x04#8 (encode (.add idx r l))
  | .delete idx => IsCommand 0x05#8 (encode (.delete idx))
  | .setnote idx ch k duty freq dur => IsCommand 0x06#8 (encode (.setnote idx ch k duty freq dur))
  | .getnote idx ch k => IsCommand 0x07#8 (encode (.getnote idx ch k))
  | .count => IsCommand 0x08#8 (encode .count)
  | .offset idx => IsCommand 0x09#8 (encode (.offset idx))
  | .notecount idx ch => IsCommand 0x0A#8 (encode (.notecount idx ch))
  | .bytesfree => IsCommand 0x0B#8 (encode .bytesfree)
  | .isvalid => IsCommand 0x0C#8 (encode .isvalid)
  | .load => IsCommand 0x0D#8 (encode .load)
  | .save => IsCommand 0x0E#8 (encode .save)
  | .pclear => IsCommand 0x0F#8 (encode .pclear)
  | .noteSkip ch duty freq => IsNote .skip (encode (.noteSkip ch duty freq))
  | .noteDelayDuty0 ch freq dur =>
    (Instr.noteDelayDuty0 ch freq dur).wellFormed = true → IsNote .delayDuty0 (encode (.noteDelayDuty0 ch freq dur))
  | .noteDelayFreq0 ch duty dur =>
    (Instr.noteDelayFreq0 ch duty dur).wellFormed = true → IsNote .delayFreq0 (encode (.noteDelayFreq0 ch duty dur))
  | .notePulse ch duty freq dur =>
    (Instr.notePulse ch duty freq dur).wellFormed = true → IsNote .pulse (encode (.notePulse ch duty freq dur))

/-- The low part of an append. -/
theorem extract_low {v w : Nat} (x : BitVec w) (y : BitVec v) : (x ++ y).extractLsb' 0 v = y := by
  ext i hi
  simp [BitVec.getElem_extractLsb', BitVec.getLsbD_append, hi]

/-- A slice above the low part of an append. -/
theorem extract_high {v w : Nat} (k n : Nat) (x : BitVec w) (y : BitVec v) :
    (x ++ y).extractLsb' (v + k) n = x.extractLsb' k n := by
  ext i hi
  simp only [BitVec.getElem_extractLsb', BitVec.getLsbD_append]
  split <;> first | omega | (congr 1; omega)

/-- `op` is the low byte of the assembled word. -/
theorem op_cmdWord (f e : U16) (d : Byte) (c : U16) (b a op : Byte) :
    (cmdWord f e d c b a op).extractLsb' 0 8 = op := extract_low _ op

theorem noteDuty_noteWord (duty : Byte) (freq dur : U16) : noteDuty (noteWord duty freq dur) = duty :=
  extract_low _ duty

theorem noteFreq_noteWord (duty : Byte) (freq dur : U16) : noteFreq (noteWord duty freq dur) = freq :=
  (extract_high 0 16 _ duty).trans (extract_low dur freq)

theorem noteDur_noteWord (duty : Byte) (freq dur : U16) : noteDur (noteWord duty freq dur) = dur :=
  (extract_high 16 16 _ duty).trans ((extract_high 0 16 dur freq).trans (by simp))

theorem play (idx : Byte) : Statement (.play idx) := ⟨_, rfl, op_cmdWord ..⟩
theorem isbusy (ch : Channel) : Statement (.isbusy ch) := ⟨_, rfl, op_cmdWord ..⟩
theorem clear : Statement .clear := ⟨_, rfl, op_cmdWord ..⟩
theorem add (idx : Byte) (r l : U16) : Statement (.add idx r l) := ⟨_, rfl, op_cmdWord ..⟩
theorem delete (idx : Byte) : Statement (.delete idx) := ⟨_, rfl, op_cmdWord ..⟩
theorem setnote (idx : Byte) (ch : Channel) (k : U16) (duty : Byte) (freq dur : U16) :
    Statement (.setnote idx ch k duty freq dur) := ⟨_, rfl, op_cmdWord ..⟩
theorem getnote (idx : Byte) (ch : Channel) (k : U16) : Statement (.getnote idx ch k) := ⟨_, rfl, op_cmdWord ..⟩
theorem count : Statement .count := ⟨_, rfl, op_cmdWord ..⟩
theorem offset (idx : Byte) : Statement (.offset idx) := ⟨_, rfl, op_cmdWord ..⟩
theorem notecount (idx : Byte) (ch : Channel) : Statement (.notecount idx ch) := ⟨_, rfl, op_cmdWord ..⟩
theorem bytesfree : Statement .bytesfree := ⟨_, rfl, op_cmdWord ..⟩
theorem isvalid : Statement .isvalid := ⟨_, rfl, op_cmdWord ..⟩
theorem load : Statement .load := ⟨_, rfl, op_cmdWord ..⟩
theorem save : Statement .save := ⟨_, rfl, op_cmdWord ..⟩
theorem pclear : Statement .pclear := ⟨_, rfl, op_cmdWord ..⟩
theorem noteSkip (ch : Channel) (duty : Byte) (freq : U16) : Statement (.noteSkip ch duty freq) :=
  ⟨_, rfl, by simp [classifyNote, noteDur_noteWord]⟩
theorem noteDelayDuty0 (ch : Channel) (freq dur : U16) : Statement (.noteDelayDuty0 ch freq dur) :=
  fun h => ⟨_, rfl, by simp_all [Instr.wellFormed, classifyNote, noteDur_noteWord, noteDuty_noteWord]⟩
theorem noteDelayFreq0 (ch : Channel) (duty : Byte) (dur : U16) : Statement (.noteDelayFreq0 ch duty dur) :=
  fun h => ⟨_, rfl, by
    simp_all [Instr.wellFormed, classifyNote, noteDur_noteWord, noteDuty_noteWord, noteFreq_noteWord]⟩
theorem notePulse (ch : Channel) (duty : Byte) (freq dur : U16) : Statement (.notePulse ch duty freq dur) :=
  fun h => ⟨_, rfl, by
    simp_all [Instr.wellFormed, classifyNote, noteDur_noteWord, noteDuty_noteWord, noteFreq_noteWord]⟩

end Sys2Proof.Laws.RowBits
end

