-- ==== Sys2Proof/Laws/Store.lean ====
section
/-! SUPPORT. The store commands: where a Note slot lies, that a Note write keeps the container (R184), and what ADD, DELETE
and LOAD leave. -/

namespace Sys2Proof.Machine

variable (p : Params)

/-- Blobs of a valid image do not overlap. -/
theorem ValidImage.blob_before {X : Memory} (h : ValidImage p X) {i j : Nat} (hij : i < j) (hj : j < countOf p X) :
    offsetOf p X i + sizeAt p X (offsetOf p X i) ≤ offsetOf p X j := by
  induction j with
  | zero => omega
  | succ j ih =>
    have h1 := h.order j hj
    rcases Nat.lt_or_ge i j with h2 | h2
    · have := ih h2 (by omega)
      omega
    · obtain rfl : i = j := by omega
      exact h1

/-! ### JingleOffset, Notes (R179, R181) -/

theorem jingleOffset_some {X : Memory} {idx o : Nat} (h : jingleOffset p X idx = some o) :
    idx < countOf p X ∧ o = offsetOf p X idx ∧ hdr (countOf p X) ≤ o ∧ o + 4 ≤ Config.cap := by
  unfold jingleOffset at h
  split at h
  · simp at h
  · simp only at h
    split at h
    · simp at h
    · rename_i h1 h2
      obtain rfl := Option.some.inj h
      exact ⟨by omega, rfl, by omega, by omega⟩

theorem jingleOffset_of_valid {X : Memory} (h : ValidImage p X) {idx : Nat} (hi : idx < countOf p X) :
    jingleOffset p X idx = some (offsetOf p X idx) := by
  have h1 := h.start idx hi
  have h2 := h.stop idx hi
  have h3 := four_le_sizeAt p X (offsetOf p X idx)
  unfold jingleOffset
  rw [if_neg (by omega)]
  simp only
  rw [if_neg (by omega)]

/-- Where `Notes` puts a channel's sequence; it always lies in the arena (R142). -/
theorem notesOf_some {X : Memory} {ch : Channel} {idx base n : Nat} (h : notesOf p X ch idx = some (base, n)) :
    idx < countOf p X ∧ hdr (countOf p X) ≤ offsetOf p X idx ∧
      offsetOf p X idx + 4 ≤ base ∧
      base + 5 * n ≤ offsetOf p X idx + sizeAt p X (offsetOf p X idx) ∧
      offsetOf p X idx + sizeAt p X (offsetOf p X idx) ≤ Config.cap := by
  unfold notesOf at h
  split at h
  · simp at h
  · rename_i o ho
    obtain ⟨h1, rfl, h2, h3⟩ := jingleOffset_some p ho
    simp only at h
    split at h
    · simp at h
    · rename_i hc
      have hs : sizeAt p X (offsetOf p X idx) =
          4 + 5 * (rCount p X (offsetOf p X idx) + lCount p X (offsetOf p X idx)) := rfl
      cases ch
      · obtain ⟨rfl, rfl⟩ := Prod.mk.inj (Option.some.inj h)
        exact ⟨h1, h2, by omega, by omega, by omega⟩
      · obtain ⟨rfl, rfl⟩ := Prod.mk.inj (Option.some.inj h)
        exact ⟨h1, h2, by omega, by omega, by omega⟩

theorem notesOf_of_valid {X : Memory} (h : ValidImage p X) {idx : Nat} (hi : idx < countOf p X) (ch : Channel) :
    notesOf p X ch idx =
      match ch with
      | .right => some (offsetOf p X idx + 4, rCount p X (offsetOf p X idx))
      | .left => some (offsetOf p X idx + 4 + 5 * rCount p X (offsetOf p X idx), lCount p X (offsetOf p X idx)) := by
  have h2 := h.stop idx hi
  have hs : sizeAt p X (offsetOf p X idx) =
      4 + 5 * (rCount p X (offsetOf p X idx) + lCount p X (offsetOf p X idx)) := rfl
  unfold notesOf
  rw [jingleOffset_of_valid p h hi]
  refine (if_neg (by omega)).trans ?_
  cases ch <;> rfl

/-! ### Note slots (R183, R184) -/

theorem noteSlot_ok {X : Memory} {idx : Byte} {ch : Channel} {k : U16} {a : Nat}
    (h : noteSlot p X idx ch k = .ok a) :
    ∃ base n, notesOf p X ch idx.toNat = some (base, n) ∧ k.toNat < n ∧ a = base + 5 * k.toNat := by
  unfold noteSlot at h
  split at h
  · simp at h
  · split at h
    · simp at h
    · rename_i base n hn
      split at h
      · simp at h
      · exact ⟨base, n, hn, by omega, by simpa using h.symm⟩

/-- A Note slot lies inside one blob's Notes. -/
theorem noteSlot_bounds {X : Memory} {idx : Byte} {ch : Channel} {k : U16} {a : Nat}
    (h : noteSlot p X idx ch k = .ok a) :
    idx.toNat < countOf p X ∧ hdr (countOf p X) ≤ offsetOf p X idx.toNat ∧
      offsetOf p X idx.toNat + 4 ≤ a ∧
      a + 5 ≤ offsetOf p X idx.toNat + sizeAt p X (offsetOf p X idx.toNat) ∧
      offsetOf p X idx.toNat + sizeAt p X (offsetOf p X idx.toNat) ≤ Config.cap := by
  obtain ⟨base, n, hn, hk, rfl⟩ := noteSlot_ok p h
  obtain ⟨h1, h2, h3, h4, h5⟩ := notesOf_some p hn
  exact ⟨h1, h2, by omega, by omega, h5⟩

theorem noteBytes_length (d : Byte) (f t : U16) : (noteBytes d f t).length = 5 := rfl

/-- The record read back from where it was written (R51, R88). -/
theorem noteAt_writeRange (X : Memory) (a : Nat) (d : Byte) (f t : U16) :
    noteAt p (Memory.writeRange (arenaUnlisted p) X a (noteBytes d f t)) a = noteWord d f t := by
  have h : ∀ k (hk : k < 5), byteAt p (Memory.writeRange (arenaUnlisted p) X a (noteBytes d f t)) (a + k)
      = (noteBytes d f t)[k]'hk := by
    intro k hk
    have hd : a ≤ a + k ∧ a + k < a + (noteBytes d f t).length := ⟨by omega, by rw [noteBytes_length]; omega⟩
    rw [byteAt_writeRange, dif_pos hd]
    congr 1
    omega
  have h0 := h 0 (by omega)
  rw [Nat.add_zero] at h0
  rw [noteAt, h0, h 1 (by omega), h 2 (by omega), h 3 (by omega), h 4 (by omega)]
  simp only [noteBytes, le16, List.cons_append, List.nil_append, List.getElem_cons_zero, List.getElem_cons_succ, noteWord]
  ext i hi
  simp
  grind

/-- A write inside one blob's Notes leaves the header, the table and every blob's counts (R184). -/
theorem container_writeRange {X : Memory} (hv : ValidImage p X) {i a : Nat} {bs : List Byte}
    (hi : i < countOf p X) (h1 : offsetOf p X i + 4 ≤ a)
    (h2 : a + bs.length ≤ offsetOf p X i + sizeAt p X (offsetOf p X i)) :
    let Y := Memory.writeRange (arenaUnlisted p) X a bs
    countOf p Y = countOf p X ∧ (∀ j < countOf p X, offsetOf p Y j = offsetOf p X j) ∧
      (∀ j < countOf p X, rCount p Y (offsetOf p X j) = rCount p X (offsetOf p X j)) ∧
      (∀ j < countOf p X, lCount p Y (offsetOf p X j) = lCount p X (offsetOf p X j)) ∧
      read16 p Y 0 = read16 p X 0 := by
  have hlow := hv.start i hi
  have hsame : ∀ x, x < a → byteAt p (Memory.writeRange (arenaUnlisted p) X a bs) x = byteAt p X x :=
    fun x hx => byteAt_writeRange_of_not_mem p (Or.inl hx)
  have hhdr : hdr (countOf p X) = 6 + 2 * countOf p X := rfl
  have hcounts : ∀ j < countOf p X, ∀ d < 4,
      byteAt p (Memory.writeRange (arenaUnlisted p) X a bs) (offsetOf p X j + d) = byteAt p X (offsetOf p X j + d) := by
    intro j hj d hd
    have h4 := four_le_sizeAt p X (offsetOf p X j)
    rcases Nat.lt_trichotomy j i with h | h | h
    · have := hv.blob_before p h hi
      exact hsame _ (by omega)
    · subst h
      exact hsame _ (by omega)
    · have := hv.blob_before p h hj
      exact byteAt_writeRange_of_not_mem p (Or.inr (by omega))
  refine ⟨?_, fun j hj => ?_, fun j hj => ?_, fun j hj => ?_, ?_⟩
  · simp only [countOf, hsame 4 (by omega)]
  · simp only [offsetOf, read16, hsame (6 + 2 * j) (by omega), hsame (6 + 2 * j + 1) (by omega)]
  · have e0 := hcounts j hj 0 (by omega)
    rw [Nat.add_zero] at e0
    simp only [rCount, read16, e0, hcounts j hj 1 (by omega)]
  · simp only [lCount, read16, Nat.add_assoc, hcounts j hj 2 (by omega), hcounts j hj 3 (by omega)]
  · simp only [read16, hsame 0 (by omega), hsame (0 + 1) (by omega)]

/-- Equal header, table and counts: equal validity and used count. -/
theorem valid_used_congr {X Y : Memory} (hv : ValidImage p X) (hc : countOf p Y = countOf p X)
    (ho : ∀ j < countOf p X, offsetOf p Y j = offsetOf p X j)
    (hr : ∀ j < countOf p X, rCount p Y (offsetOf p X j) = rCount p X (offsetOf p X j))
    (hl : ∀ j < countOf p X, lCount p Y (offsetOf p X j) = lCount p X (offsetOf p X j))
    (hm : read16 p Y 0 = read16 p X 0) : ValidImage p Y ∧ usedOf p Y = usedOf p X := by
  have hs : ∀ j < countOf p X, sizeAt p Y (offsetOf p X j) = sizeAt p X (offsetOf p X j) := by
    intro j hj
    simp only [sizeAt, hr j hj, hl j hj]
  refine ⟨⟨by rw [hm]; exact hv.magic, by rw [hc]; exact hv.header, ?_, ?_, ?_⟩, ?_⟩
  · intro j hj
    rw [hc] at hj
    rw [hc, ho j hj]
    exact hv.start j hj
  · intro j hj
    rw [hc] at hj
    rw [ho j hj, hs j hj]
    exact hv.stop j hj
  · intro j hj
    rw [hc] at hj
    rw [ho j (by omega), ho (j + 1) hj, hs j (by omega)]
    exact hv.order j hj
  · simp only [usedOf, hc]
    congr 2
    apply List.map_congr_left
    intro j hj
    have hj := List.mem_range.1 hj
    rw [ho j hj, hs j hj]

/-- SETNOTE's write keeps validity and the used count (R184). -/
theorem valid_used_writeNote {X : Memory} (hv : isValid p X = true) {idx : Byte} {ch : Channel} {k : U16} {a : Nat}
    (h : noteSlot p X idx ch k = .ok a) (d : Byte) (f t : U16) :
    isValid p (Memory.writeRange (arenaUnlisted p) X a (noteBytes d f t)) = true ∧
      usedOf p (Memory.writeRange (arenaUnlisted p) X a (noteBytes d f t)) = usedOf p X := by
  have hv' := (isValid_iff p X).1 hv
  obtain ⟨h1, -, h3, h4, -⟩ := noteSlot_bounds p h
  obtain ⟨e1, e2, e3, e4, e5⟩ := container_writeRange p hv' (bs := noteBytes d f t) h1 h3 (by rw [noteBytes_length]; exact h4)
  have := valid_used_congr p hv' e1 e2 e3 e4 e5
  exact ⟨(isValid_iff p _).2 this.1, this.2⟩

/-! ### Blob lists of ADD and DELETE -/

theorem flatten_insert_length (J : List (List Byte)) (a : Nat) (b : List Byte) :
    (J.take a ++ [b] ++ J.drop a).flatten.length = J.flatten.length + b.length := by
  have h : J.flatten.length = (J.take a).flatten.length + (J.drop a).flatten.length := by
    rw [← List.length_append, ← List.flatten_append, List.take_append_drop]
  rw [h]
  simp only [List.flatten_append, List.length_append, List.flatten_cons, List.flatten_nil, List.length_nil]
  omega

theorem flatten_erase_length (J : List (List Byte)) {a : Nat} (ha : a < J.length) :
    (J.take a ++ J.drop (a + 1)).flatten.length + J[a].length = J.flatten.length := by
  have h : J.flatten.length = (J.take a).flatten.length + (J.drop a).flatten.length := by
    rw [← List.length_append, ← List.flatten_append, List.take_append_drop]
  rw [h, List.drop_eq_getElem_cons ha]
  simp only [List.flatten_append, List.length_append, List.flatten_cons]
  omega

/-- What ADD packs, packs (R186). -/
theorem packable_insert {J : List (List Byte)} (h : Packable J) {a : Nat} (ha : a ≤ J.length) {b : List Byte}
    (hb : BlobShaped b) (hn : J.length < 255) (hf : hdr J.length + J.flatten.length + (2 + b.length) ≤ Config.cap) :
    Packable (J.take a ++ [b] ++ J.drop a) := by
  have hl : (J.take a ++ [b] ++ J.drop a).length = J.length + 1 := by simp; omega
  refine ⟨by omega, ?_, ?_⟩
  · rw [hl, flatten_insert_length]
    unfold hdr at *
    omega
  · intro c hc
    simp only [List.append_assoc, List.mem_append, List.mem_singleton] at hc
    rcases hc with hc | rfl | hc
    · exact h.shaped c (List.mem_of_mem_take hc)
    · exact hb
    · exact h.shaped c (List.mem_of_mem_drop hc)

/-- What DELETE packs, packs (R188). -/
theorem packable_erase {J : List (List Byte)} (h : Packable J) {a : Nat} (ha : a < J.length) :
    Packable (J.take a ++ J.drop (a + 1)) := by
  have hl : (J.take a ++ J.drop (a + 1)).length + 1 = J.length := by simp; omega
  have h1 := flatten_erase_length J ha
  have h2 := h.fits
  have h3 := h.countLe
  refine ⟨by omega, ?_, ?_⟩
  · unfold hdr at *
    omega
  · intro c hc
    rcases List.mem_append.1 hc with hc | hc
    · exact h.shaped c (List.mem_of_mem_take hc)
    · exact h.shaped c (List.mem_of_mem_drop hc)

/-! ### The arena part of the invariant: canonical form, I1 and I2 -/

/-- I1, I2 and the canonical form of the arena. -/
structure ArenaOk (s : State) : Prop where
  wf : Memory.wf Config.cap (arenaUnlisted p) s.arena = true
  valid : isValid p s.arena = true
  free : s.bytesFree.toNat + usedOf p s.arena = Config.cap

theorem isValid_empty : isValid p emptyImage = true := by
  have h0 : countOf p emptyImage = 0 := rfl
  refine (isValid_iff p _).2 ⟨read16_of_unlisted p rfl rfl, by rw [h0]; decide, ?_, ?_, ?_⟩ <;>
    intro i hi <;> rw [h0] at hi <;> omega

theorem arenaOk_clearArena (s : State) : ArenaOk p (clearArena s) :=
  ⟨Memory.wf_nil _ _, isValid_empty p, rfl⟩

theorem arenaOk_repack {J : List (List Byte)} (h : Packable J) (s : State) :
    ArenaOk p (repack p J (Config.cap - (hdr J.length + J.flatten.length)) s) := by
  have hf := h.fits
  refine ⟨pack_wf p _ _ _ h, isValid_pack p _ _ _ h, ?_⟩
  simp only [repack, usedOf_pack p _ _ _ h, BitVec.toNat_ofNat]
  rw [Nat.mod_eq_of_lt (by simp only [Config.cap] at *; omega)]
  omega

theorem arenaOk_answer {d : BitVec 40} {s : State} (h : ArenaOk p s) : ArenaOk p (answer d s) := ⟨h.1, h.2, h.3⟩
theorem arenaOk_raise {k : Status} {s : State} (h : ArenaOk p s) : ArenaOk p (raise k s) := ⟨h.1, h.2, h.3⟩

/-- ADD in an arena that keeps the invariant, case by case (R186, R252). -/
theorem addJingle_cases {s : State} (h : ArenaOk p s) (idx : Byte) (r l : U16) :
    (countOf p s.arena < idx.toNat ∧ addJingle p idx r l s = raise .badIndex s) ∨
    (idx.toNat ≤ countOf p s.arena ∧ (countOf p s.arena = 255 ∨ s.bytesFree.toNat < addNeed r l) ∧
      addJingle p idx r l s = raise .outOfSpace s) ∨
    (idx.toNat ≤ countOf p s.arena ∧ countOf p s.arena ≠ 255 ∧ addNeed r l ≤ s.bytesFree.toNat ∧
      Packable ((blobsOf p s.arena).take idx.toNat ++ [newBlob r l] ++ (blobsOf p s.arena).drop idx.toNat) ∧
      addJingle p idx r l s = answer 0#40
        (repack p ((blobsOf p s.arena).take idx.toNat ++ [newBlob r l] ++ (blobsOf p s.arena).drop idx.toNat)
          (s.bytesFree.toNat - addNeed r l) s)) := by
  have hv : (!isValid p s.arena) = false := by rw [h.valid]; rfl
  unfold addJingle
  rw [if_neg (by rw [hv]; decide)]
  by_cases h1 : countOf p s.arena < idx.toNat
  · exact Or.inl ⟨h1, by rw [if_pos h1]⟩
  · rw [if_neg h1]
    by_cases h2 : countOf p s.arena = 255 ∨ s.bytesFree.toNat < addNeed r l
    · exact Or.inr (Or.inl ⟨by omega, h2, by rw [if_pos h2]⟩)
    · rw [if_neg h2]
      have hJ := blobsOf_packable p h.valid
      have hlen := blobsOf_length p s.arena
      have hu := usedOf_eq p s.arena
      have hf := h.free
      have hb := newBlob_length r l
      have hn : addNeed r l = 2 + (newBlob r l).length := by rw [hb]; unfold addNeed; omega
      have hc := (byteAt p s.arena 4).isLt
      have hc' : countOf p s.arena < 256 := hc
      refine Or.inr (Or.inr ⟨by omega, by omega, by omega, ?_, rfl⟩)
      have hh : hdr (blobsOf p s.arena).length = hdr (countOf p s.arena) := by rw [hlen]
      exact packable_insert hJ (by omega) (newBlob_shaped r l) (by omega) (by omega)

theorem arenaOk_addJingle {s : State} (h : ArenaOk p s) (idx : Byte) (r l : U16) :
    ArenaOk p (addJingle p idx r l s) := by
  obtain ⟨-, e⟩ | ⟨-, -, e⟩ | ⟨h1, h2, h3, hP, e⟩ := addJingle_cases p h idx r l
  · rw [e]; exact arenaOk_raise p h
  · rw [e]; exact arenaOk_raise p h
  · rw [e]
    have hlen := blobsOf_length p s.arena
    have hu := usedOf_eq p s.arena
    have hf := h.free
    have hb := newBlob_length r l
    have := arenaOk_repack p hP s
    rw [flatten_insert_length] at this
    have hl : ((blobsOf p s.arena).take idx.toNat ++ [newBlob r l] ++ (blobsOf p s.arena).drop idx.toNat).length
        = countOf p s.arena + 1 := by simp [hlen]; omega
    rw [hl] at this
    have hsub : s.bytesFree.toNat - addNeed r l =
        Config.cap - (hdr (countOf p s.arena + 1) + ((blobsOf p s.arena).flatten.length + (newBlob r l).length)) := by
      unfold addNeed hdr at *
      omega
    rw [hsub]
    exact arenaOk_answer p this

/-- DELETE in an arena that keeps the invariant, case by case (R188). -/
theorem deleteJingle_cases {s : State} (h : ArenaOk p s) (idx : Byte) :
    (countOf p s.arena ≤ idx.toNat ∧ deleteJingle p idx s = raise .badIndex s) ∨
    (idx.toNat < countOf p s.arena ∧
      Packable ((blobsOf p s.arena).take idx.toNat ++ (blobsOf p s.arena).drop (idx.toNat + 1)) ∧
      deleteJingle p idx s = answer 0#40
        (repack p ((blobsOf p s.arena).take idx.toNat ++ (blobsOf p s.arena).drop (idx.toNat + 1))
          (s.bytesFree.toNat + (2 + ((blobsOf p s.arena).getD idx.toNat []).length)) s)) := by
  have hv : (!isValid p s.arena) = false := by rw [h.valid]; rfl
  unfold deleteJingle
  rw [if_neg (by rw [hv]; decide)]
  by_cases h1 : countOf p s.arena ≤ idx.toNat
  · exact Or.inl ⟨h1, by rw [if_pos h1]⟩
  · rw [if_neg h1]
    refine Or.inr ⟨by omega, packable_erase (blobsOf_packable p h.valid) ?_, rfl⟩
    rw [blobsOf_length]
    omega

theorem arenaOk_deleteJingle {s : State} (h : ArenaOk p s) (idx : Byte) : ArenaOk p (deleteJingle p idx s) := by
  obtain ⟨-, e⟩ | ⟨h1, hP, e⟩ := deleteJingle_cases p h idx
  · rw [e]; exact arenaOk_raise p h
  · rw [e]
    have hlen := blobsOf_length p s.arena
    have hi : idx.toNat < (blobsOf p s.arena).length := by omega
    have hu := usedOf_eq p s.arena
    have hf := h.free
    have he := flatten_erase_length (blobsOf p s.arena) hi
    have := arenaOk_repack p hP s
    have hl : ((blobsOf p s.arena).take idx.toNat ++ (blobsOf p s.arena).drop (idx.toNat + 1)).length
        = countOf p s.arena - 1 := by simp [hlen]; omega
    rw [hl] at this
    have hg : (blobsOf p s.arena).getD idx.toNat [] = (blobsOf p s.arena)[idx.toNat] := by
      rw [List.getD_eq_getElem?_getD, List.getElem?_eq_getElem hi]
      rfl
    rw [hg]
    have hsub : s.bytesFree.toNat + (2 + (blobsOf p s.arena)[idx.toNat].length) =
        Config.cap - (hdr (countOf p s.arena - 1)
          + ((blobsOf p s.arena).take idx.toNat ++ (blobsOf p s.arena).drop (idx.toNat + 1)).flatten.length) := by
      unfold hdr at *
      omega
    rw [hsub]
    exact arenaOk_answer p this

theorem arenaOk_setNote {s : State} (h : ArenaOk p s) (idx : Byte) (ch : Channel) (k : U16) (d : Byte) (f t : U16) :
    ArenaOk p (setNote p idx ch k d f t s) := by
  unfold setNote
  cases hs : noteSlot p s.arena idx ch k with
  | error e => exact arenaOk_raise p h
  | ok a =>
    obtain ⟨-, -, -, h4, h5⟩ := noteSlot_bounds p hs
    obtain ⟨hv, hu⟩ := valid_used_writeNote p h.valid hs d f t
    refine arenaOk_answer p ⟨Memory.writeRange_wf h.wf ?_, hv, ?_⟩
    · rw [noteBytes_length]
      omega
    · show s.bytesFree.toNat + usedOf p (Memory.writeRange (arenaUnlisted p) s.arena a (noteBytes d f t)) = _
      rw [hu]
      exact h.free

theorem persistRead_length (o n : Nat) (s : State) : (persistRead o n s).length = n := by simp [persistRead]

theorem storedImage_wf (s : State) : Memory.wf Config.cap (arenaUnlisted p) (storedImage p s) = true := by
  unfold storedImage
  refine Memory.cellsFrom_wf _ ?_
  rw [persistRead_length, Nat.zero_add]

/-- Byte `k` of the image in the store (R55). -/
theorem byteAt_storedImage (s : State) {k : Nat} (hk : k < Config.cap) :
    byteAt p (storedImage p s) k = persistByte s (p.persistOffset + k) := by
  unfold storedImage
  rw [byteAt_cellsFrom, dif_pos (by rw [persistRead_length]; omega)]
  simp [persistRead]

/-- The store holds the image `X` when it holds its bytes (R55, R214). -/
theorem storedImage_eq {s : State} {X : Memory} (hw : Memory.wf Config.cap (arenaUnlisted p) X = true)
    (h : ∀ k < Config.cap, persistByte s (p.persistOffset + k) = byteAt p X k) : storedImage p s = X := by
  refine Memory.ext_of_wf (storedImage_wf p s) hw fun a => ?_
  rw [read_arenaUnlisted, read_arenaUnlisted]
  by_cases ha : a < Config.cap
  · rw [byteAt_storedImage p s ha, h a ha]
  · have hn : ∀ Y, Memory.wf Config.cap (arenaUnlisted p) Y = true → Memory.get? Y a = none := by
      intro Y hY
      cases hg : Memory.get? Y a with
      | none => rfl
      | some b => exact absurd (Memory.get?_of_wf hY hg).1 ha
    rw [byteAt_eq, byteAt_eq, hn _ (storedImage_wf p s), hn _ hw]

/-- Writing the store and reading a byte back (R211, `io = ok`). -/
theorem persistByte_writeRange (s : State) (o : Nat) (bs : List Byte) (a : Nat) :
    persistByte { s with persist := Memory.writeRange persistUnlisted s.persist o bs } a =
      if h : o ≤ a ∧ a < o + bs.length then bs[a - o]'(by omega) else persistByte s a := by
  have h := Memory.read_writeRange persistUnlisted s.persist o bs a
  simp only [Memory.read_eq, persistUnlisted, Option.or_none] at h
  unfold persistByte
  rw [h]
  split
  · rename_i hc
    rw [List.getElem?_eq_getElem (by omega)]
    rfl
  · rfl

/-- A write to the store leaves every byte outside its range, whatever `io` is (R211). -/
theorem persistByte_persistWrite_of_not_mem (s : State) {o : Nat} {bs : List Byte} {a : Nat}
    (h : a < o ∨ o + bs.length ≤ a) : persistByte (persistWrite o bs s) a = persistByte s a := by
  have e : ∀ cs : List Byte, cs.length = bs.length →
      persistByte { s with persist := Memory.writeRange persistUnlisted s.persist o cs } a = persistByte s a := by
    intro cs hc
    rw [persistByte_writeRange, dif_neg (by omega)]
  unfold persistWrite
  cases s.io with
  | ok => exact e bs rfl
  | fail => exact e _ (by simp [failedBytes])

/-- The state a LOAD of a valid image leaves, the response apart (R214). -/
def loaded (X : Memory) (s : State) : State :=
  { s with arena := X, bytesFree := BitVec.ofNat 16 (Config.cap - usedOf p X) }

@[simp] theorem loaded_seq (X : Memory) (s : State) (ch : Channel) : (loaded p X s).seq ch = s.seq ch := by
  cases ch <;> rfl
@[simp] theorem loaded_timer (X : Memory) (s : State) (c : TimerId) : (loaded p X s).timer c = s.timer c := by
  cases c <;> rfl
@[simp] theorem loaded_persist (X : Memory) (s : State) : (loaded p X s).persist = s.persist := rfl

/-- LOAD, case by case (R214). -/
theorem loadImage_cases (s : State) :
    (s.io = .fail ∧ loadImage p s = raise .storageIoError (clearArena s)) ∨
    (s.io = .ok ∧ isValid p (storedImage p s) = false ∧
      loadImage p s = raise .invalidPersistedData (clearArena s)) ∨
    (s.io = .ok ∧ isValid p (storedImage p s) = true ∧
      loadImage p s = answer 0#40 (loaded p (storedImage p s) s)) := by
  unfold loadImage
  cases hio : s.io with
  | fail => exact Or.inl ⟨rfl, rfl⟩
  | ok =>
    cases hv : isValid p (storedImage p s) with
    | false => exact Or.inr (Or.inl ⟨rfl, rfl, by simp⟩)
    | true =>
      refine Or.inr (Or.inr ⟨rfl, rfl, ?_⟩)
      simp only [Bool.not_true, Bool.false_eq_true, if_false, loaded, hio]

theorem arenaOk_loaded {X : Memory} (hw : Memory.wf Config.cap (arenaUnlisted p) X = true)
    (hv : isValid p X = true) (s : State) : ArenaOk p (loaded p X s) := by
  have hu := usedOf_le p hv
  have hc : Config.cap = 1024 := rfl
  refine ⟨hw, hv, ?_⟩
  show (BitVec.ofNat 16 (Config.cap - usedOf p X)).toNat + usedOf p X = Config.cap
  rw [BitVec.toNat_ofNat, Nat.mod_eq_of_lt (by omega)]
  omega

/-- LOAD leaves a good arena whatever the store holds (R218). -/
theorem arenaOk_loadImage (s : State) : ArenaOk p (loadImage p s) := by
  obtain ⟨-, e⟩ | ⟨-, -, e⟩ | ⟨-, hv, e⟩ := loadImage_cases p s
  · rw [e]; exact arenaOk_raise p (arenaOk_clearArena p s)
  · rw [e]; exact arenaOk_raise p (arenaOk_clearArena p s)
  · rw [e]; exact arenaOk_answer p (arenaOk_loaded p (storedImage_wf p s) hv s)

end Sys2Proof.Machine
end

