-- ==== Sys2Proof/Tests/Slice0.lean ====
section
/-! SUPPORT. Tests: expected results come from the spec's worked examples (95_test_vectors, named V-… and P…; the examples of
the rules), then a witness for each statement that has hypotheses. -/

open Sys2Proof Sys2Proof.Machine Sys2Proof.Statements

set_option Elab.async false

namespace Sys2Proof.Tests

/-- A check on the next state; false where there is none. -/
def after (o : Host.Outcome State Fault Refusal) (f : State → Bool) : Bool :=
  match o with
  | .next t => f t
  | .fault _ => false
  | .refused _ => false

/-- The response `OK(data)`. -/
def ok (data : Nat) : Option Resp48 := some (BitVec.ofNat 40 data ++ 0#8)

/-- An error response. -/
def err (code : Byte) : Option Resp48 := some (0#40 ++ code)

/-- The state after V-A1, `ADD 0, 2, 1` from reset: one Jingle at 8. -/
def oneJingle : State :=
  { State.reset with arena := [(4, 1#8), (6, 8#8), (8, 2#8), (10, 1#8)], bytesFree := 997#16 }

/-- The state after V-A2: RIGHT Note 0 is (128, 250, 100). -/
def demo : State :=
  { State.reset with
    arena := [(4, 1#8), (6, 8#8), (8, 2#8), (10, 1#8), (12, 0x80#8), (13, 0xFA#8), (15, 0x64#8)]
    bytesFree := 997#16 }

/-- `demo` after PLAY 0 at tick 0 (program P1): RIGHT is in the high phase of Note 0. -/
def playing : State :=
  { demo with
    right := { seqBase := 12#16, seqCount := 2#16, index := 0#16, busy := true, out := true,
               highUs := 1000#32, lowUs := 3000#32, rem := 25#32 }
    left := { Sequencer.reset with seqBase := 22#16, seqCount := 1#16, index := 1#16 }
    timer0 := { matchAt := 1000#32, armed := true } }

/-- RIGHT registers `out`, `rem`, `highUs`, `lowUs` of a one-Note sequence, at tick `T`. -/
def midNote (out : Bool) (rem high low T : U32) : State :=
  { State.reset with
    tick := T
    right := { seqBase := 12#16, seqCount := 1#16, index := 0#16, busy := true, out := out,
               highUs := high, lowUs := low, rem := rem } }

/-- Concrete parameters, for images that spell out MAGIC. -/
def someParams : Params := { magic := 0x1234#16, persistOffset := 0, persistCap := 1024 }

/-! ### Ill-formed terms are refused (R89) -/

theorem smoke_delayDuty0_dur : (Instr.noteDelayDuty0 .right 440#16 0#16).wellFormed = false := by decide
theorem smoke_delayFreq0_dur : (Instr.noteDelayFreq0 .left 9#8 0#16).wellFormed = false := by decide
theorem smoke_delayFreq0_duty : (Instr.noteDelayFreq0 .left 0#8 10#16).wellFormed = false := by decide
theorem smoke_pulse_dur : (Instr.notePulse .right 1#8 1#16 0#16).wellFormed = false := by decide
theorem smoke_pulse_duty : (Instr.notePulse .right 0#8 1#16 1#16).wellFormed = false := by decide
theorem smoke_pulse_freq : (Instr.notePulse .right 1#8 0#16 1#16).wellFormed = false := by decide

/-! ### Words written out from R100, R102 and R88 -/

theorem test_decode_play : decodeCommand 0x00000000000000000001#80 = .instr (.play 0#8) := by decide
theorem test_decode_isbusy : decodeCommand 0x00000000000000010002#80 = .instr (.isbusy .left) := by decide
theorem test_decode_clear : decodeCommand 0x00000000000000000003#80 = .instr .clear := by decide
theorem test_decode_add : decodeCommand 0x00010002000000000304#80 = .instr (.add 3#8 2#16 1#16) := by decide
theorem test_decode_delete : decodeCommand 0x00000000000000000105#80 = .instr (.delete 1#8) := by decide
theorem test_decode_setnote :
    decodeCommand 0x00140064400005010206#80 = .instr (.setnote 2#8 .left 5#16 64#8 100#16 20#16) := by decide
theorem test_decode_getnote :
    decodeCommand 0x00000000000002000107#80 = .instr (.getnote 1#8 .right 2#16) := by decide
theorem test_decode_count : decodeCommand 0x00000000000000000008#80 = .instr .count := by decide
theorem test_decode_offset : decodeCommand 0x00000000000000000209#80 = .instr (.offset 2#8) := by decide
theorem test_decode_notecount :
    decodeCommand 0x0000000000000001030A#80 = .instr (.notecount 3#8 .left) := by decide
theorem test_decode_bytesfree : decodeCommand 0x0000000000000000000B#80 = .instr .bytesfree := by decide
theorem test_decode_isvalid : decodeCommand 0x0000000000000000000C#80 = .instr .isvalid := by decide
theorem test_decode_load : decodeCommand 0x0000000000000000000D#80 = .instr .load := by decide
theorem test_decode_save : decodeCommand 0x0000000000000000000E#80 = .instr .save := by decide
theorem test_decode_pclear : decodeCommand 0x0000000000000000000F#80 = .instr .pclear := by decide
theorem test_decode_undefined :
    decodeCommand 0x00000000000000000000#80 = .badCommand 0#8 ∧
    decodeCommand 0x00000000000000000010#80 = .badCommand 0x10#8 ∧
    decodeCommand 0x000000000000000000FF#80 = .badCommand 0xFF#8 := by decide
/-- V-N12 and V-N19 (dur 0000, freq 0005, duty 05). -/
theorem test_decode_skip : decodeNote .left 0x0000000505#40 = .noteSkip .left 5#8 5#16 ∧
    decodeNote .right 0#40 = .noteSkip .right 0#8 0#16 := by decide
/-- V-N11 (dur 000A, freq 01B8, duty 00) -/
theorem test_decode_delayDuty0 :
    decodeNote .right 0x000A01B800#40 = .noteDelayDuty0 .right 440#16 10#16 := by decide
/-- V-N10 (dur 000A, freq 0000, duty 80) -/
theorem test_decode_delayFreq0 :
    decodeNote .right 0x000A000080#40 = .noteDelayFreq0 .right 128#8 10#16 := by decide
/-- V-N1 (dur 0064, freq 00FA, duty 80) -/
theorem test_decode_pulse :
    decodeNote .right 0x006400FA80#40 = .notePulse .right 128#8 250#16 100#16 := by decide
/-- The opcode table's numbering: 80 bits of a command, 40 bits of a Note, or a prefix of either. -/
theorem test_decode_table :
    decodeTableWord 80 0x0E = some .save ∧ decodeTableWord 8 0x0E = some .save ∧
    decodeTableWord 40 0x006400FA80 = some (.notePulse .right 128#8 250#16 100#16) ∧
    decodeTableWord 40 0 = some (.noteSkip .right 0#8 0#16) ∧
    decodeTableWord 80 0x10 = none := by decide
/-- Lines of the assembler (R112): V-A1, V-A11 and V-A12, a hexadecimal number, and lines that are none. -/
theorem test_assemble :
    assembleLine "ADD 0, 2, 1" = some (.add 0#8 2#16 1#16) ∧
    assembleLine "SETNOTE 0, RIGHT, 0, 1, 1, 1" = some (.setnote 0#8 .right 0#16 1#8 1#16 1#16) ∧
    assembleLine "GETNOTE 0x1, 0, 0" = some (.getnote 1#8 .right 0#16) ∧
    assembleLine "ISBUSY LEFT" = some (.isbusy .left) ∧ assembleLine "CLEAR" = some .clear ∧
    assembleLine "PLAY 256" = none ∧ assembleLine "CLEAR 0" = none ∧ assembleLine "STOP" = none := by
  decide +kernel
/-- R113. -/
theorem test_print : printAll [(1, 1)] =
    [.count, .notecount 0#8 .right, .notecount 0#8 .left, .getnote 0#8 .right 0#16, .getnote 0#8 .left 0#16] := by
  decide

/-! ### Store commands -/

/-- V-A1 -/
theorem test_add : after (exec (.add 0#8 2#16 1#16) State.reset) (fun t =>
    t.response == ok 0 && t.bytesFree == 997#16 && t.arena == oneJingle.arena) = true := by decide +kernel
/-- V-C5: the sum is a natural number, so nothing is truncated to 16 bits. -/
theorem test_add_no_space : after (exec (.add 0#8 65535#16 65535#16) State.reset) (fun t =>
    t.response == err 2#8 && t.bytesFree == 1018#16 && t.arena == []) = true := by decide +kernel
/-- V-A3: insertion in front moves the old Jingle from 8 to 19. -/
theorem test_add_in_front : after (exec (.add 0#8 0#16 1#16) demo) (fun t =>
    t.bytesFree == 986#16 && t.arena ==
      [(4, 2#8), (6, 0x0A#8), (8, 0x13#8), (12, 1#8), (19, 2#8), (21, 1#8), (23, 0x80#8), (24, 0xFA#8), (26, 0x64#8)])
    = true := by decide +kernel
/-- V-A17 -/
theorem test_delete : after (exec (.delete 0#8) demo) (fun t =>
    t.response == ok 0 && t.bytesFree == 1018#16 && t.arena == []) = true := by decide +kernel
/-- V-A18 -/
theorem test_delete_bad : after (exec (.delete 0#8) State.reset) (fun t =>
    t.response == err 1#8 && t.bytesFree == 1018#16) = true := by decide +kernel
/-- V-A2 -/
theorem test_setnote : after (exec (.setnote 0#8 .right 0#16 128#8 250#16 100#16) oneJingle) (fun t =>
    t.response == ok 0 && t.arena == demo.arena && t.bytesFree == 997#16) = true := by decide +kernel
/-- R184 with R241: LEFT has one Note, so `noteIdx = 1` is out of bounds. -/
theorem test_setnote_bad : after (exec (.setnote 0#8 .left 1#16 1#8 1#16 1#16) demo) (fun t =>
    t.response == err 1#8 && t.arena == demo.arena) = true := by decide +kernel
/-- V-A12 (as Jingle 0): the record is the data. -/
theorem test_getnote : after (exec (.getnote 0#8 .right 0#16) demo) (fun t =>
    t.response == ok 0x006400FA80) = true := by decide +kernel
/-- V-A13 (as Jingle 0) -/
theorem test_getnote_bad : after (exec (.getnote 0#8 .right 2#16) demo) (fun t =>
    t.response == err 1#8) = true := by decide +kernel
theorem test_count : after (exec .count demo) (fun t => t.response == ok 1) = true := by decide +kernel
/-- The example of R179. -/
theorem test_offset : after (exec (.offset 0#8) demo) (fun t => t.response == ok 8) = true := by decide +kernel
theorem test_offset_bad : after (exec (.offset 1#8) demo) (fun t => t.response == err 1#8) = true := by
  decide +kernel
/-- The example of R182. -/
theorem test_notecount : after (exec (.notecount 0#8 .right) demo) (fun t => t.response == ok 2) = true := by
  decide +kernel
theorem test_notecount_left : after (exec (.notecount 0#8 .left) demo) (fun t => t.response == ok 1) = true := by
  decide +kernel
/-- The example of R190. -/
theorem test_bytesfree : after (exec .bytesfree State.reset) (fun t => t.response == ok 1018) = true := by
  decide +kernel
theorem test_isvalid : after (exec .isvalid demo) (fun t => t.response == ok 1) = true := by decide +kernel
theorem test_clear : after (exec .clear demo) (fun t =>
    t.response == ok 0 && t.arena == [] && t.bytesFree == 1018#16) = true := by decide +kernel

/-! ### Validity (R174) -/

/-- V-L2, V-L3, V-L6, V-L7, V-L10 are valid. -/
theorem test_valid_images :
    isValid Config.params [] = true ∧
    isValid Config.params [(2, 0x5A#8), (3, 0xA5#8), (5, 0x77#8)] = true ∧
    isValid Config.params [(4, 1#8), (6, 8#8), (8, 0xCA#8)] = true ∧
    isValid Config.params [(4, 1#8), (6, 0xFC#8), (7, 3#8)] = true ∧
    isValid Config.params [(4, 2#8), (6, 0x0A#8), (8, 0x0E#8)] = true := by decide +kernel
/-- V-L4, V-L5, V-L8, V-L9, V-L11, V-L1 are not. -/
theorem test_invalid_images :
    isValid Config.params [(4, 1#8), (6, 6#8)] = false ∧
    isValid Config.params [(4, 1#8), (6, 8#8), (8, 0xCB#8)] = false ∧
    isValid Config.params [(4, 1#8), (6, 0xFD#8), (7, 3#8)] = false ∧
    isValid Config.params [(4, 2#8), (6, 0x0A#8), (8, 0x0A#8)] = false ∧
    isValid Config.params [(4, 2#8), (6, 0x14#8), (8, 0x0A#8)] = false ∧
    isValid someParams [(0, 0x35#8), (4, 1#8), (6, 8#8), (8, 2#8), (10, 1#8)] = false := by decide +kernel
/-- V-L7: the gap counts as free. V-L14: the first ADD packs the arena, the blob moves from 1020 to 10. -/
theorem test_gap_is_free : usedOf Config.params [(4, 1#8), (6, 0xFC#8), (7, 3#8)] = 12 ∧
    (addJingle Config.params 1#8 0#16 0#16
      { State.reset with arena := [(4, 1#8), (6, 0xFC#8), (7, 3#8)], bytesFree := 1012#16 }).arena =
      [(4, 2#8), (6, 0x0A#8), (8, 0x0E#8)] := by decide +kernel

/-! ### Persistence -/

/-- V-L13 -/
theorem test_load_io : after (exec .load { demo with io := .fail }) (fun t =>
    t.response == err 6#8 && t.arena == [] && t.bytesFree == 1018#16) = true := by decide +kernel
/-- R246 for SAVE and PCLEAR. -/
theorem test_save_io : after (exec .save { demo with io := .fail }) (fun t =>
    t.response == err 6#8 && t.arena == demo.arena) = true := by decide +kernel
theorem test_pclear_io : after (exec .pclear { demo with io := .fail }) (fun t =>
    t.response == err 6#8 && t.freeCount == 1) = true := by decide +kernel
/-- The example of R212, with MAGIC and PERSIST_OFFSET written out. -/
theorem test_save : (let t := saveImage someParams State.reset
    t.response == ok 0 && Memory.get? t.persist 0 == some 0x34#8 && Memory.get? t.persist 1 == some 0x12#8
      && Memory.get? t.persist 2 == some 0#8 && Memory.get? t.persist 1023 == some 0#8
      && Memory.get? t.persist 1024 == none) = true := by decide +kernel
/-- R216: six bytes, and only six. -/
theorem test_pclear : (clearStored someParams { demo with persist := [(4, 1#8), (6, 8#8)] }).persist =
    [(0, 0#8), (1, 0#8), (2, 0#8), (3, 0#8), (4, 0#8), (5, 0#8), (6, 8#8)] := by decide +kernel

/-! ### PLAY and ISBUSY -/

/-- R229: PLAY 0 starts RIGHT at Note 0; LEFT's single Note is skipped inside the step. -/
theorem test_play : after (exec (.play 0#8) demo) (fun t =>
    t == { playing with response := ok 0 }) = true := by decide +kernel
/-- P1, the second PLAY: RIGHT is AlreadyPlaying, LEFT starts (and ends) again. -/
theorem test_play_busy : after (exec (.play 0#8) playing) (fun t =>
    t == { playing with response := ok 3 }) = true := by decide +kernel
/-- R153. -/
theorem test_isbusy : after (exec (.isbusy .right) playing) (fun t => t.response == ok 1) = true := by
  decide +kernel
theorem test_isbusy_left : after (exec (.isbusy .left) playing) (fun t => t.response == ok 0) = true := by
  decide +kernel

/-! ### Notes -/

/-- V-N12 -/
theorem test_note_skip : after (exec (.noteSkip .left 5#8 5#16) demo) (fun t =>
    t == { demo with left := { demo.left with index := 1#16 } }) = true := by decide +kernel
/-- V-N20: the largest delay. -/
theorem test_note_delay : after (exec (.noteDelayDuty0 .right 0#16 65535#16) State.reset) (fun t =>
    t.right.rem == 1#32 && t.right.out == false && t.timer0 == { matchAt := 65535000#32, armed := true }) = true := by
  decide +kernel
/-- V-N10 -/
theorem test_note_delay_freq0 : after (exec (.noteDelayFreq0 .left 128#8 10#16) State.reset) (fun t =>
    t.left.rem == 1#32 && t.left.highUs == 0#32 && t.timer1 == { matchAt := 10000#32, armed := true }
      && t.timer0 == Timer.reset) = true := by
  decide +kernel
/-- V-N1 -/
theorem test_note_pulse : after (exec (.notePulse .right 128#8 250#16 100#16) State.reset) (fun t =>
    t.right.out && t.right.highUs == 1000#32 && t.right.lowUs == 3000#32 && t.right.rem == 25#32
      && t.timer0 == { matchAt := 1000#32, armed := true }) = true := by decide +kernel
/-- V-N18: the largest products. -/
theorem test_note_pulse_max : after (exec (.notePulse .left 1#8 65535#16 65535#16) State.reset) (fun t =>
    t.left.highUs == 0#32 && t.left.lowUs == 15#32 && t.left.rem == 4294836#32) = true := by decide +kernel

/-! ### The transition on an expiry, and the timers -/

/-- V-X2 and V-X3: the next pulse, and the gap period. -/
theorem test_next_pulse : after (nextState .right (midNote false 25#32 1000#32 3000#32 7#32)) (fun t =>
    t.right.out && t.right.rem == 24#32 && t.timer0 == { matchAt := 1007#32, armed := true }) = true := by
  decide +kernel
theorem test_gap_period : after (nextState .right (midNote false 2#32 1000#32 3000#32 7#32)) (fun t =>
    !t.right.out && t.right.rem == 1#32 && t.timer0 == { matchAt := 4007#32, armed := true }) = true := by
  decide +kernel
/-- V-X5: at `rem = 0` the decrement saturates and the Note completes. -/
theorem test_saturating : after (nextState .right (midNote false 0#32 500#32 1500#32 7#32)) (fun t =>
    t.right.rem == 0#32 && t.right.index == 1#16 && !t.right.busy) = true := by decide +kernel
/-- V-X9: the compare value wraps. -/
theorem test_match_wraps : after (nextState .right (midNote true 2#32 250#32 750#32 0xFFFFFFFA#32)) (fun t =>
    !t.right.out && t.right.rem == 2#32 && t.timer0 == { matchAt := 0x2E8#32, armed := true }) = true := by
  decide +kernel
/-- V-T2 -/
theorem test_tick_wraps : after (step { State.reset with tick := 0xFFFFFFFF#32 }) (fun t =>
    t.tick == 0#32) = true := by decide +kernel
/-- V-T3: `Tick` is not enabled where an expiry is due. -/
theorem test_tick_blocked :
    tickEnabled { State.reset with tick := 1000#32, timer0 := { matchAt := 1000#32, armed := true } } = false := by
  decide +kernel
/-- V-T5 and V-T6. -/
theorem test_rearm_disarm :
    (armAt .c0 20#32 { State.reset with timer0 := { matchAt := 9#32, armed := true } }).timer0
      = { matchAt := 20#32, armed := true } ∧
    (disarm .c0 { State.reset with timer0 := { matchAt := 9#32, armed := true } }).timer0
      = { matchAt := 9#32, armed := false } := by decide +kernel
/-- R247: an undefined opcode. -/
theorem test_bad_command : after (step { demo with schedule := [.cmd 0x00000000000000000010#80 .ok] }) (fun t =>
    t == { demo with response := err 7#8 }) = true := by decide +kernel
/-- R270: Reset during playback; the store keeps its bytes. -/
theorem test_reset : after (step { playing with schedule := [.reset], persist := [(3, 9#8)] }) (fun t =>
    t == { State.reset with persist := [(3, 9#8)] }) = true := by decide +kernel
/-- A word placed by `withFetchWord` is what the next step runs: a command, and a Note. -/
theorem test_placed_command : after (step (State.reset.withFetchWord 80 0x00010002000000000004)) (fun t =>
    t.response == ok 0 && t.arena == oneJingle.arena) = true := by decide +kernel
theorem test_placed_note : after (step (State.reset.withFetchWord 40 0x006400FA80)) (fun t =>
    t.right.rem == 25#32 && t.right.out && t.timer0 == { matchAt := 1000#32, armed := true }) = true := by
  decide +kernel

/-! ### Witnesses: states and operands that meet the hypotheses of the statements -/

/-- A state with the given steps scheduled. -/
def scheduled (es : List Event) (s : State) : State := { s with schedule := es }

/-- A valid arena whose Jingle table is full enough that exactly 6 bytes are free: two Jingles of 100 Notes. -/
def tight : State :=
  { State.reset with
    arena := [(4, 2#8), (6, 10#8), (8, 2#8), (9, 2#8), (10, 100#8), (514, 100#8)]
    bytesFree := 6#16 }

/-- An arena that is not valid: the entry of Jingle 0 points into the header (V-L4). -/
def broken : State := { State.reset with arena := [(4, 1#8), (6, 6#8)] }

/-- An arena whose Jingle 0 has its counts in bounds and its Notes out of bounds (V-L5). -/
def overlong : State := { State.reset with arena := [(4, 1#8), (6, 8#8), (8, 0xCB#8)] }

/-- RIGHT plays a Delay Note that ends at tick 7. -/
def atEnd : State := { midNote false 1#32 0#32 0#32 7#32 with timer0 := { matchAt := 7#32, armed := true } }

/-- Both channels at the end of a Delay Note, at tick 7. -/
def bothEnd : State := { atEnd with left := atEnd.right, timer1 := atEnd.timer0 }

theorem ok_reset : SequencerOk Sequencer.reset false := by
  constructor <;> simp [Sequencer.reset, Config.cap]

theorem inv_reset_like (s : State) (hr : s.right = .reset) (hl : s.left = .reset) (h0 : s.timer0 = .reset)
    (h1 : s.timer1 = .reset) (h2 : s.timer2 = .reset) (hp : s.persist = [])
    (ha : Memory.wf Config.cap (arenaUnlisted Config.params) s.arena = true)
    (hv : isValid Config.params s.arena = true)
    (hf : s.bytesFree.toNat + usedOf Config.params s.arena = Config.cap) : Inv s := by
  refine ⟨ha, by rw [hp]; rfl, hv, hf, ?_, ?_, by rw [h2]; rfl⟩
  · rw [hr, h0]; exact ok_reset
  · rw [hl, h1]; exact ok_reset

/-- EveryStepKeepsTheInvariant, EnabledStepsComplete…, IsvalidAnswers…, AddThenDelete…, SaveThenLoad…, QuiescentBlock…: states
other than the reset state that meet the invariant. -/
theorem wit_inv_demo : Inv demo :=
  inv_reset_like demo rfl rfl rfl rfl rfl rfl (by decide +kernel) (by decide +kernel) (by decide +kernel)
theorem wit_inv_tight : Inv tight :=
  inv_reset_like tight rfl rfl rfl rfl rfl rfl (by decide +kernel) (by decide +kernel) (by decide +kernel)
theorem wit_inv_playing : Inv playing := by
  refine ⟨by decide +kernel, rfl, by decide +kernel, by decide +kernel, ?_, ?_, rfl⟩
  · constructor <;> simp [playing, Config.cap]
  · constructor <;> simp [playing, demo, State.reset, Timer.reset, Sequencer.reset, Config.cap]

/-- OpcodeSelectsTheCommand: a word for each clause, at the ends of the undefined ranges too. -/
theorem wit_opcodes :
    [0x00#80, 0x01#80, 0x02#80, 0x03#80, 0x04#80, 0x05#80, 0x06#80, 0x07#80, 0x08#80, 0x09#80, 0x0A#80, 0x0B#80,
      0x0C#80, 0x0D#80, 0x0E#80, 0x0F#80, 0x10#80, 0xFF#80].map (fun w => w.extractLsb' 0 8) =
    [0x00#8, 0x01#8, 0x02#8, 0x03#8, 0x04#8, 0x05#8, 0x06#8, 0x07#8, 0x08#8, 0x09#8, 0x0A#8, 0x0B#8,
      0x0C#8, 0x0D#8, 0x0E#8, 0x0F#8, 0x10#8, 0xFF#8] := by decide
/-- EveryRecordIsOneNote: a record for each row, at the least values of its fields. -/
theorem wit_records :
    noteDur 0x0000000101#40 = 0#16 ∧
    (noteDur 0x0001000100#40 ≠ 0#16 ∧ noteDuty 0x0001000100#40 = 0#8) ∧
    (noteDur 0x0001000001#40 ≠ 0#16 ∧ noteDuty 0x0001000001#40 ≠ 0#8 ∧ noteFreq 0x0001000001#40 = 0#16) ∧
    (noteDur 0x0001000101#40 ≠ 0#16 ∧ noteDuty 0x0001000101#40 ≠ 0#8 ∧ noteFreq 0x0001000101#40 ≠ 0#16) := by decide
/-- DecodeOfEncodeIsTheInstruction, PulsedNoteLatchesItsArithmetic, NoteArithmeticStaysInItsBounds: both ends of each field. -/
theorem wit_wellFormed :
    (Instr.notePulse .right 1#8 1#16 1#16).wellFormed = true ∧
    (Instr.notePulse .left 255#8 65535#16 65535#16).wellFormed = true ∧
    (Instr.noteDelayDuty0 .right 0#16 1#16).wellFormed = true ∧
    (Instr.noteDelayFreq0 .left 255#8 65535#16).wellFormed = true ∧ Instr.clear.wellFormed = true := by decide
/-- CommandStepIsExecOfTheDecodedWord -/
theorem wit_command : (scheduled [.cmd 0x0E#80 .fail, .tick] demo).schedule = .cmd 0x0E#80 .fail :: [.tick] ∧
    decodeCommand 0x0E#80 = .instr .save := by decide +kernel
/-- NoteStartRunsTheFetchedNote: the end of a sequence, a Skip Note, and a Pulsed Note. -/
theorem wit_noteStart :
    (demo.seq .right).index = (demo.seq .right).seqCount ∧
    ((playing.seq .right).index.toNat < (playing.seq .right).seqCount.toNat ∧
      fetchNote .right playing = some 0x006400FA80#40 ∧ noteDur 0x006400FA80#40 ≠ 0#16) ∧
    ((advanceIndex .right playing).right.index.toNat < (advanceIndex .right playing).right.seqCount.toNat ∧
      fetchNote .right (advanceIndex .right playing) = some 0#40 ∧ noteDur 0#40 = 0#16) := by decide +kernel
/-- NoteFetchReadsTheArenaNow: the last five bytes of the arena. -/
theorem wit_fetch :
    let s := { State.reset with left := { Sequencer.reset with seqBase := 1019#16, seqCount := 1#16 } }
    (s.seq .left).seqBase.toNat + 5 * (s.seq .left).index.toNat + 5 = 1024 := by decide
/-- ExpiryTransitionFollowsTheFourCases: one state a case, and the saturating one. -/
theorem wit_transition :
    ((midNote true 25#32 1000#32 3000#32 0#32).seq .right).out = true ∧
    (((midNote false 3#32 1#32 1#32 0#32).seq .right).out = false ∧
      (2#32).toNat = ((midNote false 3#32 1#32 1#32 0#32).seq .right).rem.toNat - 1 ∧ 1 < (2#32).toNat) ∧
    ((1#32).toNat = ((midNote false 2#32 1#32 1#32 0#32).seq .right).rem.toNat - 1 ∧ (1#32).toNat = 1) ∧
    ((0#32).toNat = ((midNote false 1#32 1#32 1#32 0#32).seq .right).rem.toNat - 1 ∧
      (0#32).toNat = ((midNote false 0#32 1#32 1#32 0#32).seq .right).rem.toNat - 1) := by decide
/-- DueExpiryRunsItsHandler, for each channel. -/
theorem wit_due :
    let s := scheduled [.expire .c2] { bothEnd with timer2 := { matchAt := 7#32, armed := true } }
    s.schedule = .expire .c2 :: [] ∧ ∀ c, (s.timer c).armed = true ∧ s.tick = (s.timer c).matchAt := by
  refine ⟨rfl, fun c => ?_⟩
  cases c <;> decide
/-- ExpiryStepStaysOnItsChannel -/
theorem wit_expiryStep : ∃ t, (scheduled [.expire (timerOf .right)] atEnd).schedule = .expire (timerOf .right) :: [] ∧
    step (scheduled [.expire (timerOf .right)] atEnd) = .next t := ⟨_, rfl, rfl⟩
/-- ExpiriesOfTheTwoChannelsCommute -/
theorem wit_commute : ∃ s1 s2, Channel.right ≠ .left ∧ expire (timerOf .right) bothEnd = .next s1 ∧
    expire (timerOf .left) s1 = .next s2 := ⟨_, _, by decide, rfl, rfl⟩
/-- R155: the bounds hold at the ends of every field, and the condition is not true of everything. -/
theorem test_note_bounds : noteInBounds 1#8 1#16 1#16 = true ∧ noteInBounds 255#8 65535#16 65535#16 = true ∧
    noteInBounds 1#8 65535#16 1#16 = true ∧ noteInBounds 255#8 1#16 65535#16 = true ∧
    noteInBounds 255#8 0#16 1#16 = false := by decide
/-- PulsedNoteMakesItsWaveform, at N = 65 (V-N5) -/
theorem wit_waveform : ∃ s1, 255#8 ≠ 0#8 ∧ 65535#16 ≠ 0#16 ∧ 1#16 ≠ 0#16 ∧ PlaysAlone .left demo ∧
    exec (.notePulse .left 255#8 65535#16 1#16) demo = .next s1 :=
  ⟨_, by decide, by decide, by decide, ⟨rfl, fun c _ => by cases c <;> rfl⟩, rfl⟩
/-- PulsedNoteMakesItsWaveform, at N = 0 (V-N4), N = 1 (V-N9) and N = 2 (V-N7). -/
theorem wit_waveform_small : ∃ s0 s1 s2, PlaysAlone .right State.reset ∧
    (1#16).toNat * (500#16).toNat / 1000 = 0 ∧ exec (.notePulse .right 128#8 500#16 1#16) State.reset = .next s0 ∧
    (1#16).toNat * (1000#16).toNat / 1000 = 1 ∧ exec (.notePulse .right 128#8 1000#16 1#16) State.reset = .next s1 ∧
    (2#16).toNat * (1000#16).toNat / 1000 = 2 ∧ exec (.notePulse .right 128#8 1000#16 2#16) State.reset = .next s2 :=
  ⟨_, _, _, ⟨rfl, fun c _ => by cases c <;> rfl⟩, rfl, rfl, rfl, rfl, rfl, rfl⟩
/-- `P` holds in `s` and after each of the next `k` steps. -/
def stays (P : State → Bool) : Nat → State → Bool
  | 0, s => P s
  | k + 1, s => P s && after (step s) (stays P k)

theorem stays_run {P : State → Bool} {k : Nat} {s : State} (h : stays P k s = true) {j : Nat} (hj : j ≤ k) :
    ∃ u, core.run j s = .next u ∧ P u = true := by
  induction j generalizing k s with
  | zero => exact ⟨s, rfl, by cases k <;> simp_all [stays]⟩
  | succ j ih =>
    obtain ⟨k, rfl⟩ : ∃ m, k = m + 1 := ⟨k - 1, by omega⟩
    have h2 : after (step s) (stays P k) = true := (Bool.and_eq_true _ _ |>.mp h).2
    cases hs : step s with
    | next t =>
      rw [hs] at h2
      obtain ⟨u, hu, hP⟩ := ih (s := t) h2 (by omega)
      refine ⟨u, ?_, hP⟩
      have hc : core.step s = .next t := hs
      simp only [Host.Core.run]
      rw [hc]
      exact hu
    | fault r => rw [hs] at h2; exact absurd h2 (by simp [after])
    | refused r => rw [hs] at h2; exact absurd h2 (by simp [after])

/-- LEFT with a Note of N = 1 just started (period 500 µs), RIGHT's timer channel armed and due. -/
def beside : State := startPulsed .left 128#8 1999#16 1#16 atEnd

/-- WaveformBesideTheOtherChannel, both clauses: RIGHT's expiry and the end of the high phase are behind, 499 µs in all, and the next
step ends the period. -/
theorem wit_beside : exec (.notePulse .left 128#8 1999#16 1#16) atEnd = .next beside ∧ atEnd.schedule = [] ∧
    due .c0 beside = true ∧
    (∀ j ≤ 501, ∃ u, core.run j beside = .next u ∧ (u.tick - atEnd.tick).toNat < 500) ∧
    ∃ v, core.run 501 beside = .next v ∧ due (timerOf .left) v = false ∧
      ∃ u, step v = .next u ∧ (u.tick - atEnd.tick).toNat = 500 := by
  have h : stays (fun u => decide ((u.tick - atEnd.tick).toNat < 500)) 501 beside = true := by decide +kernel
  have hl : after (core.run 501 beside) (fun v => !due (timerOf .left) v
      && after (step v) (fun u => decide ((u.tick - atEnd.tick).toNat = 500))) = true := by decide +kernel
  refine ⟨rfl, rfl, rfl, fun j hj => ?_, ?_⟩
  · obtain ⟨u, hu, hP⟩ := stays_run h hj
    exact ⟨u, hu, by simpa using hP⟩
  · cases hr : core.run 501 beside with
    | next v =>
      rw [hr] at hl
      obtain ⟨h1, h2⟩ := Bool.and_eq_true _ _ |>.mp hl
      cases hs : step v with
      | next u =>
        rw [hs] at h2
        exact ⟨v, rfl, by simpa using h1, u, hs, by simpa [after] using h2⟩
      | fault r => rw [hs] at h2; exact absurd h2 (by simp [after])
      | refused r => rw [hs] at h2; exact absurd h2 (by simp [after])
    | fault r => rw [hr] at hl; exact absurd hl (by simp [after])
    | refused r => rw [hr] at hl; exact absurd hl (by simp [after])
/-- DelayNoteLastsItsDuration, for both rows. -/
theorem wit_delay : ∃ s1 s2, 1#16 ≠ 0#16 ∧ PlaysAlone .right State.reset ∧
    exec (.noteDelayDuty0 .right 0#16 1#16) State.reset = .next s1 ∧
    exec (.noteDelayFreq0 .right 255#8 1#16) State.reset = .next s2 :=
  ⟨_, _, by decide, ⟨rfl, fun c _ => by cases c <;> rfl⟩, rfl, rfl⟩
/-- SequenceStartTestsBusyFirst -/
theorem wit_seqPlay : (playing.seq .right).busy = true ∧ (playing.seq .left).busy = false := by decide
/-- PlayStartsEachChannelOnItsOwn: no such Jingle; a start, a busy channel, an empty sequence. -/
theorem wit_play : jingles demo ≤ (1#8).toNat ∧ (0#8).toNat < jingles demo ∧ startCode .right demo 0#8 = 0 ∧
    startCode .right playing 0#8 = 3 ∧ startCode .left tight 0#8 = 4 := by decide +kernel
/-- OffsetAnswersTheTableEntry: at the count, below it with a good entry, and with a bad one. -/
theorem wit_offset : jingles demo ≤ (1#8).toNat ∧ (0#8).toNat < jingles demo ∧
    jingleOffset Config.params demo.arena 0 = some 8 ∧ isValid Config.params demo.arena = true ∧
    (0#8).toNat < jingles broken ∧ jingleOffset Config.params broken.arena 0 = none := by decide +kernel
/-- NotesViewOfABlob, NotecountAnswersTheCount, GetnoteAnswersTheRecord, SetnoteWritesFiveBytes: the three outcomes of the view,
and the last and first-past-last Note. -/
theorem wit_notes :
    jingles demo ≤ (1#8).toNat ∧
    (jingleOffset Config.params overlong.arena 0 = some 8 ∧ (0#8).toNat < jingles overlong ∧
      notesOf Config.params overlong.arena .left 0 = none) ∧
    notesOf Config.params demo.arena .right (0#8).toNat = some (12, 2) ∧ 2 ≤ (2#16).toNat ∧ (1#16).toNat < 2 := by
  decide +kernel
/-- AddInsertsAZeroedJingle and AddMovesTheOtherBlobs: an invalid arena, an index past the end, no room, and an ADD that takes
the last 6 bytes. A count of 255 is in no valid arena of 1024 bytes (R193). -/
theorem wit_add :
    isValid Config.params broken.arena = false ∧ isValid Config.params demo.arena = true ∧
    jingles demo < (2#8).toNat ∧ (1#8).toNat ≤ jingles demo ∧ demo.bytesFree.toNat < 2 + 4 + 5 * (199 + 0) ∧
    packed Config.params tight.arena = true ∧ (2#8).toNat ≤ jingles tight ∧ jingles tight ≠ 255 ∧
    2 + 4 + 5 * (0 + 0) = tight.bytesFree.toNat ∧
    tight.bytesFree.toNat + usedOf Config.params tight.arena = 1024 := by decide +kernel
/-- AddMovesTheOtherBlobs and AddThenDeleteRestores -/
theorem wit_add_ok : ∃ t, packed Config.params demo.arena = true ∧
    demo.bytesFree.toNat + usedOf Config.params demo.arena = 1024 ∧
    exec (.add 1#8 1#16 1#16) demo = .next t ∧ t.response = some (0#40 ++ 0#8) :=
  ⟨addJingle Config.params 1#8 1#16 1#16 demo, by decide +kernel, by decide +kernel, rfl, by decide +kernel⟩
/-- DeleteRemovesTheJingle -/
theorem wit_delete : isValid Config.params broken.arena = false ∧ isValid Config.params demo.arena = true ∧
    jingles demo ≤ (1#8).toNat ∧ (0#8).toNat < jingles demo ∧
    demo.bytesFree.toNat + usedOf Config.params demo.arena = 1024 := by decide +kernel

/-- A store that holds the image `X`. -/
def stored (X : Memory) : State :=
  { State.reset with
    persist := Memory.writeRange persistUnlisted [] Config.params.persistOffset (readBytes Config.params X 0 Config.cap) }

theorem storedImage_stored {X : Memory} (hw : Memory.wf Config.cap (arenaUnlisted Config.params) X = true) :
    storedImage Config.params (stored X) = X := by
  refine storedImage_eq _ hw fun k hk => ?_
  refine (persistByte_writeRange State.reset _ _ _).trans ?_
  rw [dif_pos (by simp [readBytes]; exact hk)]
  simp [readBytes]

/-- LoadCopiesAValidImage: a failed read, an invalid image, a valid one. -/
theorem wit_load : { demo with io := .fail }.io = .fail ∧
    ((stored broken.arena).io = .ok ∧ isValid Config.params (storedImage Config.params (stored broken.arena)) = false) ∧
    ((stored demo.arena).io = .ok ∧ isValid Config.params (storedImage Config.params (stored demo.arena)) = true) := by
  refine ⟨rfl, ⟨rfl, ?_⟩, rfl, ?_⟩
  · rw [storedImage_stored (by decide +kernel)]; decide +kernel
  · rw [storedImage_stored (by decide +kernel)]; decide +kernel
/-- PclearZeroesTheStoredHeader, with the LOAD after it -/
theorem wit_pclear : ∃ t u, demo.io = .ok ∧ exec .pclear demo = .next t ∧ u.io = .ok ∧
    ∀ k < 1024, persistByte u (imageBase + k) = persistByte t (imageBase + k) :=
  ⟨_, _, rfl, rfl, rfl, fun _ _ => rfl⟩
/-- SaveThenLoadRestoresTheArena -/
theorem wit_saveThenLoad : ∃ t u, Inv demo ∧ demo.io = .ok ∧ exec .save demo = .next t ∧ u.io = .ok ∧
    ∀ k < 1024, persistByte u (imageBase + k) = persistByte t (imageBase + k) :=
  ⟨saveImage Config.params demo, saveImage Config.params demo, wit_inv_demo, rfl, rfl, by decide +kernel, fun _ _ => rfl⟩
/-- OutsideWriteChangesOneStoreByte and Ready: the first address, the last one and the first that does not exist. -/
theorem wit_outside : (scheduled [.outsideWrite 0 1#8] demo).schedule = .outsideWrite 0 1#8 :: [] ∧
    0 < Config.params.persistCap ∧ Config.params.persistCap - 1 < Config.params.persistCap ∧
    Config.params.persistCap ≤ Config.params.persistCap := by
  have h : Config.params.persistCap = Config.persistOffset + Config.cap + Config.persistSlack := rfl
  simp only [Config.cap] at h
  exact ⟨rfl, by omega, by omega, Nat.le_refl _⟩
/-- TickAdvancesOnlyTheCounter and TimeNeverPassesADueExpiry -/
theorem wit_tick : ∃ t, (scheduled [.tick] demo).schedule = .tick :: [] ∧ enabled .tick (scheduled [.tick] demo) = true ∧
    step (scheduled [.tick] demo) = .next t ∧ t.tick ≠ (scheduled [.tick] demo).tick := ⟨_, rfl, rfl, rfl, by decide⟩
/-- RelativeArmIsDueAfterDelta: the least and the greatest delta. -/
theorem wit_armRel : 0 < 2 ^ 32 ∧ 0 ≤ 0 ∧ 2 ^ 32 - 1 < 2 ^ 32 ∧ 2 ^ 32 - 2 ≤ 2 ^ 32 - 1 := by decide
/-- StepTakesTheScheduledEvent: a step that is not enabled; two expiries due and nothing scheduled. -/
theorem wit_notEnabled : (scheduled [.expire .c0] demo).schedule = .expire .c0 :: [] ∧
    enabled (.expire .c0) (scheduled [.expire .c0] demo) = false ∧
    bothEnd.schedule = [] ∧ due .c0 bothEnd = true ∧ due .c1 bothEnd = true ∧ (∀ c, due c demo = false) := by
  refine ⟨rfl, by decide, rfl, by decide, by decide, fun c => by cases c <;> rfl⟩
/-- The Reset clauses of the whole-machine rules. -/
theorem wit_reset : ∃ t, (scheduled [.reset] playing).schedule = .reset :: [] ∧ takenEvent (scheduled [.reset] playing) = .reset ∧
    step (scheduled [.reset] playing) = .next t ∧ (playing.seq .right).busy = true ∧ (t.seq .right).busy = false ∧
    t.arena ≠ playing.arena := ⟨_, rfl, rfl, rfl, rfl, rfl, by decide⟩
/-- UndefinedOpcodeAnswersBadCommand: both ends of the undefined ranges. -/
theorem wit_undefined : (scheduled [.cmd 0x10#80 .ok] demo).schedule = .cmd 0x10#80 .ok :: [] ∧
    (0x00#80).extractLsb' 0 8 = 0x00#8 ∧ 0x10#8 ≤ (0x10#80).extractLsb' 0 8 ∧
    0x10#8 ≤ (0xFF#80).extractLsb' 0 8 := by decide +kernel
/-- ErrorsArePrecise: an error of DELETE, of LOAD, of SAVE and of PCLEAR. -/
theorem wit_errors :
    after (step (scheduled [.cmd 0x105#80 .ok] demo)) (fun t => t.response == err 1#8) = true ∧
    after (step (scheduled [.cmd 0x0D#80 .fail] demo)) (fun t => t.response == err 6#8) = true ∧
    after (step (scheduled [.cmd 0x0E#80 .fail] demo)) (fun t => t.response == err 6#8) = true ∧
    after (step (scheduled [.cmd 0x0F#80 .fail] demo)) (fun t => t.response == err 6#8) = true := by decide +kernel
/-- BusyRisesByPlayAndFallsByExpiry, ResponsesCarryAStatusCode and CommandsButPlay…: a PLAY, and the last expiry of a sequence. -/
theorem wit_busy :
    after (step (scheduled [.cmd 0x01#80 .ok] demo)) (fun t => t.right.busy && t.response == ok 0) = true ∧
    demo.right.busy = false ∧
    after (step atEnd) (fun t => !t.right.busy) = true ∧ atEnd.right.busy = true ∧
    takenEvent atEnd = .expire (timerOf .right) := by decide +kernel
/-- OnlyStoreCommandsWriteTheArena: each of the five commands can. -/
theorem wit_arena :
    after (step (scheduled [.cmd 0x03#80 .ok] demo)) (fun t => t.arena != demo.arena) = true ∧
    after (step (scheduled [.cmd 0x00000000000000000004#80 .ok] demo)) (fun t => t.arena != demo.arena) = true ∧
    after (step (scheduled [.cmd 0x05#80 .ok] demo)) (fun t => t.arena != demo.arena) = true ∧
    after (step (scheduled [.cmd 0x00010001010000000006#80 .ok] demo)) (fun t => t.arena != demo.arena) = true ∧
    after (step (scheduled [.cmd 0x0D#80 .fail] demo)) (fun t => t.arena != demo.arena) = true := by decide +kernel
/-- BlockWritesOnlyTheImageRegion -/
theorem wit_store : ∃ t, step (scheduled [.cmd 0x0F#80 .ok] demo) = .next t ∧
    (∀ a b, takenEvent (scheduled [.cmd 0x0F#80 .ok] demo) ≠ .outsideWrite a b) ∧
    t.persist ≠ (scheduled [.cmd 0x0F#80 .ok] demo).persist := ⟨_, rfl, nofun, nofun⟩
/-- EnabledStepsCompleteUnderTheInvariant: nothing scheduled, a command scheduled. -/
theorem wit_ready : Ready demo ∧ Ready (scheduled [.cmd 0x01#80 .ok] demo) := ⟨trivial, rfl⟩
/-- PrintChangesNoState -/
theorem wit_print : Instr.getnote 0#8 .left 0#16 ∈ printAll [(2, 1)] := by decide
/-- TimeGoesOnWithinFourExpiries: a channel with a zero-width pulse about to start. -/
theorem wit_timeGoesOn : Inv { playing with
      right := { playing.right with out := false, highUs := 0#32, lowUs := 15#32, rem := 65#32 }
      timer0 := { matchAt := 0#32, armed := true } } ∧ playing.schedule = [] := by
  refine ⟨⟨by decide +kernel, rfl, by decide +kernel, by decide +kernel, ?_, ?_, rfl⟩, rfl⟩
  · constructor <;> simp [playing, Config.cap]
  · constructor <;> simp [playing, demo, State.reset, Timer.reset, Sequencer.reset, Config.cap]
/-- QuiescentBlockIsSilent -/
theorem wit_quiescent : Inv demo ∧ quiescent demo = true := ⟨wit_inv_demo, rfl⟩

end Sys2Proof.Tests
end

section
/-! PROOF. The step a state takes when one is scheduled (R17, R57), and what a command step runs (R100). -/

namespace Sys2Proof.Machine

/-- A scheduled step is the one taken, on the state with the schedule advanced. -/
theorem step_of_schedule_cons {s : State} {e : Event} {rest : List Event} (h : s.schedule = e :: rest) :
    step s = runEvent e { s with schedule := rest } := by
  simp only [step, runStep, h]

/-- A command may be presented in every state (R57). -/
@[simp] theorem runEvent_cmd (w : Cmd80) (io : IoOutcome) (s : State) :
    runEvent (.cmd w io) s = runCommand w io s := rfl

theorem runCommand_of_decode {w : Cmd80} {i : Instr} (h : decodeCommand w = .instr i) (io : IoOutcome) (s : State) :
    runCommand w io s = exec i { s with io := io } := by
  simp only [runCommand, h]

/-- Settles O5: the scheduled command is the step taken, and it is always enabled. -/
theorem commandStepIsExecOfTheDecodedWord : Obligations.CommandStepIsExecOfTheDecodedWord := by
  intro s w io rest i hsched hdec
  calc step s = runEvent (.cmd w io) { s with schedule := rest } := step_of_schedule_cons hsched
    _ = runCommand w io { s with schedule := rest } := runEvent_cmd w io _
    _ = exec i { s with schedule := rest, io := io } := runCommand_of_decode hdec io _

end Sys2Proof.Machine
end

section
/-! PROOF. The event layer, each fact said once: what a step starts from (R57), what an expiry and an outside write
leave unchanged (R125, R38), and what a command can change at all (R102, R107). -/

open Sys2Proof.Statements

namespace Sys2Proof.Machine

/-- A step that answers a next state is the effect of the event taken, enabled, from a state that differs from `s` in
the model's own schedule and choice counter only (R57). -/
theorem step_next {s t : State} (h : step s = .next t) :
    ∃ rest n, enabled (takenEvent s) { s with schedule := rest, freeCount := n } = true ∧
      eventEffect (takenEvent s) { s with schedule := rest, freeCount := n } = .next t := by
  have hrun : ∃ rest n, runEvent (takenEvent s) { s with schedule := rest, freeCount := n } = .next t := by
    cases hs : s.schedule with
    | cons e rest =>
      refine ⟨rest, s.freeCount, ?_⟩
      simpa only [takenEvent, hs] using (step_of_schedule_cons hs).symm.trans h
    | nil =>
      have hd : drawChoice s = { s with schedule := [], freeCount := (drawChoice s).freeCount } := by
        unfold drawChoice
        split <;> rw [← hs]
      refine ⟨[], (drawChoice s).freeCount, ?_⟩
      rw [← hd]
      simpa only [takenEvent, step, runStep, hs] using h
  obtain ⟨rest, n, hrun⟩ := hrun
  refine ⟨rest, n, ?_⟩
  unfold runEvent at hrun
  split at hrun
  · exact ⟨by assumption, hrun⟩
  · cases hrun

/-- An expiry leaves the arena, `bytesFree` and the store (R125). -/
theorem expire_frame {c : TimerId} {s t : State} (h : expire c s = .next t) :
    t.arena = s.arena ∧ t.bytesFree = s.bytesFree ∧ t.persist = s.persist := by
  have of_channel : ∀ ch, expire (timerOf ch) s = .next t →
      t.arena = s.arena ∧ t.bytesFree = s.bytesFree ∧ t.persist = s.persist := by
    intro ch h
    obtain ⟨ha, hf, -, hp, -⟩ := (onlyChannel_expire h).frame
    exact ⟨ha, hf, hp⟩
  cases c with
  | c0 => exact of_channel .right h
  | c1 => exact of_channel .left h
  | c2 =>
    obtain rfl := Host.Outcome.next.inj h
    simp

theorem outsideWrite_next {a : Nat} {b : Byte} {s t : State} (h : outsideWrite a b s = .next t) :
    a < Config.params.persistCap ∧
      t = { s with persist := Memory.writeRange persistUnlisted s.persist a [b] } := by
  unfold outsideWrite at h
  split at h
  · exact ⟨by assumption, (Host.Outcome.next.inj h).symm⟩
  · cases h

theorem andThen_next {o : Host.Outcome State Fault Refusal} {f : State → Host.Outcome State Fault Refusal}
    {t : State} (h : andThen o f = .next t) : ∃ u, o = .next u ∧ f u = .next t := by
  cases o with
  | next u => exact ⟨u, rfl, h⟩
  | fault r => cases h
  | refused r => cases h

/-! ### Opcodes -/

/-- The `op` of a command (R102); a Note has none. -/
def commandOp : Instr → Option Byte
  | .play _ => some 0x01#8
  | .isbusy _ => some 0x02#8
  | .clear => some 0x03#8
  | .add _ _ _ => some 0x04#8
  | .delete _ => some 0x05#8
  | .setnote _ _ _ _ _ _ => some 0x06#8
  | .getnote _ _ _ => some 0x07#8
  | .count => some 0x08#8
  | .offset _ => some 0x09#8
  | .notecount _ _ => some 0x0A#8
  | .bytesfree => some 0x0B#8
  | .isvalid => some 0x0C#8
  | .load => some 0x0D#8
  | .save => some 0x0E#8
  | .pclear => some 0x0F#8
  | .noteSkip _ _ _ => none
  | .noteDelayDuty0 _ _ _ => none
  | .noteDelayFreq0 _ _ _ => none
  | .notePulse _ _ _ _ => none

/-- The decoder answers a command, and the one its word's `op` names (R102). -/
theorem commandOp_of_decode {w : Cmd80} {i : Instr} (h : decodeCommand w = .instr i) :
    commandOp i = some (cmdOp w) := by
  unfold decodeCommand at h
  split at h
  case h_16 => cases h
  all_goals
    rename_i hop
    obtain rfl := Decoded.instr.inj h
    exact congrArg some (BitVec.eq_of_toNat_eq hop.symm)

/-! ### What each kind of command can change -/

theorem getNote_responds (p : Params) (idx : Byte) (ch : Channel) (k : U16) (s : State) :
    ∃ r, getNote p idx ch k s = { s with response := r } := by
  unfold getNote
  split <;> exact ⟨_, rfl⟩

theorem queryOffset_responds (p : Params) (idx : Byte) (s : State) :
    ∃ r, queryOffset p idx s = { s with response := r } := by
  unfold queryOffset
  split
  · exact ⟨_, rfl⟩
  · split <;> exact ⟨_, rfl⟩

theorem queryNoteCount_responds (p : Params) (idx : Byte) (ch : Channel) (s : State) :
    ∃ r, queryNoteCount p idx ch s = { s with response := r } := by
  unfold queryNoteCount
  split
  · exact ⟨_, rfl⟩
  · split <;> exact ⟨_, rfl⟩

/-- `t` differs from `s` in the arena, `bytesFree` and the response port only. -/
def OnlyArena (s t : State) : Prop := ∃ A n r, t = { s with arena := A, bytesFree := n, response := r }

theorem onlyArena_clearArena (s : State) : OnlyArena s (clearArena s) := ⟨_, _, s.response, rfl⟩

theorem onlyArena_loaded (p : Params) (X : Memory) (s : State) : OnlyArena s (loaded p X s) := ⟨_, _, s.response, rfl⟩

theorem OnlyArena.then_answer {s t : State} (h : OnlyArena s t) (d : BitVec 40) : OnlyArena s (answer d t) := by
  obtain ⟨A, n, r, rfl⟩ := h
  exact ⟨A, n, _, rfl⟩

theorem OnlyArena.then_raise {s t : State} (h : OnlyArena s t) (k : Status) : OnlyArena s (raise k t) := by
  obtain ⟨A, n, r, rfl⟩ := h
  exact ⟨A, n, _, rfl⟩

theorem onlyArena_addJingle (p : Params) (idx : Byte) (r l : U16) (s : State) :
    OnlyArena s (addJingle p idx r l s) := by
  unfold addJingle
  split
  · exact ⟨_, _, _, rfl⟩
  · split
    · exact ⟨_, _, _, rfl⟩
    · split <;> exact ⟨_, _, _, rfl⟩

theorem onlyArena_deleteJingle (p : Params) (idx : Byte) (s : State) : OnlyArena s (deleteJingle p idx s) := by
  unfold deleteJingle
  split
  · exact ⟨_, _, _, rfl⟩
  · split <;> exact ⟨_, _, _, rfl⟩

theorem onlyArena_setNote (p : Params) (idx : Byte) (ch : Channel) (k : U16) (duty : Byte) (freq dur : U16) (s : State) :
    OnlyArena s (setNote p idx ch k duty freq dur s) := by
  unfold setNote
  split <;> exact ⟨_, _, _, rfl⟩

theorem onlyArena_loadImage (p : Params) (s : State) : OnlyArena s (loadImage p s) := by
  obtain ⟨-, h⟩ | ⟨-, -, h⟩ | ⟨-, -, h⟩ := loadImage_cases p s <;> rw [h]
  · exact (onlyArena_clearArena s).then_raise _
  · exact (onlyArena_clearArena s).then_raise _
  · exact (onlyArena_loaded p _ s).then_answer _

/-- `t` differs from `s` in the store, the choice counter and the response port only; bytes outside the image region
are as before, and the store stays in canonical form (R38, R55). -/
structure OnlyStored (s t : State) : Prop where
  fields : ∃ P n r, t = { s with persist := P, freeCount := n, response := r }
  outside : ∀ a, OutsideImage a → persistByte t a = persistByte s a
  wf : Memory.wf Config.params.persistCap persistUnlisted s.persist = true →
    Memory.wf Config.params.persistCap persistUnlisted t.persist = true

/-- The image region lies in the store (R10). -/
theorem persistOffset_add_cap_le : Config.params.persistOffset + Config.cap ≤ Config.params.persistCap :=
  Nat.le_add_right (Config.persistOffset + Config.cap) Config.persistSlack

theorem persistWrite_wf {size o : Nat} {bs : List Byte} {s : State} (h : o + bs.length ≤ size)
    (hs : Memory.wf size persistUnlisted s.persist = true) :
    Memory.wf size persistUnlisted (persistWrite o bs s).persist = true := by
  unfold persistWrite
  cases s.io with
  | ok => exact Memory.writeRange_wf hs h
  | fail => exact Memory.writeRange_wf hs (by simpa [failedBytes] using h)

theorem persistWrite_fields (o : Nat) (bs : List Byte) (s : State) :
    ∃ P n, persistWrite o bs s = { s with persist := P, freeCount := n } := by
  unfold persistWrite
  split <;> exact ⟨_, _, rfl⟩

theorem storeStatus_responds (io : IoOutcome) (s : State) : ∃ r, storeStatus io s = { s with response := r } := by
  cases io <;> exact ⟨_, rfl⟩

/-- A write of at most `CAP` bytes at the image's offset stays inside the image region (R55, R211). -/
theorem onlyStored_persistWrite {bs : List Byte} (hbs : bs.length ≤ Config.cap) (s : State) :
    OnlyStored s (storeStatus s.io (persistWrite Config.params.persistOffset bs s)) := by
  have hcap := persistOffset_add_cap_le
  obtain ⟨r, hr⟩ := storeStatus_responds s.io (persistWrite Config.params.persistOffset bs s)
  rw [hr]
  refine ⟨?_, fun a ha => ?_, persistWrite_wf (by omega)⟩
  · obtain ⟨P, n, hw⟩ := persistWrite_fields Config.params.persistOffset bs s
    rw [hw]
    exact ⟨P, n, r, rfl⟩
  · refine persistByte_persistWrite_of_not_mem s ?_
    rcases ha with ha | ha
    · exact Or.inl ha
    · have hle : Config.params.persistOffset + 1024 ≤ a := ha
      simp only [Config.cap] at hbs
      omega

theorem onlyStored_saveImage (s : State) : OnlyStored s (saveImage Config.params s) :=
  onlyStored_persistWrite (readBytes_length Config.params s.arena 0 Config.cap).le s

theorem onlyStored_clearStored (s : State) : OnlyStored s (clearStored Config.params s) :=
  onlyStored_persistWrite (by decide) s

/-- Everything a command of opcode `op` can do (R102): the commands fall into four groups. -/
inductive CommandEffect (op : Byte) (s t : State) : Prop where
  /-- The queries, and every command that is refused before it writes (R107, R248). -/
  | responds (r : Option Resp48) (ht : t = { s with response := r })
  /-- CLEAR, ADD, DELETE, SETNOTE, LOAD (R170). -/
  | writesArena (hop : op ∈ [0x03#8, 0x04#8, 0x05#8, 0x06#8, 0x0D#8]) (ht : OnlyArena s t)
      (hok : ArenaOk Config.params s → ArenaOk Config.params t)
  /-- SAVE, PCLEAR (R212, R216). -/
  | writesStore (hop : op = 0x0E#8 ∨ op = 0x0F#8) (ht : OnlyStored s t)
  /-- PLAY: a start on RIGHT, then one on LEFT (R225). -/
  | plays (hop : op = 0x01#8) (idx : Nat) (u v : State) (d : BitVec 40)
      (hr : seqPlay .right (notesOf Config.params s.arena .right idx) s = .next u)
      (hl : seqPlay .left (notesOf Config.params s.arena .left idx) u = .next v) (ht : t = answer d v)

theorem commandEffect_execPlay {idx : Byte} {s t : State} (h : execPlay idx s = .next t) :
    CommandEffect 0x01#8 s t := by
  unfold execPlay at h
  split at h
  · exact .responds _ (Host.Outcome.next.inj h).symm
  · obtain ⟨u, hr, h⟩ := andThen_next h
    obtain ⟨v, hl, h⟩ := andThen_next h
    exact .plays rfl idx.toNat u v _ hr hl (Host.Outcome.next.inj h).symm

/-- The meaning of every command is one of the four groups. -/
theorem commandEffect_exec {i : Instr} {op : Byte} {s t : State} (hop : commandOp i = some op)
    (h : exec i s = .next t) : CommandEffect op s t := by
  cases i with
  | play idx => cases hop; exact commandEffect_execPlay h
  | isbusy ch => cases h; exact .responds _ rfl
  | clear =>
    cases hop; cases h
    exact .writesArena (by decide) ⟨_, _, _, rfl⟩ fun _ => arenaOk_answer _ (arenaOk_clearArena _ s)
  | add idx r l =>
    cases hop; cases h
    exact .writesArena (by decide) (onlyArena_addJingle ..) fun hs => arenaOk_addJingle _ hs idx r l
  | delete idx =>
    cases hop; cases h
    exact .writesArena (by decide) (onlyArena_deleteJingle ..) fun hs => arenaOk_deleteJingle _ hs idx
  | setnote idx ch k duty freq dur =>
    cases hop; cases h
    exact .writesArena (by decide) (onlyArena_setNote ..) fun hs => arenaOk_setNote _ hs idx ch k duty freq dur
  | getnote idx ch k => cases h; exact (getNote_responds _ idx ch k s).elim .responds
  | count => cases h; exact .responds _ rfl
  | offset idx => cases h; exact (queryOffset_responds _ idx s).elim .responds
  | notecount idx ch => cases h; exact (queryNoteCount_responds _ idx ch s).elim .responds
  | bytesfree => cases h; exact .responds _ rfl
  | isvalid => cases h; exact .responds _ rfl
  | load =>
    cases hop; cases h
    exact .writesArena (by decide) (onlyArena_loadImage ..) fun _ => arenaOk_loadImage _ s
  | save => cases hop; cases h; exact .writesStore (.inl rfl) (onlyStored_saveImage s)
  | pclear => cases hop; cases h; exact .writesStore (.inr rfl) (onlyStored_clearStored s)
  | noteSkip | noteDelayDuty0 | noteDelayFreq0 | notePulse => cases hop

/-- A command step, an undefined opcode included: the effect is that of its `op`, from `s` with some store input latched
(R100, R103, R210). -/
theorem commandEffect_runCommand {w : Cmd80} {io : IoOutcome} {s t : State} (h : runCommand w io s = .next t) :
    ∃ j, CommandEffect (cmdOp w) { s with io := j } t := by
  cases hd : decodeCommand w with
  | instr i =>
    rw [runCommand_of_decode hd] at h
    exact ⟨io, commandEffect_exec (commandOp_of_decode hd) h⟩
  | badCommand op =>
    simp only [runCommand, hd] at h
    exact ⟨s.io, .responds _ (Host.Outcome.next.inj h).symm⟩

section Frames
variable {op : Byte} {s t : State}

/-- The commands that can write the arena or `bytesFree` (R170). -/
theorem CommandEffect.arena_frame (h : CommandEffect op s t) (hop : op ∉ [0x03#8, 0x04#8, 0x05#8, 0x06#8, 0x0D#8]) :
    t.arena = s.arena ∧ t.bytesFree = s.bytesFree := by
  cases h with
  | responds r ht => subst ht; exact ⟨rfl, rfl⟩
  | writesArena hop' => exact absurd hop' hop
  | writesStore _ ht => obtain ⟨P, n, r, rfl⟩ := ht.fields; exact ⟨rfl, rfl⟩
  | plays _ idx u v d hr hl ht =>
    obtain ⟨hra, hrf, -⟩ := (onlyChannel_seqPlay hr).frame
    obtain ⟨hla, hlf, -⟩ := (onlyChannel_seqPlay hl).frame
    subst ht
    exact ⟨hla.trans hra, hlf.trans hrf⟩

/-- The commands that can write the store (R38). -/
theorem CommandEffect.persist_frame (h : CommandEffect op s t) (hop : ¬(op = 0x0E#8 ∨ op = 0x0F#8)) :
    t.persist = s.persist := by
  cases h with
  | responds r ht => subst ht; rfl
  | writesArena _ ht => obtain ⟨A, n, r, rfl⟩ := ht; rfl
  | writesStore hop' => exact absurd hop' hop
  | plays _ idx u v d hr hl ht =>
    obtain ⟨-, -, -, hrp, -⟩ := (onlyChannel_seqPlay hr).frame
    obtain ⟨-, -, -, hlp, -⟩ := (onlyChannel_seqPlay hl).frame
    subst ht
    exact hlp.trans hrp

/-- Equal stores hold equal bytes. -/
theorem persistByte_congr (h : t.persist = s.persist) (a : Nat) : persistByte t a = persistByte s a := by
  unfold persistByte
  rw [h]

/-- No command writes the store outside the image region (R38, R55). -/
theorem CommandEffect.outside_image (h : CommandEffect op s t) {a : Nat} (ha : OutsideImage a) :
    persistByte t a = persistByte s a := by
  by_cases hop : op = 0x0E#8 ∨ op = 0x0F#8
  · cases h with
    | responds r ht => subst ht; rfl
    | writesArena _ ht => obtain ⟨A, n, r, rfl⟩ := ht; rfl
    | writesStore _ ht => exact ht.outside a ha
    | plays hop' => subst hop'; exact absurd hop (by decide)
  · exact persistByte_congr (h.persist_frame hop) a

/-- No command moves time or touches timer channel 2 (R62, R129). -/
theorem CommandEffect.time_frame (h : CommandEffect op s t) : t.tick = s.tick ∧ t.timer2 = s.timer2 := by
  cases h with
  | responds r ht => subst ht; exact ⟨rfl, rfl⟩
  | writesArena _ ht => obtain ⟨A, n, r, rfl⟩ := ht; exact ⟨rfl, rfl⟩
  | writesStore _ ht => obtain ⟨P, n, r, rfl⟩ := ht.fields; exact ⟨rfl, rfl⟩
  | plays _ idx u v d hr hl ht =>
    have hr := onlyChannel_seqPlay hr
    have hl := onlyChannel_seqPlay hl
    have hrc : u.timer .c2 = s.timer .c2 := hr.timer_of_ne (by decide)
    have hlc : v.timer .c2 = u.timer .c2 := hl.timer_of_ne (by decide)
    subst ht
    exact ⟨hl.frame.2.2.1.trans hr.frame.2.2.1, hlc.trans hrc⟩

/-- No command but PLAY touches a sequencer, an output or a timer channel of one (R27, R62). -/
theorem CommandEffect.channel_frame (h : CommandEffect op s t) (hop : op ≠ 0x01#8) :
    t.right = s.right ∧ t.left = s.left ∧ t.timer0 = s.timer0 ∧ t.timer1 = s.timer1 := by
  cases h with
  | responds r ht => subst ht; exact ⟨rfl, rfl, rfl, rfl⟩
  | writesArena _ ht => obtain ⟨A, n, r, rfl⟩ := ht; exact ⟨rfl, rfl, rfl, rfl⟩
  | writesStore _ ht => obtain ⟨P, n, r, rfl⟩ := ht.fields; exact ⟨rfl, rfl, rfl, rfl⟩
  | plays hop' => exact absurd hop' hop

end Frames

end Sys2Proof.Machine
end

section
/-! PROOF. The invariant (R32): the reset state meets it (R37) and every kind of step keeps it. -/

namespace Sys2Proof.Machine

/-! ### The invariant in its parts: arena, store, channels -/

theorem Inv.arenaOk {s : State} (h : Inv s) : ArenaOk Config.params s := ⟨h.arenaWf, h.valid, h.free⟩

theorem Inv.sequencerOk {s : State} (h : Inv s) (ch : Channel) :
    SequencerOk (s.seq ch) (s.timer (timerOf ch)).armed := by
  cases ch with
  | right => exact h.rightOk
  | left => exact h.leftOk

theorem ArenaOk.congr {p : Params} {s t : State} (h : ArenaOk p s) (ha : t.arena = s.arena)
    (hf : t.bytesFree = s.bytesFree) : ArenaOk p t :=
  ⟨ha ▸ h.wf, ha ▸ h.valid, by rw [ha, hf]; exact h.free⟩

theorem inv_of_parts {s : State} (ha : ArenaOk Config.params s)
    (hp : Memory.wf Config.params.persistCap persistUnlisted s.persist = true)
    (hq : ∀ ch, SequencerOk (s.seq ch) (s.timer (timerOf ch)).armed) (h2 : s.timer2.armed = false) : Inv s :=
  ⟨ha.wf, hp, ha.valid, ha.free, hq .right, hq .left, h2⟩

/-- The invariant does not speak of time, the ports, the schedule or the choice counter, and of the store it asks the
canonical form only. -/
theorem Inv.with_store {s : State} (hs : Inv s) {P : Memory}
    (hp : Memory.wf Config.params.persistCap persistUnlisted P = true) (tick : U32) (rest : List Event)
    (io : IoOutcome) (r : Option Resp48) (n : Nat) :
    Inv { s with persist := P, tick := tick, schedule := rest, io := io, response := r, freeCount := n } :=
  ⟨hs.arenaWf, hp, hs.valid, hs.free, hs.rightOk, hs.leftOk, hs.spareIdle⟩

theorem Inv.with_ports {s : State} (hs : Inv s) (tick : U32) (rest : List Event) (io : IoOutcome)
    (r : Option Resp48) (n : Nat) :
    Inv { s with tick := tick, schedule := rest, io := io, response := r, freeCount := n } :=
  hs.with_store hs.persistWf tick rest io r n

/-- The arena and `bytesFree` matter only through I1, I2 and the canonical form. -/
theorem Inv.of_onlyArena {s t : State} (hs : Inv s) (h : OnlyArena s t) (ha : ArenaOk Config.params t) : Inv t := by
  obtain ⟨A, n, r, rfl⟩ := h
  exact ⟨ha.wf, hs.persistWf, ha.valid, ha.free, hs.rightOk, hs.leftOk, hs.spareIdle⟩

theorem Inv.of_onlyStored {s t : State} (hs : Inv s) (h : OnlyStored s t) : Inv t := by
  have hp := h.wf hs.persistWf
  obtain ⟨P, n, r, rfl⟩ := h.fields
  exact hs.with_store hp ..

/-- A step on one channel keeps the invariant as soon as it keeps I3 to I7 there (R141, R152). -/
theorem Inv.of_onlyChannel {ch : Channel} {s t : State} (hs : Inv s) (h : OnlyChannel ch s t)
    (hq : SequencerOk (t.seq ch) (t.timer (timerOf ch)).armed) : Inv t := by
  obtain ⟨ha, hf, -, hp, -⟩ := h.frame
  have hspare : t.timer .c2 = s.timer .c2 := h.timer_of_ne (by cases ch <;> decide)
  refine inv_of_parts (hs.arenaOk.congr ha hf) (hp ▸ hs.persistWf) (fun d => ?_)
    ((congrArg Timer.armed hspare).trans hs.spareIdle)
  by_cases hd : d = ch
  · exact hd ▸ hq
  · have htimer : timerOf d ≠ timerOf ch := by revert hd; cases d <;> cases ch <;> decide
    rw [h.seq_of_ne hd, h.timer_of_ne htimer]
    exact hs.sequencerOk d

/-! ### Reset -/

theorem sequencerOk_reset : SequencerOk Sequencer.reset false := by
  constructor <;> simp [Sequencer.reset]

/-- Reset leaves the store, so its canonical form is all that the invariant asks of the state before (R270). -/
theorem inv_resetBlock {s : State} (hp : Memory.wf Config.params.persistCap persistUnlisted s.persist = true) :
    Inv (resetBlock s) := by
  obtain ⟨hwf, hvalid, hfree⟩ := arenaOk_clearArena Config.params s
  exact ⟨hwf, hp, hvalid, hfree, sequencerOk_reset, sequencerOk_reset, rfl⟩

/-- Settles O55: the reset state is what a Reset of itself leaves, and the empty image has no Jingle (R37). -/
theorem resetStateMeetsTheInvariant : Obligations.ResetStateMeetsTheInvariant := by
  refine ⟨inv_resetBlock (s := State.reset) (Memory.wf_nil _ _), rfl, rfl, fun ch => ?_, fun c => ?_⟩
  · cases ch <;> exact ⟨rfl, rfl⟩
  · cases c <;> rfl

/-! ### Commands -/

/-- A sequence start from a reference that `Notes` answers keeps the invariant (R142, R143). -/
theorem Inv.of_seqPlay {ch : Channel} {X : Memory} {idx : Nat} {s t : State} (hs : Inv s)
    (h : seqPlay ch (notesOf Config.params X ch idx) s = .next t) : Inv t := by
  refine hs.of_onlyChannel (onlyChannel_seqPlay h) (sequencerOk_seqPlay (hs.sequencerOk ch) (fun base n hn => ?_) h)
  obtain ⟨-, -, -, hend, hcap⟩ := notesOf_some Config.params hn
  exact hend.trans hcap

theorem CommandEffect.inv {op : Byte} {s t : State} (h : CommandEffect op s t) (hs : Inv s) : Inv t := by
  cases h with
  | responds r ht => exact ht ▸ hs.with_ports ..
  | writesArena _ ht hok => exact hs.of_onlyArena ht (hok hs.arenaOk)
  | writesStore _ ht => exact hs.of_onlyStored ht
  | plays _ idx u v d hr hl ht =>
    have hv : Inv v := (hs.of_seqPlay hr).of_seqPlay hl
    exact ht ▸ hv.with_ports ..

theorem Inv.of_runCommand {w : Cmd80} {io : IoOutcome} {s t : State} (hs : Inv s)
    (h : runCommand w io s = .next t) : Inv t := by
  obtain ⟨j, hc⟩ := commandEffect_runCommand h
  exact hc.inv (hs.with_ports ..)

/-! ### Expiries and the other events -/

theorem due_armed {c : TimerId} {s : State} (h : due c s = true) : (s.timer c).armed = true := by
  unfold due at h
  exact (Bool.and_eq_true_iff.1 h).1

/-- A due expiry finds its sequencer playing (I3), so the transition keeps I3 to I7 (R150). -/
theorem Inv.of_expire_channel {ch : Channel} {s t : State} (hs : Inv s) (hdue : due (timerOf ch) s = true)
    (h : expire (timerOf ch) s = .next t) : Inv t := by
  refine hs.of_onlyChannel (onlyChannel_expire h) ?_
  have hq : SequencerOk ((takeExpiry (timerOf ch) s).seq ch) true := by
    rw [takeExpiry_seq, ← due_armed hdue]
    exact hs.sequencerOk ch
  obtain ⟨u, hu, hok⟩ := sequencerOk_nextState hq
  rw [expire_timerOf, hu] at h
  exact Host.Outcome.next.inj h ▸ hok

/-- Timer channel 2 is never due where the invariant holds (R129). -/
theorem Inv.of_expire {c : TimerId} {s t : State} (hs : Inv s) (hdue : due c s = true)
    (h : expire c s = .next t) : Inv t := by
  cases c with
  | c0 => exact hs.of_expire_channel (ch := .right) hdue h
  | c1 => exact hs.of_expire_channel (ch := .left) hdue h
  | c2 => exact absurd ((due_armed hdue).symm.trans hs.spareIdle) (by decide)

theorem Inv.of_outsideWrite {a : Nat} {b : Byte} {s t : State} (hs : Inv s)
    (h : outsideWrite a b s = .next t) : Inv t := by
  obtain ⟨ha, rfl⟩ := outsideWrite_next h
  exact hs.with_store (Memory.writeRange_wf hs.persistWf ha) ..

theorem Inv.of_eventEffect {e : Event} {s t : State} (hs : Inv s) (hen : enabled e s = true)
    (h : eventEffect e s = .next t) : Inv t := by
  have hclear : Inv (clearResponse s) := hs.with_ports ..
  cases e with
  | cmd w io => exact hs.of_runCommand h
  | expire c =>
    refine hclear.of_expire ?_ h
    cases c <;> exact hen
  | tick =>
    obtain rfl := Host.Outcome.next.inj h
    exact hs.with_ports ..
  | reset =>
    obtain rfl := Host.Outcome.next.inj h
    exact inv_resetBlock hs.persistWf
  | outsideWrite a b => exact hclear.of_outsideWrite h

/-- Settles O56: each kind of event keeps the invariant, and the schedule and the choice counter are no part of it. -/
theorem everyStepKeepsTheInvariant : Obligations.EveryStepKeepsTheInvariant := by
  intro s t hs h
  obtain ⟨rest, n, hen, heff⟩ := step_next h
  exact (hs.with_ports ..).of_eventEffect hen heff

end Sys2Proof.Machine
end

section
/-! PROOF. Who writes what (R21, R38, R62, R170): the arena, the store, the sequencers and time. -/

namespace Sys2Proof.Machine

/-- An event that is neither a command nor a Reset leaves the arena and `bytesFree`. -/
theorem eventEffect_arena_frame {e : Event} {s t : State} (hcmd : ∀ w io, e ≠ .cmd w io) (hreset : e ≠ .reset)
    (h : eventEffect e s = .next t) : t.arena = s.arena ∧ t.bytesFree = s.bytesFree := by
  cases e with
  | cmd w io => exact absurd rfl (hcmd w io)
  | expire c => obtain ⟨ha, hf, -⟩ := expire_frame h; exact ⟨ha, hf⟩
  | tick => obtain rfl := Host.Outcome.next.inj h; exact ⟨rfl, rfl⟩
  | reset => exact absurd rfl hreset
  | outsideWrite a b => obtain ⟨-, rfl⟩ := outsideWrite_next h; exact ⟨rfl, rfl⟩

/-- An event that is neither a command nor an outside write leaves the store. -/
theorem eventEffect_persist_frame {e : Event} {s t : State} (hcmd : ∀ w io, e ≠ .cmd w io)
    (hout : ∀ a b, e ≠ .outsideWrite a b) (h : eventEffect e s = .next t) : t.persist = s.persist := by
  cases e with
  | cmd w io => exact absurd rfl (hcmd w io)
  | expire c => exact (expire_frame h).2.2
  | tick => obtain rfl := Host.Outcome.next.inj h; rfl
  | reset => obtain rfl := Host.Outcome.next.inj h; rfl
  | outsideWrite a b => exact absurd rfl (hout a b)

/-- Settles O51: of the commands by their groups, of the other events by their frame. -/
theorem onlyStoreCommandsWriteTheArena : Obligations.OnlyStoreCommandsWriteTheArena := by
  intro s t h hne
  obtain ⟨rest, n, -, heff⟩ := step_next h
  by_contra hno
  obtain ⟨hreset, hcmd⟩ := not_or.1 hno
  have hsame : t.arena = s.arena ∧ t.bytesFree = s.bytesFree := by
    by_cases hc : ∃ w io, takenEvent s = .cmd w io
    · obtain ⟨w, io, hc⟩ := hc
      rw [hc] at heff
      obtain ⟨j, he⟩ := commandEffect_runCommand heff
      exact he.arena_frame fun hop => hcmd ⟨w, io, hc, hop⟩
    · exact eventEffect_arena_frame (s := { s with schedule := rest, freeCount := n })
        (fun w io hc' => hc ⟨w, io, hc'⟩) hreset heff
  exact hne.elim (· hsame.1) (· hsame.2)

/-- Settles O52: a command's writes stay inside the image region, and no other step of the block writes the store. -/
theorem blockWritesOnlyTheImageRegion : Obligations.BlockWritesOnlyTheImageRegion := by
  intro s t h hout
  obtain ⟨rest, n, -, heff⟩ := step_next h
  by_cases hc : ∃ w io, takenEvent s = .cmd w io
  · obtain ⟨w, io, hc⟩ := hc
    rw [hc] at heff
    obtain ⟨j, he⟩ := commandEffect_runCommand heff
    refine ⟨fun a ha => he.outside_image ha, fun hne => ⟨w, io, hc, ?_⟩⟩
    by_contra hop
    exact hne (he.persist_frame hop)
  · have hsame := eventEffect_persist_frame (fun w io hc' => hc ⟨w, io, hc'⟩) hout heff
    exact ⟨fun a _ => persistByte_congr hsame a, fun hne => absurd hsame hne⟩

/-- Settles O53: the two frames of a command's effect. -/
theorem commandsButPlayLeaveTheSequencers : Obligations.CommandsButPlayLeaveTheSequencers := by
  intro s t w io hc h
  obtain ⟨rest, n, -, heff⟩ := step_next h
  rw [hc] at heff
  obtain ⟨j, he⟩ := commandEffect_runCommand heff
  obtain ⟨htick, hspare⟩ := he.time_frame
  exact ⟨htick, hspare, he.channel_frame⟩

/-- Settles O40: the outside write taken from the schedule, at an address that exists and at one that does not. -/
theorem outsideWriteChangesOneStoreByte : Obligations.OutsideWriteChangesOneStoreByte := by
  intro s a b rest hsched
  have hstep : step s = outsideWrite a b (clearResponse { s with schedule := rest }) :=
    (step_of_schedule_cons hsched).trans (if_pos rfl)
  rw [hstep]
  unfold outsideWrite
  refine ⟨fun ha => ?_, fun ha => if_neg (by omega)⟩
  refine ⟨_, if_pos ha, rfl, ?_, fun x hx => ?_⟩
  · exact (persistByte_writeRange _ a [b] a).trans (by simp)
  · exact (persistByte_writeRange _ a [b] x).trans (dif_neg (by simp; omega))

end Sys2Proof.Machine
end

section
/-! PROOF. Which step is taken (R57): the scheduled one where it is enabled, else the block's own. -/

namespace Sys2Proof.Machine

/-! ### What is enabled -/

/-- What is due is read from the timers and `tick` alone. -/
theorem due_congr {s t : State} (htimer : ∀ c, t.timer c = s.timer c) (htick : t.tick = s.tick) (c : TimerId) :
    due c t = due c s := by
  simp only [due, htimer, htick]

theorem dueList_congr {s t : State} (htimer : ∀ c, t.timer c = s.timer c) (htick : t.tick = s.tick) :
    dueList t = dueList s := by
  simp only [dueList, due_congr htimer htick]

theorem enabled_congr {s t : State} (htimer : ∀ c, t.timer c = s.timer c) (htick : t.tick = s.tick) (e : Event) :
    enabled e t = enabled e s := by
  cases e with
  | cmd w io => rfl
  | expire c => exact due_congr htimer htick c
  | tick => exact congrArg List.isEmpty (dueList_congr htimer htick)
  | reset => rfl
  | outsideWrite a b => rfl

@[simp] theorem enabled_with_schedule (e : Event) (rest : List Event) (s : State) :
    enabled e { s with schedule := rest } = enabled e s :=
  enabled_congr (fun c => by cases c <;> rfl) rfl e

@[simp] theorem enabled_drawChoice (e : Event) (s : State) : enabled e (drawChoice s) = enabled e s :=
  enabled_congr (drawChoice_timer s) (drawChoice_tick s) e

theorem mem_dueList {c : TimerId} {s : State} : c ∈ dueList s ↔ due c s = true := by
  cases c <;> simp [dueList]

theorem dueList_eq_nil_iff {s : State} : dueList s = [] ↔ ∀ c, due c s = false := by
  simp only [List.eq_nil_iff_forall_not_mem, mem_dueList, Bool.not_eq_true]

/-- Where no other channel is due, at most one entry is listed. -/
theorem dueList_length_le_one {c : TimerId} {s : State} (h : ∀ e, due e s = true → e = c) :
    (dueList s).length ≤ 1 := by
  have hnodup : (dueList s).Nodup := List.Nodup.filter _ (by decide)
  have hsub : dueList s ⊆ [c] := fun e he => List.mem_singleton.2 (h e (mem_dueList.1 he))
  exact (hnodup.subperm hsub).length_le

/-! ### The block's own step -/

/-- The block's own step is a Tick where nothing is due, else the expiry of a due channel (R57, R121, R253). -/
theorem ownEvent_cases (s : State) :
    (dueList s = [] ∧ ownEvent s = .tick) ∨ ∃ d, due d s = true ∧ ownEvent s = .expire d := by
  have hmem : ∀ c ∈ dueList s, due c s = true := fun c => mem_dueList.1
  unfold ownEvent
  split
  case h_1 hnil => exact Or.inl ⟨hnil, rfl⟩
  case h_2 c hone => exact Or.inr ⟨c, hmem c (by simp [hone]), rfl⟩
  case h_3 c d cs hmany =>
    have hlt : Config.expiryPick s.freeCount % (cs.length + 2) < (c :: d :: cs).length :=
      Nat.mod_lt _ (Nat.succ_pos _)
    refine Or.inr ⟨_, hmem _ ?_, rfl⟩
    rw [hmany, List.getD_eq_getElem _ _ hlt]
    exact List.getElem_mem hlt

theorem enabled_ownEvent (s : State) : enabled (ownEvent s) s = true := by
  obtain ⟨hnil, hown⟩ | ⟨d, hd, hown⟩ := ownEvent_cases s <;> rw [hown]
  · exact List.isEmpty_iff.2 hnil
  · exact hd

/-- A free choice is an advance of the model's own counter, and nothing else (log 1). -/
theorem drawChoice_eq (s : State) : drawChoice s = { s with freeCount := (drawChoice s).freeCount } := by
  unfold drawChoice
  split <;> rfl

theorem drawChoice_of_length_le_one {s : State} (h : (dueList s).length ≤ 1) : drawChoice s = s :=
  if_neg (by omega)

/-! ### The step taken -/

theorem step_of_enabled {s : State} {e : Event} {rest : List Event} (h : s.schedule = e :: rest)
    (hen : enabled e s = true) : step s = eventEffect e { s with schedule := rest } :=
  (step_of_schedule_cons h).trans (if_pos ((enabled_with_schedule e rest s).trans hen))

theorem step_of_not_enabled {s : State} {e : Event} {rest : List Event} (h : s.schedule = e :: rest)
    (hen : enabled e s = false) : step s = .refused (.notEnabled e) :=
  (step_of_schedule_cons h).trans (if_neg (by simp [hen]))

/-- With nothing scheduled the block takes its own step, which is always enabled. -/
theorem step_of_schedule_nil {s : State} (h : s.schedule = []) :
    step s = eventEffect (ownEvent s) (drawChoice s) := by
  have hen : enabled (ownEvent s) (drawChoice s) = true := (enabled_drawChoice _ s).trans (enabled_ownEvent s)
  simp only [step, runStep, h, runEvent, hen, if_true]

/-- Settles O44: the scheduled step where there is one, else the two cases of the block's own. -/
theorem stepTakesTheScheduledEvent : Obligations.StepTakesTheScheduledEvent := by
  intro s
  refine ⟨fun e rest h => step_of_enabled h, fun e rest h => step_of_not_enabled h, fun h hnone => ?_,
    fun h c hc => ?_, fun c => rfl⟩
  all_goals
    rw [step_of_schedule_nil h]
    obtain ⟨hnil, hown⟩ | ⟨d, hd, hown⟩ := ownEvent_cases s <;> rw [hown]
  · rw [drawChoice_of_length_le_one (by simp [hnil])]
  · exact absurd ((hnone d).symm.trans hd) (by decide)
  · exact absurd ((dueList_eq_nil_iff.1 hnil c).symm.trans hc) (by decide)
  · refine ⟨d, (drawChoice s).freeCount, hd, fun honly => ?_, congrArg _ (drawChoice_eq s)⟩
    rw [drawChoice_of_length_le_one (dueList_length_le_one honly)]

end Sys2Proof.Machine
end

section
/-! PROOF. When `busy` of a channel changes (R60): which operations can start or stop one, and which events. -/

namespace Sys2Proof.Machine

theorem seqPlay_of_busy {ch : Channel} {s : State} (hb : (s.seq ch).busy = true) (ref : Option (Nat × Nat)) :
    seqPlay ch ref s = .next s := by
  simp [seqPlay, seqPlayStatus, hb]

/-- A sequence start stops no channel: on its own a playing sequence is left alone (R143, R144). -/
theorem busy_seqPlay {ch d : Channel} {ref : Option (Nat × Nat)} {s t : State} (h : seqPlay d ref s = .next t)
    (hb : (s.seq ch).busy = true) : (t.seq ch).busy = true := by
  by_cases hd : ch = d
  · subst hd
    obtain rfl := Host.Outcome.next.inj ((seqPlay_of_busy hb ref).symm.trans h)
    exact hb
  · rw [(onlyChannel_seqPlay h).seq_of_ne hd]
    exact hb

/-- No command stops a channel, PLAY included (R60). -/
theorem CommandEffect.busy {op : Byte} {s t : State} (h : CommandEffect op s t) {ch : Channel}
    (hb : (s.seq ch).busy = true) : (t.seq ch).busy = true := by
  cases h with
  | responds r ht => subst ht; cases ch <;> exact hb
  | writesArena _ ht => obtain ⟨A, n, r, rfl⟩ := ht; cases ch <;> exact hb
  | writesStore _ ht => obtain ⟨P, n, r, rfl⟩ := ht.fields; cases ch <;> exact hb
  | plays _ idx u v d hr hl ht =>
    rw [ht, answer_seq]
    exact busy_seqPlay hl (busy_seqPlay hr hb)

/-- A Note start starts no channel (R145): it keeps `busy`, or clears it at the end of the sequence. -/
theorem busy_of_startNote {ch : Channel} {s t : State} (h : startNote ch s = .next t)
    (hb : (t.seq ch).busy = true) : (s.seq ch).busy = true := by
  obtain ⟨-, -, rfl⟩ | ⟨j, -, -, hbegun⟩ := startNoteLoop_next h
  · simp at hb
  · cases hbegun with
    | delayed _ _ _ _ ht => subst ht; simpa using hb
    | pulsed _ _ _ _ _ ht => subst ht; simpa using hb

theorem busy_of_nextPeriod {ch : Channel} {s t : State} (h : nextPeriod ch s = .next t)
    (hb : (t.seq ch).busy = true) : (s.seq ch).busy = true := by
  unfold nextPeriod at h
  split at h
  · obtain rfl := Host.Outcome.next.inj h; simpa using hb
  · split at h
    · obtain rfl := Host.Outcome.next.inj h; simpa using hb
    · simpa using busy_of_startNote h hb

theorem busy_of_nextState {ch : Channel} {s t : State} (h : nextState ch s = .next t)
    (hb : (t.seq ch).busy = true) : (s.seq ch).busy = true := by
  unfold nextState at h
  split at h
  · obtain rfl := Host.Outcome.next.inj h; simpa using hb
  · simpa [decrementRem_seq] using busy_of_nextPeriod h hb

/-- An expiry starts no channel (R125, R150). -/
theorem busy_of_expire {ch : Channel} {s t : State} (h : expire (timerOf ch) s = .next t)
    (hb : (t.seq ch).busy = true) : (s.seq ch).busy = true := by
  rw [expire_timerOf] at h
  simpa using busy_of_nextState h hb

/-- An expiry leaves the registers of every channel but its own (R141). -/
theorem expire_seq_of_ne {c : TimerId} {ch : Channel} {s t : State} (hc : c ≠ timerOf ch)
    (h : expire c s = .next t) : t.seq ch = s.seq ch := by
  cases c with
  | c0 => exact (onlyChannel_expire (ch := .right) h).seq_of_ne (by rintro rfl; exact hc rfl)
  | c1 => exact (onlyChannel_expire (ch := .left) h).seq_of_ne (by rintro rfl; exact hc rfl)
  | c2 =>
    obtain rfl := Host.Outcome.next.inj h
    exact takeExpiry_seq ..

/-- Only PLAY, the channel's own expiry and Reset write a channel's registers (R62, R141). -/
theorem eventEffect_seq_frame {e : Event} {ch : Channel} {s t : State}
    (hplay : ∀ w io, e = .cmd w io → cmdOp w ≠ 0x01#8) (hexpire : e ≠ .expire (timerOf ch)) (hreset : e ≠ .reset)
    (h : eventEffect e s = .next t) : t.seq ch = s.seq ch := by
  cases e with
  | cmd w io =>
    obtain ⟨j, he⟩ := commandEffect_runCommand h
    obtain ⟨hr, hl, -⟩ := he.channel_frame (hplay w io rfl)
    cases ch with
    | right => exact hr
    | left => exact hl
  | expire c =>
    exact (expire_seq_of_ne (fun hc => hexpire (congrArg Event.expire hc)) h).trans (clearResponse_seq s ch)
  | tick => obtain rfl := Host.Outcome.next.inj h; cases ch <;> rfl
  | reset => exact absurd rfl hreset
  | outsideWrite a b => obtain ⟨-, rfl⟩ := outsideWrite_next h; cases ch <;> rfl

/-- An event that starts a channel is PLAY (R60). -/
theorem eventEffect_busy_rises {e : Event} {ch : Channel} {s t : State} (h : eventEffect e s = .next t)
    (hs : (s.seq ch).busy = false) (ht : (t.seq ch).busy = true) : ∃ w io, e = .cmd w io ∧ cmdOp w = 0x01#8 := by
  by_contra hno
  have hne : t.seq ch ≠ s.seq ch := fun hsame => by simp [← hsame, ht] at hs
  refine hne (eventEffect_seq_frame (fun w io he hop => hno ⟨w, io, he, hop⟩) ?_ ?_ h)
  · rintro rfl
    have hb := busy_of_expire h ht
    simp [hs] at hb
  · rintro rfl
    obtain rfl := Host.Outcome.next.inj h
    cases ch <;> cases ht

/-- An event that stops a channel is its own expiry or Reset (R60, R283). -/
theorem eventEffect_busy_falls {e : Event} {ch : Channel} {s t : State} (h : eventEffect e s = .next t)
    (hs : (s.seq ch).busy = true) (ht : (t.seq ch).busy = false) : e = .expire (timerOf ch) ∨ e = .reset := by
  by_contra hno
  obtain ⟨hexpire, hreset⟩ := not_or.1 hno
  have hne : t.seq ch ≠ s.seq ch := fun hsame => by simp [hsame, hs] at ht
  refine hne (eventEffect_seq_frame (fun w io he _ => ?_) hexpire hreset h)
  subst he
  obtain ⟨j, he⟩ := commandEffect_runCommand h
  have hb : (t.seq ch).busy = true := he.busy (by cases ch <;> exact hs)
  exact absurd (hb.symm.trans ht) (by decide)

/-- Settles O50: a step is the effect of the event taken, and no event but those named changes `busy` that way. -/
theorem busyRisesByPlayAndFallsByExpiry : Obligations.BusyRisesByPlayAndFallsByExpiry := by
  intro s t ch h
  obtain ⟨rest, n, -, heff⟩ := step_next h
  have hseq : ({ s with schedule := rest, freeCount := n } : State).seq ch = s.seq ch := by cases ch <;> rfl
  refine ⟨fun hs => eventEffect_busy_rises heff ?_, fun hs => eventEffect_busy_falls heff ?_⟩
  all_goals rw [hseq]; exact hs

end Sys2Proof.Machine
end

section
/-! PROOF. Progress (R57, R63, R255): where the invariant holds, every enabled event completes. -/

namespace Sys2Proof.Machine

/-- PLAY completes in every state: a reference that `Notes` answers lies in the arena (R142, R225). -/
theorem execPlay_total (idx : Byte) (s : State) : ∃ t, execPlay idx s = .next t := by
  have start_total : ∀ ch u, ∃ t, seqPlay ch (notesOf Config.params s.arena ch idx.toNat) u = .next t := by
    refine fun ch u => seqPlay_total ch _ u fun base n hn => ?_
    obtain ⟨-, -, -, hend, hcap⟩ := notesOf_some Config.params hn
    exact hend.trans hcap
  unfold execPlay
  split
  · exact ⟨_, rfl⟩
  · obtain ⟨u, hr⟩ := start_total .right s
    obtain ⟨v, hl⟩ := start_total .left u
    simp only [hr, hl, andThen]
    exact ⟨_, rfl⟩

/-- Every command completes in every state: an error is a next state (R16). -/
theorem exec_command_total {i : Instr} {op : Byte} (hop : commandOp i = some op) (s : State) :
    ∃ t, exec i s = .next t := by
  cases i with
  | play idx => exact execPlay_total idx s
  | noteSkip | noteDelayDuty0 | noteDelayFreq0 | notePulse => cases hop
  | _ => exact ⟨_, rfl⟩

theorem runCommand_total (w : Cmd80) (io : IoOutcome) (s : State) : ∃ t, runCommand w io s = .next t := by
  cases hd : decodeCommand w with
  | instr i =>
    rw [runCommand_of_decode hd]
    exact exec_command_total (commandOp_of_decode hd) _
  | badCommand op => exact ⟨raise .badCommand s, by simp only [runCommand, hd]⟩

/-- A due expiry finds its sequencer playing (I3), so its transition completes (R150); channel 2's has no handler. -/
theorem expire_total {c : TimerId} {s : State} (hs : Inv s) (hdue : due c s = true) :
    ∃ t, expire c s = .next t := by
  have of_channel : ∀ ch, due (timerOf ch) s = true → ∃ t, expire (timerOf ch) s = .next t := by
    intro ch hdue
    have hq : SequencerOk ((takeExpiry (timerOf ch) s).seq ch) true := by
      rw [takeExpiry_seq, ← due_armed hdue]
      exact hs.sequencerOk ch
    obtain ⟨t, ht, -⟩ := sequencerOk_nextState hq
    exact ⟨t, (expire_timerOf ch s).trans ht⟩
  cases c with
  | c0 => exact of_channel .right hdue
  | c1 => exact of_channel .left hdue
  | c2 => exact ⟨_, rfl⟩

theorem eventEffect_total {e : Event} {s : State} (hs : Inv s) (hen : enabled e s = true)
    (haddr : ∀ a b, e = .outsideWrite a b → a < Config.params.persistCap) : ∃ t, eventEffect e s = .next t := by
  cases e with
  | cmd w io => exact runCommand_total w io s
  | expire c =>
    have hdue : due c (clearResponse s) = true := (due_congr (clearResponse_timer s) (clearResponse_tick s) c).trans hen
    exact expire_total (hs.with_ports ..) hdue
  | tick => exact ⟨_, rfl⟩
  | reset => exact ⟨_, rfl⟩
  | outsideWrite a b =>
    simp only [eventEffect, outsideWrite, if_pos (haddr a b rfl)]
    exact ⟨_, rfl⟩

/-- What `Ready` asks of a scheduled step. -/
theorem Ready.of_schedule_cons {s : State} {e : Event} {rest : List Event} (h : Ready s) (hs : s.schedule = e :: rest) :
    enabled e s = true ∧ ∀ a b, e = .outsideWrite a b → a < Config.params.persistCap := by
  unfold Ready at h
  rw [hs] at h
  cases e with
  | outsideWrite a b =>
    refine ⟨rfl, fun x y he => ?_⟩
    cases he
    exact h
  | _ => exact ⟨h, nofun⟩

/-- Settles O57: the step taken is enabled, from a state that still meets the invariant, and such an event completes. -/
theorem enabledStepsCompleteUnderTheInvariant : Obligations.EnabledStepsCompleteUnderTheInvariant := by
  intro s hs hready
  cases hsched : s.schedule with
  | nil =>
    have hdraw : Inv (drawChoice s) := by
      rw [drawChoice_eq]
      exact hs.with_ports ..
    rw [step_of_schedule_nil hsched]
    refine eventEffect_total hdraw ((enabled_drawChoice _ s).trans (enabled_ownEvent s)) fun a b he => ?_
    obtain ⟨-, hown⟩ | ⟨d, -, hown⟩ := ownEvent_cases s <;> exact Event.noConfusion (hown.symm.trans he)
  | cons e rest =>
    obtain ⟨hen, haddr⟩ := hready.of_schedule_cons hsched
    rw [step_of_enabled hsched hen]
    exact eventEffect_total (hs.with_ports ..) ((enabled_with_schedule e rest s).trans hen) haddr

end Sys2Proof.Machine
end

section
/-! PROOF. The two formats (R88, R89, R100 to R103): what each decoder answers for every word, and that decoding undoes
`encode`. -/

open Sys2Proof.Laws.RowBits (extract_low extract_high op_cmdWord noteDuty_noteWord noteFreq_noteWord noteDur_noteWord)

namespace Sys2Proof.Machine

/-! ### Command words -/

/-- The channel operand is bit 16 of the word; `b[7:1]` is ignored (R100, R103). -/
theorem channelOfBit_cmdB (w : Cmd80) : channelOfBit (cmdB w) = if w.getLsbD 16 then .left else .right := by
  simp [channelOfBit, cmdB]

@[simp] theorem channelOfBit_channelBit (ch : Channel) : channelOfBit (channelBit ch) = ch := by
  cases ch <;> rfl

theorem decodeCommand_of_undefined {w : Cmd80} (h : cmdOp w = 0x00#8 ∨ 0x10#8 ≤ cmdOp w) :
    decodeCommand w = .badCommand (cmdOp w) := by
  have hnat : (cmdOp w).toNat = 0 ∨ 16 ≤ (cmdOp w).toNat := h.imp (congrArg BitVec.toNat) BitVec.le_def.1
  unfold decodeCommand
  split
  case h_16 => rfl
  all_goals omega

/-- Settles O1: each row of the decoder's own table, and the channel operand as bit 16. -/
theorem opcodeSelectsTheCommand : Obligations.OpcodeSelectsTheCommand := by
  intro w op a ch
  have hch : ch = channelOfBit (cmdB w) := (channelOfBit_cmdB w).symm
  rw [hch]
  refine ⟨?_, ?_, ?_, ?_, ?_, ?_, ?_, ?_, ?_, ?_, ?_, ?_, ?_, ?_, ?_, decodeCommand_of_undefined⟩
  all_goals
    intro hop
    replace hop : cmdOp w = _ := hop
    unfold decodeCommand
    rw [hop]
    rfl

section CmdWord
variable (f e : U16) (d : Byte) (c : U16) (b a op : Byte)

@[simp] theorem cmdOp_cmdWord : cmdOp (cmdWord f e d c b a op) = op := op_cmdWord f e d c b a op
@[simp] theorem cmdA_cmdWord : cmdA (cmdWord f e d c b a op) = a :=
  (extract_high 0 8 _ op).trans (extract_low _ a)
@[simp] theorem cmdB_cmdWord : cmdB (cmdWord f e d c b a op) = b :=
  (extract_high 8 8 _ op).trans <| (extract_high 0 8 _ a).trans (extract_low _ b)
@[simp] theorem cmdC_cmdWord : cmdC (cmdWord f e d c b a op) = c :=
  (extract_high 16 16 _ op).trans <| (extract_high 8 16 _ a).trans <| (extract_high 0 16 _ b).trans (extract_low _ c)
@[simp] theorem cmdD_cmdWord : cmdD (cmdWord f e d c b a op) = d :=
  (extract_high 32 8 _ op).trans <| (extract_high 24 8 _ a).trans <| (extract_high 16 8 _ b).trans <|
    (extract_high 0 8 _ c).trans (extract_low _ d)
@[simp] theorem cmdE_cmdWord : cmdE (cmdWord f e d c b a op) = e :=
  (extract_high 40 16 _ op).trans <| (extract_high 32 16 _ a).trans <| (extract_high 24 16 _ b).trans <|
    (extract_high 8 16 _ c).trans <| (extract_high 0 16 _ d).trans (extract_low f e)
@[simp] theorem cmdF_cmdWord : cmdF (cmdWord f e d c b a op) = f :=
  (extract_high 56 16 _ op).trans <| (extract_high 48 16 _ a).trans <| (extract_high 40 16 _ b).trans <|
    (extract_high 24 16 _ c).trans <| (extract_high 16 16 _ d).trans <| (extract_high 0 16 f e).trans (by simp)

end CmdWord

/-- Decoding undoes `encode` on every command, whoever fetches: the fields of the word are the operands (R100 to R102). -/
theorem decodeWord_encode_command {i : Instr} {op : Byte} (hop : commandOp i = some op) (ch : Channel) :
    decodeWord ch (encode i) = .instr i := by
  cases i with
  | noteSkip | noteDelayDuty0 | noteDelayFreq0 | notePulse => cases hop
  | _ => simp [encode, decodeWord, decodeCommand]

/-! ### Note records -/

section Rows
variable (ch : Channel) {n : Note40}

theorem decodeNote_skip (hdur : noteDur n = 0#16) : decodeNote ch n = .noteSkip ch (noteDuty n) (noteFreq n) := by
  simp [decodeNote, classifyNote, hdur]

theorem decodeNote_delayDuty0 (hdur : noteDur n ≠ 0#16) (hduty : noteDuty n = 0#8) :
    decodeNote ch n = .noteDelayDuty0 ch (noteFreq n) (noteDur n) := by
  simp [decodeNote, classifyNote, hdur, hduty]

theorem decodeNote_delayFreq0 (hdur : noteDur n ≠ 0#16) (hduty : noteDuty n ≠ 0#8) (hfreq : noteFreq n = 0#16) :
    decodeNote ch n = .noteDelayFreq0 ch (noteDuty n) (noteDur n) := by
  simp [decodeNote, classifyNote, hdur, hduty, hfreq]

theorem decodeNote_pulse (hdur : noteDur n ≠ 0#16) (hduty : noteDuty n ≠ 0#8) (hfreq : noteFreq n ≠ 0#16) :
    decodeNote ch n = .notePulse ch (noteDuty n) (noteFreq n) (noteDur n) := by
  simp [decodeNote, classifyNote, hdur, hduty, hfreq]

end Rows

/-- The three fields are all of a record (R88). -/
theorem noteWord_fields (n : Note40) : noteWord (noteDuty n) (noteFreq n) (noteDur n) = n := by
  calc noteWord (noteDuty n) (noteFreq n) (noteDur n)
      = n.extractLsb' 8 (16 + 16) ++ n.extractLsb' 0 8 :=
        congrArg (· ++ noteDuty n) (BitVec.extractLsb'_append_extractLsb'_eq_extractLsb' rfl)
    _ = n.extractLsb' 0 (16 + 16 + 8) := BitVec.extractLsb'_append_extractLsb'_eq_extractLsb' rfl
    _ = n := by simp

/-- A record is decoded as a well-formed term of its row that encodes to the record again (R89): a field that the term
leaves out is zero in its row. -/
theorem decodeNote_wellFormed_encode (ch : Channel) (n : Note40) :
    (decodeNote ch n).wellFormed = true ∧ encode (decodeNote ch n) = .note40 n := by
  have hn := congrArg CodeWord.note40 (noteWord_fields n)
  by_cases hdur : noteDur n = 0#16
  · rw [decodeNote_skip ch hdur]
    exact ⟨rfl, by rwa [hdur] at hn⟩
  by_cases hduty : noteDuty n = 0#8
  · rw [decodeNote_delayDuty0 ch hdur hduty]
    exact ⟨by simp [Instr.wellFormed, hdur], by rwa [hduty] at hn⟩
  by_cases hfreq : noteFreq n = 0#16
  · rw [decodeNote_delayFreq0 ch hdur hduty hfreq]
    exact ⟨by simp [Instr.wellFormed, hdur, hduty], by rwa [hfreq] at hn⟩
  · rw [decodeNote_pulse ch hdur hduty hfreq]
    exact ⟨by simp [Instr.wellFormed, hdur, hduty, hfreq], hn⟩

/-- Settles O2: the four rows, and the term of each. -/
theorem everyRecordIsOneNote : Obligations.EveryRecordIsOneNote := fun ch n =>
  ⟨decodeNote_skip ch, decodeNote_delayDuty0 ch, decodeNote_delayFreq0 ch, decodeNote_pulse ch,
    decodeNote_wellFormed_encode ch n⟩

@[simp] theorem noteFields_noteWord (duty : Byte) (freq dur : U16) :
    noteDuty (noteWord duty freq dur) = duty ∧ noteFreq (noteWord duty freq dur) = freq ∧
      noteDur (noteWord duty freq dur) = dur :=
  ⟨noteDuty_noteWord duty freq dur, noteFreq_noteWord duty freq dur, noteDur_noteWord duty freq dur⟩

/-- Decoding undoes `encode` on every Note that meets its row's condition and no earlier row's (R89). -/
theorem decodeWord_encode_note {i : Instr} (hnote : commandOp i = none) (hwf : i.wellFormed = true) :
    decodeWord i.fetcher (encode i) = .instr i := by
  cases i with
  | noteSkip ch duty freq => simp [encode, decodeWord, Instr.fetcher, decodeNote_skip]
  | noteDelayDuty0 ch freq dur =>
    have hdur : dur ≠ 0#16 := by simpa [Instr.wellFormed] using hwf
    simp [encode, decodeWord, Instr.fetcher, decodeNote_delayDuty0, hdur]
  | noteDelayFreq0 ch duty dur =>
    obtain ⟨hdur, hduty⟩ : dur ≠ 0#16 ∧ duty ≠ 0#8 := by simpa [Instr.wellFormed] using hwf
    simp [encode, decodeWord, Instr.fetcher, decodeNote_delayFreq0, hdur, hduty]
  | notePulse ch duty freq dur =>
    obtain ⟨⟨hdur, hduty⟩, hfreq⟩ : (dur ≠ 0#16 ∧ duty ≠ 0#8) ∧ freq ≠ 0#16 := by
      simpa [Instr.wellFormed] using hwf
    simp [encode, decodeWord, Instr.fetcher, decodeNote_pulse, hdur, hduty, hfreq]
  | _ => cases hnote

/-- Settles O3: commands by their `op`, Notes by their row. -/
theorem decodeOfEncodeIsTheInstruction : Obligations.DecodeOfEncodeIsTheInstruction := by
  intro i hwf
  cases hop : commandOp i with
  | some op => exact decodeWord_encode_command hop i.fetcher
  | none => exact decodeWord_encode_note hop hwf

/-- Settles O4: ten closed evaluations of the decoders. -/
theorem writtenOutWordsDecode : Obligations.WrittenOutWordsDecode :=
  ⟨rfl, rfl, rfl, rfl, rfl, rfl, rfl, rfl, rfl, rfl⟩

end Sys2Proof.Machine
end

section
/-! PROOF. The response port (R105, R107, R240): every command answers one response word, no other event does, and the
queries that `print` expands to (R113) change nothing else. -/

namespace Sys2Proof.Machine

/-! ### Response words -/

/-- The status byte of a response word (R105). -/
theorem status_responseWord (k : Status) (d : BitVec 40) : (responseWord k d).extractLsb' 0 8 = k.code :=
  BitVec.extractLsb'_append_eq_right

theorem Status.code_le (k : Status) : k.code.toNat ≤ 7 := by
  cases k <;> decide

/-- The response port holds a response word (R105). -/
def Responded (t : State) : Prop := ∃ k d, t.response = some (responseWord k d)

theorem responded_answer (d : BitVec 40) (s : State) : Responded (answer d s) := ⟨.ok, d, rfl⟩

theorem responded_raise (k : Status) (s : State) : Responded (raise k s) := ⟨k, 0#40, rfl⟩

theorem Responded.isSome {t : State} (h : Responded t) : t.response.isSome = true := by
  obtain ⟨k, d, h⟩ := h
  rw [h, Option.isSome_some]

theorem Responded.status_le {t : State} (h : Responded t) {r : Resp48} (hr : t.response = some r) :
    (r.extractLsb' 0 8).toNat ≤ 7 := by
  obtain ⟨k, d, h⟩ := h
  obtain rfl : responseWord k d = r := Option.some.inj (h.symm.trans hr)
  rw [status_responseWord]
  exact k.code_le

/-! ### Every command responds -/

theorem responded_addJingle (p : Params) (idx : Byte) (r l : U16) (s : State) : Responded (addJingle p idx r l s) := by
  unfold addJingle
  split
  · exact responded_raise ..
  · split
    · exact responded_raise ..
    · split
      · exact responded_raise ..
      · exact responded_answer ..

theorem responded_deleteJingle (p : Params) (idx : Byte) (s : State) : Responded (deleteJingle p idx s) := by
  unfold deleteJingle
  split
  · exact responded_raise ..
  · split
    · exact responded_raise ..
    · exact responded_answer ..

theorem responded_setNote (p : Params) (idx : Byte) (ch : Channel) (k : U16) (duty : Byte) (freq dur : U16)
    (s : State) : Responded (setNote p idx ch k duty freq dur s) := by
  unfold setNote
  split
  · exact responded_raise ..
  · exact responded_answer ..

theorem responded_getNote (p : Params) (idx : Byte) (ch : Channel) (k : U16) (s : State) :
    Responded (getNote p idx ch k s) := by
  unfold getNote
  split
  · exact responded_raise ..
  · exact responded_answer ..

theorem responded_queryOffset (p : Params) (idx : Byte) (s : State) : Responded (queryOffset p idx s) := by
  unfold queryOffset
  split
  · exact responded_raise ..
  · split
    · exact responded_raise ..
    · exact responded_answer ..

theorem responded_queryNoteCount (p : Params) (idx : Byte) (ch : Channel) (s : State) :
    Responded (queryNoteCount p idx ch s) := by
  unfold queryNoteCount
  split
  · exact responded_raise ..
  · split
    · exact responded_raise ..
    · exact responded_answer ..

theorem responded_loadImage (p : Params) (s : State) : Responded (loadImage p s) := by
  obtain ⟨-, h⟩ | ⟨-, -, h⟩ | ⟨-, -, h⟩ := loadImage_cases p s <;> rw [h]
  · exact responded_raise ..
  · exact responded_raise ..
  · exact responded_answer ..

theorem responded_storeStatus (io : IoOutcome) (s : State) : Responded (storeStatus io s) := by
  cases io with
  | ok => exact responded_answer ..
  | fail => exact responded_raise ..

theorem responded_execPlay {idx : Byte} {s t : State} (h : execPlay idx s = .next t) : Responded t := by
  unfold execPlay at h
  split at h
  · exact Host.Outcome.next.inj h ▸ responded_raise ..
  · obtain ⟨u, -, h⟩ := andThen_next h
    obtain ⟨v, -, h⟩ := andThen_next h
    exact Host.Outcome.next.inj h ▸ responded_answer ..

/-- The meaning of every command ends in a response (R105). -/
theorem responded_exec {i : Instr} {op : Byte} {s t : State} (hop : commandOp i = some op)
    (h : exec i s = .next t) : Responded t := by
  cases i with
  | play idx => exact responded_execPlay h
  | isbusy | clear | count | bytesfree | isvalid => cases h; exact responded_answer ..
  | add idx r l => cases h; exact responded_addJingle ..
  | delete idx => cases h; exact responded_deleteJingle ..
  | setnote idx ch k duty freq dur => cases h; exact responded_setNote ..
  | getnote idx ch k => cases h; exact responded_getNote ..
  | offset idx => cases h; exact responded_queryOffset ..
  | notecount idx ch => cases h; exact responded_queryNoteCount ..
  | load => cases h; exact responded_loadImage ..
  | save | pclear => cases h; exact responded_storeStatus ..
  | noteSkip | noteDelayDuty0 | noteDelayFreq0 | notePulse => cases hop

theorem responded_runCommand {w : Cmd80} {io : IoOutcome} {s t : State} (h : runCommand w io s = .next t) :
    Responded t := by
  cases hd : decodeCommand w with
  | instr i =>
    rw [runCommand_of_decode hd] at h
    exact responded_exec (commandOp_of_decode hd) h
  | badCommand op =>
    simp only [runCommand, hd] at h
    exact Host.Outcome.next.inj h ▸ responded_raise ..

/-! ### No other event does -/

theorem OnlyChannel.response {ch : Channel} {s t : State} (h : OnlyChannel ch s t) : t.response = s.response := by
  obtain ⟨-, -, -, -, -, -, hresp, -⟩ := h.frame
  exact hresp

/-- An expiry leaves the response port (R125). -/
theorem expire_response {c : TimerId} {s t : State} (h : expire c s = .next t) : t.response = s.response := by
  cases c with
  | c0 => exact (onlyChannel_expire (ch := .right) h).response
  | c1 => exact (onlyChannel_expire (ch := .left) h).response
  | c2 =>
    obtain rfl := Host.Outcome.next.inj h
    exact takeExpiry_response ..

theorem eventEffect_response_none {e : Event} {s t : State} (hcmd : ∀ w io, e ≠ .cmd w io)
    (h : eventEffect e s = .next t) : t.response = none := by
  cases e with
  | cmd w io => exact absurd rfl (hcmd w io)
  | expire c => exact expire_response h
  | tick => obtain rfl := Host.Outcome.next.inj h; rfl
  | reset => obtain rfl := Host.Outcome.next.inj h; rfl
  | outsideWrite a b => obtain ⟨-, rfl⟩ := outsideWrite_next h; rfl

/-- Settles O49: a command step ends in a response word, and every other step in none. -/
theorem responsesCarryAStatusCode : Obligations.ResponsesCarryAStatusCode := by
  intro s t h
  obtain ⟨rest, n, -, heff⟩ := step_next h
  by_cases hc : ∃ w io, takenEvent s = .cmd w io
  · have hresp : Responded t := by
      obtain ⟨w, io, hc⟩ := hc
      rw [hc] at heff
      exact responded_runCommand heff
    exact ⟨iff_of_true hresp.isSome hc, fun r => hresp.status_le⟩
  · have hnone : t.response = none := eventEffect_response_none (fun w io he => hc ⟨w, io, he⟩) heff
    exact ⟨iff_of_false (by simp [hnone]) hc, fun r hr => by simp [hnone] at hr⟩

/-! ### `print` -/

/-- The three queries `print` is made of (R113). -/
inductive PrintQuery : Instr → Prop where
  | count : PrintQuery .count
  | notecount (idx : Byte) (ch : Channel) : PrintQuery (.notecount idx ch)
  | getnote (idx : Byte) (ch : Channel) (k : U16) : PrintQuery (.getnote idx ch k)

theorem PrintQuery.of_mem_printJingle {i : Instr} {idx : Byte} {r l : Nat} (h : i ∈ printJingle idx r l) :
    PrintQuery i := by
  simp only [printJingle, List.mem_append, List.mem_cons, List.not_mem_nil, or_false, List.mem_map] at h
  obtain ((rfl | rfl) | ⟨k, -, rfl⟩) | ⟨k, -, rfl⟩ := h
  · exact .notecount ..
  · exact .notecount ..
  · exact .getnote ..
  · exact .getnote ..

theorem PrintQuery.of_mem_printFrom {i : Instr} (counts : List (Nat × Nat)) (n : Nat) (h : i ∈ printFrom n counts) :
    PrintQuery i := by
  induction counts generalizing n with
  | nil => cases h
  | cons c rest ih =>
    obtain h | h := List.mem_append.1 h
    · exact .of_mem_printJingle h
    · exact ih (n + 1) h

theorem PrintQuery.of_mem_printAll {i : Instr} {counts : List (Nat × Nat)} (h : i ∈ printAll counts) :
    PrintQuery i := by
  obtain rfl | h := List.mem_cons.1 h
  · exact .count
  · exact .of_mem_printFrom counts 0 h

/-- A query changes at most the response port (R261). -/
theorem PrintQuery.exec_eq {i : Instr} (h : PrintQuery i) (s : State) :
    ∃ r, exec i s = .next { s with response := r } := by
  cases h with
  | count => exact ⟨_, rfl⟩
  | notecount idx ch => exact (queryNoteCount_responds _ idx ch s).imp fun _ => congrArg _
  | getnote idx ch k => exact (getNote_responds _ idx ch k s).imp fun _ => congrArg _

theorem PrintQuery.isCommand {i : Instr} (h : PrintQuery i) : ∃ op, commandOp i = some op := by
  cases h <;> exact ⟨_, rfl⟩

/-- Settles O54: the expansion holds queries only, and as commands they do respond. -/
theorem printChangesNoState : Obligations.PrintChangesNoState := by
  intro counts i s hi
  have hq : PrintQuery i := .of_mem_printAll hi
  obtain ⟨op, hop⟩ := hq.isCommand
  obtain ⟨r, hr⟩ := hq.exec_eq s
  obtain ⟨k, d, hresp⟩ := responded_exec hop hr
  obtain rfl : r = some (responseWord k d) := hresp
  exact ⟨_, hr⟩

end Sys2Proof.Machine
end

section
/-! PROOF. Time, the timer channels and the actuators (R120 to R131): when a channel is due, when `Tick` is enabled, and
which steps move the counter. -/

namespace Sys2Proof.Machine

/-! ### What is due -/

/-- A channel is due exactly when it is armed and the counter equals its compare value (R125). -/
theorem due_iff {c : TimerId} {s : State} :
    due c s = true ↔ (s.timer c).armed = true ∧ s.tick = (s.timer c).matchAt := by
  simp only [due, Bool.and_eq_true, decide_eq_true_eq]

/-- `Tick` is enabled exactly when no channel is due (R121). -/
theorem enabled_tick_iff {s : State} : enabled .tick s = true ↔ ∀ c, due c s = false :=
  List.isEmpty_iff.trans dueList_eq_nil_iff

@[simp] theorem timer_with_tick (v : U32) (s : State) (c : TimerId) :
    ({ s with tick := v } : State).timer c = s.timer c := by
  cases c <;> rfl

/-- Two offsets from one counter value meet modulo 2^32 only where they are equal (R123). -/
theorem add_ofNat_inj {v : U32} {m n : Nat} (hm : m < 2 ^ 32) (hn : n < 2 ^ 32) :
    v + BitVec.ofNat 32 m = v + BitVec.ofNat 32 n ↔ m = n := by
  rw [BitVec.add_right_inj, ← BitVec.toNat_inj, BitVec.toNat_ofNat, BitVec.toNat_ofNat, Nat.mod_eq_of_lt hm,
    Nat.mod_eq_of_lt hn]

/-- Settles O43: the channel is armed, so it is due exactly when the two sums from `tick` are equal. -/
theorem relativeArmIsDueAfterDelta : Obligations.RelativeArmIsDueAfterDelta := by
  intro s c delta k hdelta hk
  refine ⟨rfl, ?_⟩
  rw [due_iff, timer_with_tick, armRel_timer]
  exact (and_iff_right rfl).trans (add_ofNat_inj (hk.trans_lt hdelta) hdelta)

/-! ### What moves the counter -/

theorem OnlyChannel.tick {ch : Channel} {s t : State} (h : OnlyChannel ch s t) : t.tick = s.tick := by
  obtain ⟨-, -, htick, -⟩ := h.frame
  exact htick

/-- An expiry takes no time (R125). -/
theorem expire_tick {c : TimerId} {s t : State} (h : expire c s = .next t) : t.tick = s.tick := by
  cases c with
  | c0 => exact (onlyChannel_expire (ch := .right) h).tick
  | c1 => exact (onlyChannel_expire (ch := .left) h).tick
  | c2 =>
    obtain rfl := Host.Outcome.next.inj h
    exact takeExpiry_tick ..

/-- An event that is neither a Tick nor a Reset leaves the counter (R121). -/
theorem eventEffect_tick_frame {e : Event} {s t : State} (htick : e ≠ .tick) (hreset : e ≠ .reset)
    (h : eventEffect e s = .next t) : t.tick = s.tick := by
  cases e with
  | cmd w io =>
    obtain ⟨j, he⟩ := commandEffect_runCommand h
    exact he.time_frame.1
  | expire c => exact (expire_tick h).trans (clearResponse_tick s)
  | tick => exact absurd rfl htick
  | reset => exact absurd rfl hreset
  | outsideWrite a b => obtain ⟨-, rfl⟩ := outsideWrite_next h; rfl

/-- Settles O45: a Tick is taken only where it is enabled, hence with nothing due, and no third event moves `tick`. -/
theorem timeNeverPassesADueExpiry : Obligations.TimeNeverPassesADueExpiry := by
  intro s t h hne
  obtain ⟨rest, n, hen, heff⟩ := step_next h
  by_cases hreset : takenEvent s = .reset
  · exact Or.inl hreset
  · by_cases htick : takenEvent s = .tick
    · rw [htick] at hen heff
      have hnone : enabled .tick s = true := (enabled_congr (fun c => by cases c <;> rfl) rfl .tick).trans hen
      obtain rfl := Host.Outcome.next.inj heff
      exact Or.inr ⟨htick, enabled_tick_iff.1 hnone, rfl⟩
    · exact absurd (eventEffect_tick_frame htick hreset heff) hne

/-! ### The single steps and primitives -/

/-- Settles O14: `Expire(c)` is enabled where `c` is due, and its effect is the handler's on the disarmed state. -/
theorem dueExpiryRunsItsHandler : Obligations.DueExpiryRunsItsHandler := by
  intro s c
  refine ⟨due_iff, ?_, ?_, ?_⟩ <;> rintro rfl <;> rfl

/-- Settles O41: the enabling condition channel by channel, then the scheduled Tick. -/
theorem tickAdvancesOnlyTheCounter : Obligations.TickAdvancesOnlyTheCounter := by
  intro s
  refine ⟨?_, fun rest hsched hen => step_of_enabled hsched hen, fun h => by rw [h]; rfl⟩
  simp only [enabled_tick_iff, ← due_iff, Bool.not_eq_true]

theorem getActive_setActive (ch : Channel) (v : Bool) (s : State) : getActive ch (setActive ch v s) = v := by
  rw [getActive, setActive_seq]

/-- Settles O42: each primitive is the update of its own register. -/
theorem primitivesWriteOnlyTheirRegister : Obligations.PrimitivesWriteOnlyTheirRegister :=
  fun s _ _ ch b => ⟨rfl, rfl, rfl, getActive_setActive ch b s⟩

end Sys2Proof.Machine
end

section
/-! PROOF. The Note instructions (R147 to R149, R154, R155) and ISBUSY: the state each answers, written out, and the bounds
of the Note arithmetic. -/

namespace Sys2Proof.Machine

/-! ### Note arithmetic -/

/-- A pulse period times a duty cycle, both non-zero, stays in R155's range. -/
theorem pulseWidth_mul_duty_bounds {duty : Byte} {freq : U16} (hduty : duty ≠ 0#8) (hfreq : freq ≠ 0#16) :
    15 ≤ pulseWidth freq * duty.toNat ∧ pulseWidth freq * duty.toNat ≤ 255000000 :=
  ⟨Nat.mul_le_mul (pulseWidth_ge hfreq) (toNat_pos_of_ne_zero hduty),
    (Nat.mul_le_mul (pulseWidth_le freq) (Nat.le_pred_of_lt duty.isLt)).trans (by decide)⟩

/-- The product behind `rem` stays in R155's range. -/
theorem dur_mul_freq_bounds {freq dur : U16} (hfreq : freq ≠ 0#16) (hdur : dur ≠ 0#16) :
    1 ≤ dur.toNat * freq.toNat ∧ dur.toNat * freq.toNat ≤ 4294836225 :=
  ⟨Nat.mul_le_mul (toNat_pos_of_ne_zero hdur) (toNat_pos_of_ne_zero hfreq),
    (Nat.mul_le_mul (Nat.le_pred_of_lt dur.isLt) (Nat.le_pred_of_lt freq.isLt)).trans (by decide)⟩

theorem delayTime_bounds {dur : U16} (hdur : dur ≠ 0#16) : 1000 ≤ delayTime dur ∧ delayTime dur ≤ 65535000 := by
  have hpos := toNat_pos_of_ne_zero hdur
  have hlt := dur.isLt
  unfold delayTime
  omega

/-- Less than half of a period is active (R155). -/
theorem two_mul_highTime_lt (duty : Byte) {freq : U16} (hfreq : freq ≠ 0#16) :
    2 * highTime duty freq < pulseWidth freq := by
  have hhigh := highTime_mul_le duty freq
  have hpw := pulseWidth_ge hfreq
  omega

/-- The periods of a Note with at least one whole pulse fit in its duration (R156). -/
theorem pulseCount_mul_pulseWidth_le {freq : U16} (hfreq : freq ≠ 0#16) (dur : U16) :
    pulseCount freq dur * pulseWidth freq ≤ delayTime dur := by
  refine Nat.le_of_mul_le_mul_right ?_ (Nat.mul_pos (show 0 < 1000 by decide) (toNat_pos_of_ne_zero hfreq))
  calc pulseCount freq dur * pulseWidth freq * (1000 * freq.toNat)
      = (pulseCount freq dur * 1000) * (pulseWidth freq * freq.toNat) := by ring
    _ ≤ (dur.toNat * freq.toNat) * 1000000 :=
        Nat.mul_le_mul (Nat.div_mul_le_self _ _) (Nat.div_mul_le_self _ _)
    _ = delayTime dur * (1000 * freq.toNat) := by unfold delayTime; ring

/-- Settles O12: the bounds of each quantity, then the extremes by evaluation. -/
theorem noteArithmeticStaysInItsBounds : Obligations.NoteArithmeticStaysInItsBounds := by
  refine ⟨fun duty freq dur hduty hfreq hdur => ?_, rfl, rfl, rfl, rfl, rfl, rfl, rfl⟩
  have hpwGe := pulseWidth_ge hfreq
  have hpwLe := pulseWidth_le freq
  obtain ⟨hprodGe, hprodLe⟩ := pulseWidth_mul_duty_bounds hduty hfreq
  have hhighLe := highTime_lt duty freq
  have hlowGe := lowTime_ge_eight duty hfreq
  have hlowLe := lowTime_lt duty freq
  obtain ⟨hcountGe, hcountLe⟩ := dur_mul_freq_bounds hfreq hdur
  have hremLe := pulseCount_lt freq dur
  obtain ⟨hdelayGe, hdelayLe⟩ := delayTime_bounds hdur
  refine ⟨hpwGe, hpwLe, hprodGe, hprodLe, hhighLe, highTime_le_pulseWidth duty freq, hlowGe, hlowLe, hcountGe, hcountLe,
    hremLe, hdelayGe, hdelayLe, rfl, rfl, rfl, rfl, rfl, ?_⟩
  simp [noteInBounds, two_mul_highTime_lt duty hfreq, highTime_add_lowTime, *]

/-! ### The state a Note instruction answers -/

/-- A delay's start, field by field (R148). -/
theorem startDelay_eq (ch : Channel) (dur : U16) (s : State) :
    startDelay ch dur s = setTimer (timerOf ch) { matchAt := s.tick + BitVec.ofNat 32 (delayTime dur), armed := true }
      (setSeq ch { s.seq ch with out := false, highUs := 0#32, lowUs := 0#32, rem := 1#32 } s) := by
  simp [startDelay, armRel, armAt, now, latchNote, setActive]

/-- A pulse train's start, field by field (R149). -/
theorem startPulsed_eq (ch : Channel) (duty : Byte) (freq dur : U16) (s : State) :
    startPulsed ch duty freq dur s =
      setTimer (timerOf ch) { matchAt := s.tick + BitVec.ofNat 32 (highTime duty freq), armed := true }
        (setSeq ch
          { s.seq ch with
            out := true
            highUs := BitVec.ofNat 32 (highTime duty freq)
            lowUs := BitVec.ofNat 32 (lowTime duty freq)
            rem := BitVec.ofNat 32 (pulseCount freq dur) } s) := by
  simp [startPulsed, armRel, armAt, now, latchNote, setActive]

theorem exec_notePulse {freq : U16} (hfreq : freq ≠ 0#16) (ch : Channel) (duty : Byte) (dur : U16) (s : State) :
    exec (.notePulse ch duty freq dur) s = .next (startPulsed ch duty freq dur s) :=
  if_neg hfreq

/-- Settles O8: the meaning of a Skip is the advance of the index. -/
theorem skipNoteOnlyAdvancesTheIndex : Obligations.SkipNoteOnlyAdvancesTheIndex :=
  fun _ _ _ _ => rfl

/-- Settles O10: the three results fit their 32-bit registers. -/
theorem pulsedNoteLatchesItsArithmetic : Obligations.PulsedNoteLatchesItsArithmetic := by
  intro ch duty freq dur s hwf
  obtain ⟨-, hfreq⟩ : (dur ≠ 0#16 ∧ duty ≠ 0#8) ∧ freq ≠ 0#16 := by simpa [Instr.wellFormed] using hwf
  have hhigh := toNat_ofNat_of_le (highTime_lt duty freq) (by decide)
  refine ⟨BitVec.ofNat 32 (highTime duty freq), BitVec.ofNat 32 (lowTime duty freq),
    BitVec.ofNat 32 (pulseCount freq dur), hhigh, ?_, toNat_ofNat_of_le (pulseCount_lt freq dur) (by decide), ?_⟩
  · rw [hhigh]
    exact toNat_ofNat_of_le (lowTime_lt duty freq) (by decide)
  · rw [exec_notePulse hfreq, startPulsed_eq]

/-- Settles O11: the refusal is the branch of frequency 0. -/
theorem pulsedTermWithFrequencyZeroIsRefused : Obligations.PulsedTermWithFrequencyZeroIsRefused :=
  fun _ _ _ _ => rfl

/-- Settles O21: the flag is the answer's data. -/
theorem isbusyAnswersTheFlag : Obligations.IsbusyAnswersTheFlag :=
  fun _ _ => rfl

end Sys2Proof.Machine
end

section
/-! PROOF. The Note fetch, the Note start and the start of a sequence (R143 to R146). -/

open Sys2Proof.Laws.RowBits (extract_low extract_high)
open Sys2Proof.Statements (arenaByte)

namespace Sys2Proof.Machine

/-! ### Fetch -/

/-- The bytes of the record at `a`, lowest first (R88). -/
theorem noteAt_bytes (p : Params) (X : Memory) (a : Nat) :
    (noteAt p X a).extractLsb' 0 8 = byteAt p X a ∧ (noteAt p X a).extractLsb' 8 8 = byteAt p X (a + 1) ∧
      (noteAt p X a).extractLsb' 16 8 = byteAt p X (a + 2) ∧ (noteAt p X a).extractLsb' 24 8 = byteAt p X (a + 3) ∧
      (noteAt p X a).extractLsb' 32 8 = byteAt p X (a + 4) := by
  refine ⟨extract_low _ _, ?_, ?_, ?_, ?_⟩ <;> unfold noteAt
  · exact (extract_high 0 8 _ _).trans (extract_low _ _)
  · exact (extract_high 8 8 _ _).trans <| (extract_high 0 8 _ _).trans (extract_low _ _)
  · exact (extract_high 16 8 _ _).trans <| (extract_high 8 8 _ _).trans <| (extract_high 0 8 _ _).trans (extract_low _ _)
  · exact (extract_high 24 8 _ _).trans <| (extract_high 16 8 _ _).trans <| (extract_high 8 8 _ _).trans <|
      (extract_high 0 8 _ _).trans (by simp)

/-- Settles O7: where the five bytes exist the fetch is the record at the Note's address. -/
theorem noteFetchReadsTheArenaNow : Obligations.NoteFetchReadsTheArenaNow :=
  fun ch s ha => ⟨noteAt Config.params s.arena (noteAddress ch s), if_pos ha, noteAt_bytes _ _ _⟩

/-! ### Note start -/

theorem startNote_of_index_eq {ch : Channel} {s : State} (h : (s.seq ch).index = (s.seq ch).seqCount) :
    startNote ch s = .next (endSequence ch s) := by
  simp [startNote, h, startNoteLoop]

theorem toNat_index_advanceIndex {ch : Channel} {s : State} (h : (s.seq ch).index.toNat < (s.seq ch).seqCount.toNat) :
    ((advanceIndex ch s).seq ch).index.toNat = (s.seq ch).index.toNat + 1 := by
  have hlt := (s.seq ch).seqCount.isLt
  rw [advanceIndex_seq, BitVec.toNat_add, BitVec.toNat_ofNat]
  omega

theorem classifyNote_ne_skip {n : Note40} (hdur : noteDur n ≠ 0#16) : classifyNote n ≠ .skip := by
  unfold classifyNote
  rw [if_neg hdur]
  split
  · decide
  · split <;> decide

section
variable {ch : Channel} {s : State} {n : Note40} (hlt : (s.seq ch).index.toNat < (s.seq ch).seqCount.toNat)
  (hf : fetchNote ch s = some n)
include hlt hf

/-- A fetched Note that is no Skip is what the start runs (R145). -/
theorem startNote_of_not_skip (hdur : noteDur n ≠ 0#16) : startNote ch s = exec (decodeNote ch n) s := by
  obtain ⟨k, hk⟩ : ∃ k, (s.seq ch).seqCount.toNat - (s.seq ch).index.toNat = k + 1 :=
    Nat.exists_eq_add_one.2 (by omega)
  unfold startNote decodeNote
  simp only [hk, startNoteLoop, hf]
  cases hkind : classifyNote n with
  | skip => exact absurd hkind (classifyNote_ne_skip hdur)
  | delayDuty0 | delayFreq0 | pulse => rfl

/-- A fetched Skip is passed (R145). -/
theorem startNote_of_skip (hdur : noteDur n = 0#16) : startNote ch s = startNote ch (advanceIndex ch s) := by
  have hidx := toNat_index_advanceIndex hlt
  have hk : (s.seq ch).seqCount.toNat - (s.seq ch).index.toNat =
      (((advanceIndex ch s).seq ch).seqCount.toNat - ((advanceIndex ch s).seq ch).index.toNat) + 1 := by
    rw [hidx]
    simp only [advanceIndex_seq]
    omega
  have hkind : classifyNote n = .skip := if_pos hdur
  rw [startNote, hk]
  simp only [startNoteLoop, hf, hkind]
  rfl

end

/-- Settles O6: the end of the sequence, a Note that is run, and a Skip that is passed. -/
theorem noteStartRunsTheFetchedNote : Obligations.NoteStartRunsTheFetchedNote := by
  intro ch s
  refine ⟨fun h => ?_, fun n hlt hf => ⟨startNote_of_not_skip hlt hf, fun hdur => ?_⟩⟩
  · rw [startNote_of_index_eq h, endSequence, disarm, setSeq_timer]
  · refine ⟨advanceIndex ch s, ?_, startNote_of_skip hlt hf hdur⟩
    rw [decodeNote_skip ch hdur]
    rfl

/-! ### Start of a sequence -/

theorem seqPlay_of_status_ne_ok {ch : Channel} {ref : Option (Nat × Nat)} {s : State}
    (h : seqPlayStatus ch ref s ≠ .ok) : seqPlay ch ref s = .next s := by
  unfold seqPlay
  split
  · contradiction
  · rfl

/-- Settles O19: the status by the order of its tests; a status other than OK starts nothing. -/
theorem sequenceStartTestsBusyFirst : Obligations.SequenceStartTestsBusyFirst := by
  intro ch ref s
  refine ⟨fun hb => ?_, fun hb href => ?_, fun hb base n href hn => ?_⟩
  · have hst : seqPlayStatus ch ref s = .alreadyPlaying := if_pos hb
    exact ⟨hst, seqPlay_of_busy hb ref⟩
  · have hst : seqPlayStatus ch ref s = .emptySequence := by
      obtain rfl | ⟨base, rfl⟩ := href <;> simp [seqPlayStatus, hb]
    exact ⟨hst, seqPlay_of_status_ne_ok (by simp [hst])⟩
  · subst href
    have hst : seqPlayStatus ch (some (base, n)) s = .ok := by simp [seqPlayStatus, hb, hn]
    refine ⟨hst, ?_⟩
    simp only [seqPlay, hst]
    rfl

end Sys2Proof.Machine
end

section
/-! PROOF. The transition on an expiry (R148, R150, R151): its cases, that it stays on its channel (R141), and that the
expiries of the two channels commute (R152, R253). -/

namespace Sys2Proof.Machine

/-! ### The four cases -/

/-- The end of a high phase (R150). -/
theorem nextState_of_active {ch : Channel} {s : State} (h : (s.seq ch).out = true) :
    nextState ch s = .next (setTimer (timerOf ch) { matchAt := s.tick + (s.seq ch).lowUs, armed := true }
      (setSeq ch { s.seq ch with out := false } s)) := by
  rw [nextState, getActive, if_pos h]
  simp [armRel, armAt, now, setActive]

/-- The saturating decrement, as the update it is (R150). -/
theorem decrementRem_eq {ch : Channel} {s : State} {r : U32} (h : r.toNat = (s.seq ch).rem.toNat - 1) :
    decrementRem ch s = setSeq ch { s.seq ch with rem := r } s := by
  have hr : r = ((decrementRem ch s).seq ch).rem := BitVec.eq_of_toNat_eq (h.trans (decrementRem_rem ch s).symm)
  subst hr
  unfold decrementRem
  split
  · exact (setSeq_self ch s).symm
  · simp

section
variable {ch : Channel} {s : State} (hout : (s.seq ch).out = false) {r : U32}
  (hr : r.toNat = (s.seq ch).rem.toNat - 1)
include hout hr

theorem nextState_of_inactive : nextState ch s = nextPeriod ch (setSeq ch { s.seq ch with rem := r } s) := by
  rw [nextState, getActive, hout, ← decrementRem_eq hr]
  rfl

/-- Another pulse is to start (R150). -/
theorem nextState_of_rem_gt_one (h : 1 < r.toNat) :
    nextState ch s = .next (setTimer (timerOf ch) { matchAt := s.tick + (s.seq ch).highUs, armed := true }
      (setSeq ch { s.seq ch with out := true, rem := r } s)) := by
  rw [nextState_of_inactive hout hr, nextPeriod, setSeq_seq, if_pos h]
  simp [armRel, armAt, now, setActive]

/-- The gap period (R150). -/
theorem nextState_of_rem_eq_one (h : r.toNat = 1) :
    nextState ch s =
      .next (setTimer (timerOf ch) { matchAt := s.tick + ((s.seq ch).highUs + (s.seq ch).lowUs), armed := true }
        (setSeq ch { s.seq ch with rem := r } s)) := by
  rw [nextState_of_inactive hout hr, nextPeriod, setSeq_seq, if_neg (show ¬1 < r.toNat by omega), if_pos h]
  simp [armRel, armAt, now, BitVec.ofNat_add]

/-- The Note is complete (R151). -/
theorem nextState_of_rem_eq_zero (h : r.toNat = 0) :
    nextState ch s = startNote ch (setSeq ch { s.seq ch with rem := r, index := (s.seq ch).index + 1#16 } s) := by
  rw [nextState_of_inactive hout hr, nextPeriod, setSeq_seq, if_neg (show ¬1 < r.toNat by omega),
    if_neg (show ¬r.toNat = 1 by omega)]
  simp [noteComplete, advanceIndex]

end

/-- A Note whose last period or delay is over is complete: the next one starts (R150, R151). -/
theorem nextState_of_last {ch : Channel} {s : State} (hout : (s.seq ch).out = false)
    (hrem : (s.seq ch).rem.toNat ≤ 1) :
    nextState ch s = startNote ch (setSeq ch { s.seq ch with rem := 0#32, index := (s.seq ch).index + 1#16 } s) :=
  nextState_of_rem_eq_zero hout (by simp; omega) rfl

/-- Settles O13: the four cases. -/
theorem expiryTransitionFollowsTheFourCases : Obligations.ExpiryTransitionFollowsTheFourCases :=
  fun _ _ => ⟨nextState_of_active, fun hout _ hr =>
    ⟨nextState_of_rem_gt_one hout hr, nextState_of_rem_eq_one hout hr, nextState_of_rem_eq_zero hout hr⟩⟩

/-- Settles O9: both rows are `startDelay`, which latches `rem = 1`, so that the transition completes the Note. -/
theorem delayNotesArmTheirDuration : Obligations.DelayNotesArmTheirDuration := by
  intro ch duty freq dur s t
  have ht : t = startDelay ch dur s := (startDelay_eq ch dur s).symm
  refine ⟨congrArg _ ht.symm, congrArg _ ht.symm, nextState_of_last ?_ ?_⟩ <;> simp [ht]

/-! ### One channel only -/

/-- Settles O15: the step is the scheduled expiry, from a state with the response port cleared. -/
theorem expiryStepStaysOnItsChannel : Obligations.ExpiryStepStaysOnItsChannel := by
  intro s t ch rest hsched h
  rw [step_of_schedule_cons hsched, runEvent] at h
  split at h
  · exact onlyChannel_expire h
  · cases h

/-! ### The other channel -/

/-- `s` with the registers, the output and the timer channel of sequencer `ch` replaced. -/
def withChannel (ch : Channel) (q : Sequencer) (v : Timer) (s : State) : State :=
  setTimer (timerOf ch) v (setSeq ch q s)

theorem OnlyChannel.eq_withChannel {ch : Channel} {s t : State} (h : OnlyChannel ch s t) :
    t = withChannel ch (t.seq ch) (t.timer (timerOf ch)) s := h

theorem timerOf_ne {ch d : Channel} (h : d ≠ ch) : timerOf d ≠ timerOf ch := by
  revert h
  cases d <;> cases ch <;> decide

section
variable {ch d : Channel} {q : Sequencer} {v : Timer} {s : State}

@[simp] theorem withChannel_arena : (withChannel ch q v s).arena = s.arena := by simp [withChannel]
@[simp] theorem withChannel_tick : (withChannel ch q v s).tick = s.tick := by simp [withChannel]

variable (hne : d ≠ ch)
include hne

theorem withChannel_seq : (withChannel ch q v s).seq d = s.seq d := by
  rw [withChannel, setTimer_seq, setSeq_seq_of_ne hne]

theorem withChannel_timer : (withChannel ch q v s).timer (timerOf d) = s.timer (timerOf d) := by
  rw [withChannel, setTimer_timer_of_ne (timerOf_ne hne), setSeq_timer]

theorem setSeq_withChannel (r : Sequencer) :
    setSeq d r (withChannel ch q v s) = withChannel ch q v (setSeq d r s) := by
  cases ch <;> cases d
  case right.left | left.right => rfl
  all_goals exact absurd rfl hne

theorem setTimer_withChannel (u : Timer) :
    setTimer (timerOf d) u (withChannel ch q v s) = withChannel ch q v (setTimer (timerOf d) u s) := by
  cases ch <;> cases d
  case right.left | left.right => rfl
  all_goals exact absurd rfl hne

theorem armRel_withChannel (n : Nat) :
    armRel (timerOf d) n (withChannel ch q v s) = withChannel ch q v (armRel (timerOf d) n s) := by
  simp [armRel, armAt, now, setTimer_withChannel hne]

theorem setActive_withChannel (b : Bool) :
    setActive d b (withChannel ch q v s) = withChannel ch q v (setActive d b s) := by
  simp [setActive, withChannel_seq hne, setSeq_withChannel hne]

theorem advanceIndex_withChannel : advanceIndex d (withChannel ch q v s) = withChannel ch q v (advanceIndex d s) := by
  simp [advanceIndex, withChannel_seq hne, setSeq_withChannel hne]

theorem decrementRem_withChannel : decrementRem d (withChannel ch q v s) = withChannel ch q v (decrementRem d s) := by
  simp only [decrementRem, withChannel_seq hne, setSeq_withChannel hne]
  split <;> rfl

theorem takeExpiry_withChannel :
    takeExpiry (timerOf d) (withChannel ch q v s) = withChannel ch q v (takeExpiry (timerOf d) s) := by
  simp [takeExpiry, disarm, withChannel_timer hne, setTimer_withChannel hne]

theorem endSequence_withChannel : endSequence d (withChannel ch q v s) = withChannel ch q v (endSequence d s) := by
  simp [endSequence, disarm, withChannel_seq hne, withChannel_timer hne, setSeq_withChannel hne,
    setTimer_withChannel hne]

theorem startDelay_withChannel (dur : U16) :
    startDelay d dur (withChannel ch q v s) = withChannel ch q v (startDelay d dur s) := by
  simp [startDelay_eq, withChannel_seq hne, setSeq_withChannel hne, setTimer_withChannel hne]

theorem startPulsed_withChannel (duty : Byte) (freq dur : U16) :
    startPulsed d duty freq dur (withChannel ch q v s) = withChannel ch q v (startPulsed d duty freq dur s) := by
  simp [startPulsed_eq, withChannel_seq hne, setSeq_withChannel hne, setTimer_withChannel hne]

theorem fetchNote_withChannel : fetchNote d (withChannel ch q v s) = fetchNote d s := by
  have haddr : noteAddress d (withChannel ch q v s) = noteAddress d s := by
    rw [noteAddress, noteAddress, withChannel_seq hne]
  rw [fetchNote, fetchNote, haddr, withChannel_arena]

end

/-- `f`, a meaning on channel `d`, neither reads nor writes channel `ch`: it answers the same with that channel
replaced. -/
def Ignores (ch : Channel) (f : State → Host.Outcome State Fault Refusal) : Prop :=
  ∀ q v s, f (withChannel ch q v s) = andThen (f s) fun t => .next (withChannel ch q v t)

theorem ignores_startNoteLoop {ch d : Channel} (hne : d ≠ ch) (k : Nat) : Ignores ch (startNoteLoop d k) := by
  intro q v s
  induction k generalizing s with
  | zero =>
    simp only [startNoteLoop, withChannel_seq hne, endSequence_withChannel hne]
    split <;> rfl
  | succ k ih =>
    simp only [startNoteLoop, fetchNote_withChannel hne]
    cases fetchNote d s with
    | none => rfl
    | some n =>
      cases hkind : classifyNote n with
      | skip =>
        simp only [hkind, execNoteSkip, andThen, advanceIndex_withChannel hne]
        exact ih (advanceIndex d s)
      | delayDuty0 => simp only [hkind, execNoteDelayDuty0, andThen, startDelay_withChannel hne]
      | delayFreq0 => simp only [hkind, execNoteDelayFreq0, andThen, startDelay_withChannel hne]
      | pulse =>
        simp only [hkind, execNotePulse, startPulsed_withChannel hne]
        split <;> rfl

theorem ignores_noteComplete {ch d : Channel} (hne : d ≠ ch) : Ignores ch (noteComplete d) := by
  intro q v s
  rw [noteComplete, advanceIndex_withChannel hne, startNote, withChannel_seq hne]
  exact ignores_startNoteLoop hne _ q v _

theorem ignores_nextPeriod {ch d : Channel} (hne : d ≠ ch) : Ignores ch (nextPeriod d) := by
  intro q v s
  simp only [nextPeriod, withChannel_seq hne, setActive_withChannel hne, armRel_withChannel hne]
  split
  · rfl
  · split
    · rfl
    · exact ignores_noteComplete hne q v s

theorem ignores_nextState {ch d : Channel} (hne : d ≠ ch) : Ignores ch (nextState d) := by
  intro q v s
  simp only [nextState, getActive, withChannel_seq hne, setActive_withChannel hne,
    armRel_withChannel hne, decrementRem_withChannel hne]
  by_cases hout : (s.seq d).out = true
  · simp only [hout]
    rfl
  · simp only [hout]
    exact ignores_nextPeriod hne q v (decrementRem d s)

theorem ignores_expire {ch d : Channel} (hne : d ≠ ch) : Ignores ch (expire (timerOf d)) := by
  intro q v s
  simp only [expire_timerOf, takeExpiry_withChannel hne]
  exact ignores_nextState hne q v _

theorem withChannel_comm {ch d : Channel} (hne : d ≠ ch) (q r : Sequencer) (v u : Timer) (s : State) :
    withChannel d r u (withChannel ch q v s) = withChannel ch q v (withChannel d r u s) := by
  calc withChannel d r u (withChannel ch q v s)
      = setTimer (timerOf d) u (withChannel ch q v (setSeq d r s)) := congrArg _ (setSeq_withChannel hne r)
    _ = withChannel ch q v (withChannel d r u s) := setTimer_withChannel hne u

/-- Settles O16: each expiry replaces its own channel only, and the other neither reads nor writes that channel. -/
theorem expiriesOfTheTwoChannelsCommute : Obligations.ExpiriesOfTheTwoChannelsCommute := by
  intro ch d s s1 s2 hne h1 h2
  have hs1 := (onlyChannel_expire h1).eq_withChannel
  have hd := ignores_expire hne.symm (s1.seq ch) (s1.timer (timerOf ch)) s
  rw [← hs1, h2] at hd
  obtain ⟨u, hu, hs2⟩ := andThen_next hd.symm
  refine ⟨u, hu, ?_⟩
  have hu' := (onlyChannel_expire hu).eq_withChannel
  calc expire (timerOf ch) u
      = andThen (expire (timerOf ch) s) fun t => .next (withChannel d (u.seq d) (u.timer (timerOf d)) t) := by
        rw [← ignores_expire hne, ← hu']
    _ = .next (withChannel d (u.seq d) (u.timer (timerOf d)) s1) := by rw [h1]; rfl
    _ = .next (withChannel ch (s1.seq ch) (s1.timer (timerOf ch)) u) := by
        rw [hu', ← withChannel_comm hne.symm, ← hs1, ← hu']
    _ = .next s2 := hs2

end Sys2Proof.Machine
end

section
/-! PROOF. Steps with nothing scheduled (log 1): a due expiry, else a Tick; and that expiries alone cannot go on for ever at
one tick (R159). -/

namespace Sys2Proof.Machine

/-! ### Runs -/

theorem run_succ (k : Nat) (s : State) : core.run (k + 1) s = andThen (step s) (core.run k) := by
  have hcore : core.step s = step s := rfl
  simp only [Host.Core.run, hcore]
  cases step s <;> rfl

/-- The last step of a run. -/
theorem run_succ_last (k : Nat) (s : State) : core.run (k + 1) s = andThen (core.run k s) step := by
  induction k generalizing s with
  | zero =>
    rw [run_succ]
    change andThen (step s) (core.run 0) = step s
    cases step s <;> rfl
  | succ k ih =>
    rw [run_succ, run_succ k]
    cases step s with
    | next t => exact ih t
    | fault r => rfl
    | refused r => rfl

theorem run_succ_of_run {k : Nat} {s t u : State} (h : core.run k s = .next t) (hstep : step t = .next u) :
    core.run (k + 1) s = .next u := by
  rw [run_succ_last, h]
  exact hstep

/-! ### The step taken -/

section
variable {s : State} (hs : s.schedule = [])
include hs

theorem step_of_nothing_due (hnone : ∀ c, due c s = false) :
    step s = .next { s with tick := s.tick + 1#32, response := none } := by
  obtain ⟨-, -, htick, -⟩ := stepTakesTheScheduledEvent s
  exact htick hs hnone

theorem step_of_due {c : TimerId} (hc : due c s = true) :
    ∃ d n, due d s = true ∧ step s = expire d { s with response := none, freeCount := n } := by
  obtain ⟨-, -, -, hexpire, -⟩ := stepTakesTheScheduledEvent s
  obtain ⟨d, n, hd, -, hstep⟩ := hexpire hs c hc
  exact ⟨d, n, hd, hstep⟩

theorem step_of_only_due {c : TimerId} (hc : due c s = true) (honly : ∀ d, due d s = true → d = c) :
    step s = expire c (clearResponse s) := by
  obtain ⟨-, -, -, hexpire, -⟩ := stepTakesTheScheduledEvent s
  obtain ⟨d, n, hd, hn, hstep⟩ := hexpire hs c hc
  rw [hstep, honly d hd, hn honly]
  rfl

end

/-- An expiry leaves the schedule (R125). -/
theorem expire_schedule {c : TimerId} {s t : State} (h : expire c s = .next t) : t.schedule = s.schedule := by
  have of_channel : ∀ ch, expire (timerOf ch) s = .next t → t.schedule = s.schedule := by
    intro ch h
    obtain ⟨-, -, -, -, hsched, -⟩ := (onlyChannel_expire h).frame
    exact hsched
  cases c with
  | c0 => exact of_channel .right h
  | c1 => exact of_channel .left h
  | c2 =>
    obtain rfl := Host.Outcome.next.inj h
    exact takeExpiry_schedule ..

/-- An expiry leaves every timer channel but its own (R125, R152). -/
theorem expire_timer_of_ne {c d : TimerId} {s t : State} (hd : d ≠ c) (h : expire c s = .next t) :
    t.timer d = s.timer d := by
  cases c with
  | c0 => exact (onlyChannel_expire (ch := .right) h).timer_of_ne hd
  | c1 => exact (onlyChannel_expire (ch := .left) h).timer_of_ne hd
  | c2 =>
    obtain rfl := Host.Outcome.next.inj h
    exact setTimer_timer_of_ne hd _ _

/-! ### Expiries at one tick -/

/-- A channel armed for a later tick is not due (R123). -/
theorem not_due_of_armed_later {c : TimerId} {s : State} {d : U32} (hm : (s.timer c).matchAt = s.tick + d)
    (hd : 1 ≤ d.toNat) : due c s = false := by
  rw [Bool.eq_false_iff, Ne, due_iff, hm]
  rintro ⟨-, h⟩
  have h0 : d = 0#32 := by simpa using h
  simp [h0] at hd

/-- After a Note start the channel is not due, unless a pulse begins (R145, R148). -/
theorem active_or_not_due_of_startNote {ch : Channel} {s t : State} (h : startNote ch s = .next t) :
    (t.seq ch).out = true ∨ due (timerOf ch) t = false := by
  obtain ⟨-, -, rfl⟩ | ⟨j, -, -, hbegun⟩ := startNoteLoop_next h
  · simp [due]
  · cases hbegun with
    | pulsed _ _ _ _ _ ht => simp [ht]
    | delayed n _ hd _ ht =>
      subst ht
      obtain ⟨hge, hle⟩ := delayTime_bounds hd
      have hnat := toNat_ofNat_of_le hle (by decide)
      exact Or.inr (not_due_of_armed_later (by rw [startDelay_timer, startDelay_tick]) (by omega))

/-- How many expiries of channel `ch` can still run at this tick: a pulse that begins may be over at once. -/
def expiriesLeft (ch : Channel) (s : State) : Nat :=
  if due (timerOf ch) s then if (s.seq ch).out then 1 else 2 else 0

theorem expiriesLeft_le (ch : Channel) (s : State) : expiriesLeft ch s ≤ 2 := by
  unfold expiriesLeft
  split
  · split <;> decide
  · decide

theorem expiriesLeft_of_not_due {ch : Channel} {s : State} (h : due (timerOf ch) s = false) :
    expiriesLeft ch s = 0 := by
  simp [expiriesLeft, h]

theorem expiriesLeft_le_one {ch : Channel} {s : State} (h : (s.seq ch).out = true ∨ due (timerOf ch) s = false) :
    expiriesLeft ch s ≤ 1 := by
  obtain h | h := h
  · simp only [expiriesLeft, h, if_true]
    split <;> decide
  · simp [expiriesLeft_of_not_due h]

theorem expiriesLeft_congr {ch : Channel} {s t : State} (hseq : t.seq ch = s.seq ch)
    (htimer : t.timer (timerOf ch) = s.timer (timerOf ch)) (htick : t.tick = s.tick) :
    expiriesLeft ch t = expiriesLeft ch s := by
  have hdue : due (timerOf ch) t = due (timerOf ch) s := by rw [due, due, htimer, htick]
  rw [expiriesLeft, expiriesLeft, hdue, hseq]

/-- After the transition of a playing channel the channel is due again only where a pulse begins; and a pulse that
ends leaves it not due, its low phase being at least 8 µs (R150, R155). -/
theorem nextState_expiriesLeft {ch : Channel} {s t : State} (hq : SequencerOk (s.seq ch) true)
    (h : nextState ch s = .next t) :
    ((s.seq ch).out = true → expiriesLeft ch t = 0) ∧ ((s.seq ch).out = false → expiriesLeft ch t ≤ 1) := by
  have hlatched := hq.pulseLatched hq.busyArmed
  refine ⟨fun hout => ?_, fun hout => expiriesLeft_le_one ?_⟩
  · rw [nextState_of_active hout] at h
    obtain rfl := Host.Outcome.next.inj h
    obtain ⟨-, hlow⟩ := hlatched (Or.inl hout)
    exact expiriesLeft_of_not_due (not_due_of_armed_later (d := (s.seq ch).lowUs) (by simp) (by omega))
  · obtain ⟨r, hr⟩ : ∃ r : U32, r.toNat = (s.seq ch).rem.toNat - 1 := ⟨_, decrementRem_rem ch s⟩
    by_cases hgt : 1 < r.toNat
    · rw [nextState_of_rem_gt_one hout hr hgt] at h
      obtain rfl := Host.Outcome.next.inj h
      simp
    by_cases hone : r.toNat = 1
    · rw [nextState_of_rem_eq_one hout hr hone] at h
      obtain rfl := Host.Outcome.next.inj h
      obtain ⟨hsum, -⟩ := hlatched (Or.inr (by omega))
      have hhigh := hq.highLe
      have hlow := hq.lowLe
      refine Or.inr (not_due_of_armed_later (d := (s.seq ch).highUs + (s.seq ch).lowUs) (by simp) ?_)
      rw [BitVec.toNat_add]
      omega
    · rw [nextState_of_rem_eq_zero hout hr (by omega)] at h
      exact active_or_not_due_of_startNote h

/-- An expiry leaves fewer on its own channel. -/
theorem expiriesLeft_lt {ch : Channel} {s t : State} (hs : Inv s) (hdue : due (timerOf ch) s = true)
    (h : expire (timerOf ch) s = .next t) : expiriesLeft ch t < expiriesLeft ch s := by
  have hq : SequencerOk ((takeExpiry (timerOf ch) s).seq ch) true := by
    rw [takeExpiry_seq, ← due_armed hdue]
    exact hs.sequencerOk ch
  rw [expire_timerOf] at h
  obtain ⟨hactive, hinactive⟩ := nextState_expiriesLeft hq h
  rw [takeExpiry_seq] at hactive hinactive
  have hleft : expiriesLeft ch s = if (s.seq ch).out then 1 else 2 := if_pos hdue
  cases hout : (s.seq ch).out with
  | true => simp [hleft, hout, hactive hout]
  | false => simpa [hleft, hout] using Nat.lt_succ_of_le (hinactive hout)

/-- The expiries that can still run at this tick. -/
def allExpiriesLeft (s : State) : Nat := expiriesLeft .right s + expiriesLeft .left s

theorem expire_expiriesLeft_of_ne {ch d : Channel} (hne : d ≠ ch) {s t : State}
    (h : expire (timerOf ch) s = .next t) : expiriesLeft d t = expiriesLeft d s :=
  expiriesLeft_congr ((onlyChannel_expire h).seq_of_ne hne) ((onlyChannel_expire h).timer_of_ne (timerOf_ne hne))
    (expire_tick h)

theorem allExpiriesLeft_lt {c : TimerId} {s t : State} (hs : Inv s) (hdue : due c s = true)
    (h : expire c s = .next t) : allExpiriesLeft t < allExpiriesLeft s := by
  unfold allExpiriesLeft
  cases c with
  | c0 =>
    have hown := expiriesLeft_lt (ch := .right) hs hdue h
    have hother := expire_expiriesLeft_of_ne (ch := .right) (d := .left) (by decide) h
    omega
  | c1 =>
    have hown := expiriesLeft_lt (ch := .left) hs hdue h
    have hother := expire_expiriesLeft_of_ne (ch := .left) (d := .right) (by decide) h
    omega
  | c2 => exact absurd ((due_armed hdue).symm.trans hs.spareIdle) (by decide)

/-- From a state that meets the invariant the next step is a Tick, after at most as many expiries as are left. -/
theorem tick_after_expiriesLeft {s : State} (hs : Inv s) (hsched : s.schedule = []) :
    ∃ k ≤ allExpiriesLeft s, ∃ t, core.run k s = .next t ∧ t.tick = s.tick ∧
      step t = .next { t with tick := s.tick + 1#32, response := none } := by
  induction hn : allExpiriesLeft s using Nat.strong_induction_on generalizing s with
  | h n ih =>
    subst hn
    by_cases hnone : ∀ c, due c s = false
    · exact ⟨0, Nat.zero_le _, s, rfl, rfl, step_of_nothing_due hsched hnone⟩
    · obtain ⟨c, hc⟩ : ∃ c, due c s = true := by simpa using hnone
      obtain ⟨d, n, hd, hstep⟩ := step_of_due hsched hc
      have hs' : Inv { s with response := none, freeCount := n } := hs.with_ports ..
      have hd' : due d { s with response := none, freeCount := n } = true := by cases d <;> exact hd
      obtain ⟨u, hu⟩ := expire_total hs' hd'
      have hlt : allExpiriesLeft u < allExpiriesLeft s := (allExpiriesLeft_lt hs' hd' hu).trans_eq rfl
      obtain ⟨k, hk, t, hrun, htick, ht⟩ :=
        ih _ hlt (hs'.of_expire hd' hu) ((expire_schedule hu).trans hsched) rfl
      have hutick : u.tick = s.tick := (expire_tick hu).trans rfl
      rw [hutick] at htick ht
      refine ⟨k + 1, by omega, t, ?_, htick, ht⟩
      rw [run_succ, hstep, hu]
      exact hrun

/-- Settles O58: two expiries on each channel at most. -/
theorem timeGoesOnWithinFourExpiries : Obligations.TimeGoesOnWithinFourExpiries := by
  intro s hs hsched
  obtain ⟨k, hk, h⟩ := tick_after_expiriesLeft hs hsched
  exact ⟨k, hk.trans (Nat.add_le_add (expiriesLeft_le .right s) (expiriesLeft_le .left s)), h⟩

end Sys2Proof.Machine
end

section
/-! PROOF. The course of a Note in time (R156, R158): a Note is a row of stretches, each from one expiry of its channel to
the next. Ticks pass within a stretch, the channel's expiry ends it, and nothing else touches it (R152). -/

open Sys2Proof.Statements (PlaysAlone CompletesNext)

namespace Sys2Proof.Machine

/-! ### Stretches -/

/-- What a sequencer does between two expiries: whether it drives its output, the count it holds, and the µs from the
Note's start at which it begins and is due. -/
structure Stretch where
  drives : Bool
  rem : Nat
  start : Nat
  stop : Nat

/-- In `v`, `e` µs after tick `t0`, channel `ch` is in stretch `p` of a Note with latched phases `high` and `low`. -/
structure InStretch (ch : Channel) (t0 : U32) (high low : Nat) (p : Stretch) (e : Nat) (v : State) : Prop where
  fits : p.stop < 2 ^ 32
  started : p.start ≤ e
  running : e ≤ p.stop
  tick : v.tick = t0 + BitVec.ofNat 32 e
  out : (v.seq ch).out = p.drives
  rem : (v.seq ch).rem.toNat = p.rem
  highUs : (v.seq ch).highUs.toNat = high
  lowUs : (v.seq ch).lowUs.toNat = low
  timer : v.timer (timerOf ch) = { matchAt := t0 + BitVec.ofNat 32 p.stop, armed := true }

section
variable {ch : Channel} {t0 : U32} {high low e : Nat} {p : Stretch} {u v : State}

/-- A stretch is read from the channel's registers, its timer and the counter (R152). -/
theorem InStretch.congr (hv : InStretch ch t0 high low p e v) (hseq : u.seq ch = v.seq ch)
    (htimer : u.timer (timerOf ch) = v.timer (timerOf ch)) (htick : u.tick = v.tick) :
    InStretch ch t0 high low p e u :=
  ⟨hv.fits, hv.started, hv.running, htick.trans hv.tick, hseq ▸ hv.out, hseq ▸ hv.rem, hseq ▸ hv.highUs,
    hseq ▸ hv.lowUs, htimer.trans hv.timer⟩

theorem InStretch.clearResponse (hv : InStretch ch t0 high low p e v) :
    InStretch ch t0 high low p e (clearResponse v) :=
  hv.congr (clearResponse_seq v ch) (clearResponse_timer v _) rfl

/-- The channel is due exactly at the end of the stretch (R123, R125). -/
theorem InStretch.due_iff (hv : InStretch ch t0 high low p e v) : due (timerOf ch) v = true ↔ e = p.stop := by
  rw [Machine.due_iff, hv.timer, hv.tick]
  exact (and_iff_right rfl).trans (add_ofNat_inj (hv.running.trans_lt hv.fits) hv.fits)

theorem InStretch.elapsed (hv : InStretch ch t0 high low p e v) : (v.tick - t0).toNat = e := by
  have hsub : v.tick - t0 = BitVec.ofNat 32 e := by
    rw [hv.tick, BitVec.add_comm, BitVec.add_sub_cancel]
  rw [hsub, toNat_ofNat_of_le (hv.running.trans (Nat.le_pred_of_lt hv.fits)) (by decide)]

/-- A microsecond passes within a stretch (R121). -/
theorem InStretch.pass_tick (hv : InStretch ch t0 high low p e v) (he : e < p.stop) :
    InStretch ch t0 high low p (e + 1) { v with tick := v.tick + 1#32, response := none } := by
  have htick : v.tick + 1#32 = t0 + BitVec.ofNat 32 (e + 1) := by
    rw [hv.tick, BitVec.add_assoc, BitVec.ofNat_add]
  have hseq : ({ v with tick := v.tick + 1#32, response := none } : State).seq ch = v.seq ch := by cases ch <;> rfl
  have htimer : ({ v with tick := v.tick + 1#32, response := none } : State).timer (timerOf ch) = v.timer (timerOf ch) := by
    cases ch <;> rfl
  exact ⟨hv.fits, hv.started.trans (Nat.le_succ e), he, htick, hseq ▸ hv.out, hseq ▸ hv.rem, hseq ▸ hv.highUs,
    hseq ▸ hv.lowUs, htimer.trans hv.timer⟩

/-- The registers and the arm that begin a stretch. -/
theorem inStretch_of_armed {q : Sequencer} {d : U32} (hfits : p.stop < 2 ^ 32) (htick : v.tick = t0 + BitVec.ofNat 32 e)
    (hstart : p.start = e) (hstop : p.stop = e + d.toNat) (hout : q.out = p.drives) (hrem : q.rem.toNat = p.rem)
    (hhigh : q.highUs.toNat = high) (hlow : q.lowUs.toNat = low) :
    InStretch ch t0 high low p e (setTimer (timerOf ch) { matchAt := v.tick + d, armed := true } (setSeq ch q v)) := by
  have hmatch : v.tick + d = t0 + BitVec.ofNat 32 p.stop := by
    rw [htick, hstop, BitVec.ofNat_add, BitVec.ofNat_toNat, BitVec.setWidth_eq, BitVec.add_assoc]
  refine ⟨hfits, hstart.le, hstop ▸ Nat.le_add_right e _, ?_, ?_, ?_, ?_, ?_, ?_⟩
  · rw [setTimer_tick, setSeq_tick, htick]
  · rw [setTimer_seq, setSeq_seq, hout]
  · rw [setTimer_seq, setSeq_seq, hrem]
  · rw [setTimer_seq, setSeq_seq, hhigh]
  · rw [setTimer_seq, setSeq_seq, hlow]
  · rw [setTimer_timer, hmatch]

/-- The expiry of a stretch that is the Note's last completes the Note (R150, R151). -/
theorem InStretch.expire_of_last (hv : InStretch ch t0 high low p e v) (hout : p.drives = false) (hrem : p.rem ≤ 1) :
    expire (timerOf ch) v = startNote ch
      (setSeq ch { v.seq ch with rem := 0#32, index := (v.seq ch).index + 1#16 }
        (setTimer (timerOf ch) { v.timer (timerOf ch) with armed := false } v)) := by
  rw [expire_timerOf, nextState_of_last, takeExpiry_seq]
  · rfl
  · rw [takeExpiry_seq, hv.out, hout]
  · rw [takeExpiry_seq, hv.rem]
    exact hrem

/-! ### A channel that plays alone -/

theorem playsAlone_of_onlyChannel (ha : PlaysAlone ch v) (h : OnlyChannel ch v u) : PlaysAlone ch u := by
  obtain ⟨hsched, hothers⟩ := ha
  obtain ⟨-, -, -, -, hsched', -⟩ := h.frame
  exact ⟨hsched'.trans hsched, fun c hc => by rw [h.timer_of_ne hc, hothers c hc]⟩

/-- Alone, no other channel is ever due. -/
theorem eq_of_due_of_playsAlone (ha : PlaysAlone ch v) {c : TimerId} (hc : due c v = true) : c = timerOf ch := by
  by_contra hne
  exact absurd ((due_armed hc).symm.trans (ha.2 c hne)) (by decide)

theorem step_due_of_playsAlone (ha : PlaysAlone ch v) (hdue : due (timerOf ch) v = true) :
    step v = expire (timerOf ch) (clearResponse v) :=
  step_of_only_due ha.1 hdue fun _ => eq_of_due_of_playsAlone ha

/-- Alone and not due, the channel lets time pass, and stays alone. -/
theorem step_tick_of_playsAlone (ha : PlaysAlone ch v) (hdue : due (timerOf ch) v = false) :
    step v = .next { v with tick := v.tick + 1#32, response := none } ∧
      PlaysAlone ch { v with tick := v.tick + 1#32, response := none } := by
  have hnone : ∀ c, due c v = false := fun c => Bool.eq_false_iff.2 fun hc =>
    Bool.false_ne_true (hdue.symm.trans (eq_of_due_of_playsAlone ha hc ▸ hc))
  refine ⟨step_of_nothing_due ha.1 hnone, ha.1, fun c hc => ?_⟩
  rw [← ha.2 c hc]
  cases c <;> rfl

/-- Alone, the step at the end of the Note's last stretch is the Note completion. -/
theorem InStretch.completesNext (hv : InStretch ch t0 high low p p.stop v) (ha : PlaysAlone ch v)
    (hout : p.drives = false) (hrem : p.rem ≤ 1) : CompletesNext ch v := by
  unfold CompletesNext
  rw [step_due_of_playsAlone ha (hv.due_iff.2 rfl), hv.clearResponse.expire_of_last hout hrem, clearResponse_seq, clearResponse_timer]
  rfl

/-- Alone, a stretch that begins with the Note lasts until its end. -/
theorem InStretch.run_alone (hv : InStretch ch t0 high low p 0 v) (ha : PlaysAlone ch v) {k : Nat} (hk : k ≤ p.stop) :
    ∃ u, core.run k v = .next u ∧ PlaysAlone ch u ∧ InStretch ch t0 high low p k u := by
  induction k with
  | zero => exact ⟨v, rfl, ha, hv⟩
  | succ k ih =>
    obtain ⟨u, hrun, hau, hu⟩ := ih (Nat.le_of_succ_le hk)
    have hdue : due (timerOf ch) u = false := Bool.eq_false_iff.2 fun h => Nat.ne_of_lt hk (hu.due_iff.1 h)
    obtain ⟨hstep, hau'⟩ := step_tick_of_playsAlone hau hdue
    exact ⟨_, run_succ_of_run hrun hstep, hau', hu.pass_tick hk⟩

end

/-! ### A Delay Note -/

/-- The one stretch of a Delay Note (R148). -/
def delayStretch (dur : U16) : Stretch := ⟨false, 1, 0, delayTime dur⟩

theorem inStretch_startDelay (ch : Channel) {dur : U16} (hdur : dur ≠ 0#16) (s : State) :
    InStretch ch s.tick 0 0 (delayStretch dur) 0 (startDelay ch dur s) := by
  obtain ⟨-, hle⟩ := delayTime_bounds hdur
  have hlt : delayTime dur < 2 ^ 32 := by omega
  rw [startDelay_eq]
  exact inStretch_of_armed hlt (by simp) rfl (by simp [delayStretch, toNat_ofNat_of_le hle]) rfl rfl rfl rfl

/-- Settles O18: both rows begin the one stretch of the delay. -/
theorem delayNoteLastsItsDuration : Obligations.DelayNoteLastsItsDuration := by
  intro ch i duty freq dur s s1 hdur hi ha h
  have hs1 : startDelay ch dur s = s1 := by
    obtain rfl | rfl := hi <;> exact Host.Outcome.next.inj h
  subst hs1
  have h0 := inStretch_startDelay ch hdur s
  have ha0 := playsAlone_of_onlyChannel ha (onlyChannel_startDelay ch dur s)
  refine ⟨fun k hk => ?_, ?_⟩
  · obtain ⟨v, hrun, -, hv⟩ := h0.run_alone ha0 hk
    exact ⟨v, hrun, hv.out, hv.tick, hv.due_iff⟩
  · obtain ⟨u, hrun, hau, hu⟩ := h0.run_alone ha0 (Nat.le_refl _)
    exact ⟨u, hrun, hu.completesNext hau rfl (Nat.le_refl 1)⟩

/-! ### The stretches of a Pulsed Note -/

/-- How many expiries a Pulsed Note of count `N` takes (R156). -/
def expiryCount (N : Nat) : Nat := if 2 ≤ N then 2 * N - 1 else 2

/-- The stretch of a Pulsed Note of period `pw`, high time `high` and count `N` after `x` of its expiries: the high and
the low phases of its `max 1 (N - 1)` pulses, then, from two periods on, the gap period (R149 to R151). -/
inductive PulseStretch (pw high N : Nat) : Nat → Stretch → Prop
  | high (i : Nat) (hi : i < max 1 (N - 1)) : PulseStretch pw high N (2 * i) ⟨true, N - i, i * pw, i * pw + high⟩
  | low (i : Nat) (hi : i < max 1 (N - 1)) :
    PulseStretch pw high N (2 * i + 1) ⟨false, N - i, i * pw + high, (i + 1) * pw⟩
  | gap (hN : 2 ≤ N) : PulseStretch pw high N (2 * (N - 1)) ⟨false, 1, (N - 1) * pw, N * pw⟩

section
variable {pw high N x : Nat} {p : Stretch} (hp : PulseStretch pw high N x p)
include hp

theorem PulseStretch.lt_expiryCount : x < expiryCount N := by
  unfold expiryCount
  cases hp <;> split <;> omega

theorem PulseStretch.stop_le (hhigh : high ≤ pw) : p.stop ≤ max 1 N * pw := by
  cases hp with
  | high i hi =>
    calc i * pw + high ≤ (i + 1) * pw := by rw [Nat.succ_mul]; omega
      _ ≤ max 1 N * pw := Nat.mul_le_mul_right pw (by omega)
  | low i hi => exact Nat.mul_le_mul_right pw (by omega)
  | gap hN => exact Nat.mul_le_mul_right pw (by omega)

/-- The stretch that ends with the last period is inactive, counts at most 1, and has the last expiry. -/
theorem PulseStretch.last_of_stop (hhigh : high < pw) (hstop : max 1 N * pw ≤ p.stop) :
    p.drives = false ∧ p.rem ≤ 1 ∧ p.stop = max 1 N * pw ∧ x + 1 = expiryCount N := by
  have hle := hp.stop_le hhigh.le
  cases hp with
  | high i hi =>
    have hlt : i * pw + high < max 1 N * pw :=
      calc i * pw + high < (i + 1) * pw := by rw [Nat.succ_mul]; omega
        _ ≤ max 1 N * pw := Nat.mul_le_mul_right pw (by omega)
    exact absurd hstop (Nat.not_le.2 hlt)
  | low i hi =>
    have hi' : max 1 N ≤ i + 1 := Nat.le_of_mul_le_mul_right hstop (by omega)
    refine ⟨rfl, ?_, Nat.le_antisymm hle hstop, ?_⟩
    · show N - i ≤ 1
      omega
    · unfold expiryCount
      split <;> omega
  | gap hN =>
    refine ⟨rfl, Nat.le_refl 1, Nat.le_antisymm hle hstop, ?_⟩
    simp only [expiryCount, if_pos hN]
    omega

/-- Where `e` lies in a stretch before its end, the stretch drives the output exactly on the first `high` µs of each of
the first `max 1 (N - 1)` periods (R156). -/
theorem PulseStretch.drives_iff (hhigh : high ≤ pw) {e : Nat} (hstart : p.start ≤ e) (hstop : e < p.stop) :
    p.drives = true ↔ e / pw < max 1 (N - 1) ∧ e % pw < high := by
  cases hp with
  | high i hi =>
    simp only at hstart hstop
    obtain ⟨d, rfl⟩ := Nat.exists_eq_add_of_le hstart
    have hd : d < high := by omega
    have hdiv : (i * pw + d) / pw = i := by
      rw [Nat.mul_comm, Nat.mul_add_div (by omega), Nat.div_eq_of_lt (by omega), Nat.add_zero]
    have hmod : (i * pw + d) % pw = d := by
      rw [Nat.mul_comm, Nat.mul_add_mod, Nat.mod_eq_of_lt (by omega)]
    rw [hdiv, hmod]
    exact iff_of_true rfl ⟨hi, hd⟩
  | low i hi =>
    simp only at hstart hstop
    obtain ⟨d, rfl⟩ := Nat.exists_eq_add_of_le (Nat.le_of_add_right_le hstart)
    rw [Nat.succ_mul] at hstop
    have hmod : (i * pw + d) % pw = d := by
      rw [Nat.mul_comm, Nat.mul_add_mod, Nat.mod_eq_of_lt (by omega)]
    rw [hmod]
    exact iff_of_false Bool.false_ne_true fun ⟨_, h⟩ => by omega
  | gap hN =>
    have hdiv : N - 1 ≤ e / pw := (Nat.le_div_iff_mul_le (Nat.pos_of_ne_zero (by rintro rfl; exact Nat.not_lt_zero e hstop))).2 hstart
    exact iff_of_false Bool.false_ne_true fun ⟨h, _⟩ => by omega

end

section
variable {ch : Channel} {t0 : U32} {pw high low N x e : Nat} {p : Stretch} {v : State}

/-- The expiry that ends a stretch before the last begins the next one (R150). -/
theorem PulseStretch.next (hp : PulseStretch pw high N x p) (hpw : high + low = pw) (hfits : max 1 N * pw < 2 ^ 32)
    (hv : InStretch ch t0 high low p p.stop v) (hlt : p.stop < max 1 N * pw) :
    ∃ t p', expire (timerOf ch) v = .next t ∧ PulseStretch pw high N (x + 1) p' ∧
      InStretch ch t0 high low p' p.stop t := by
  obtain ⟨-, -, -, htick, hout, hrem, hhigh, hlow, -⟩ := hv
  rw [expire_timerOf]
  rw [← takeExpiry_seq (timerOf ch)] at hout hrem hhigh hlow
  rw [← takeExpiry_tick (timerOf ch)] at htick
  have hfits' : ∀ {q y}, PulseStretch pw high N y q → q.stop < 2 ^ 32 := fun hq =>
    (hq.stop_le (by omega)).trans_lt hfits
  generalize takeExpiry (timerOf ch) v = w at *
  obtain ⟨r, hr⟩ : ∃ r : U32, r.toNat = (w.seq ch).rem.toNat - 1 := ⟨_, decrementRem_rem ch w⟩
  cases hp with
  | high i hi =>
    have hp' : PulseStretch pw high N (2 * i + 1) _ := .low i hi
    refine ⟨_, _, nextState_of_active hout, hp', inStretch_of_armed (hfits' hp') htick rfl ?_ rfl hrem hhigh hlow⟩
    show (i + 1) * pw = i * pw + high + (w.seq ch).lowUs.toNat
    rw [hlow, Nat.add_assoc, hpw, Nat.succ_mul]
  | low i hi =>
    have hr' : r.toNat = N - (i + 1) := hr.trans (congrArg (· - 1) hrem)
    have hi' : i + 1 < max 1 N := Nat.lt_of_mul_lt_mul_right hlt
    by_cases hgt : 1 < r.toNat
    · have hp' : PulseStretch pw high N (2 * (i + 1)) _ := .high (i + 1) (by omega)
      exact ⟨_, _, nextState_of_rem_gt_one hout hr hgt, hp',
        inStretch_of_armed (hfits' hp') htick rfl (congrArg _ hhigh.symm) rfl hr' hhigh hlow⟩
    · have hN : N - 1 = i + 1 := by omega
      have hone : r.toNat = 1 := by omega
      have hp' : PulseStretch pw high N (2 * (N - 1)) _ := .gap (by omega)
      have hsum : ((w.seq ch).highUs + (w.seq ch).lowUs).toNat = pw := by
        rw [BitVec.toNat_add, hhigh, hlow, hpw,
          Nat.mod_eq_of_lt ((Nat.le_mul_of_pos_left pw (by omega)).trans_lt hfits)]
      have hstop : N * pw = (i + 1) * pw + ((w.seq ch).highUs + (w.seq ch).lowUs).toNat := by
        rw [hsum, ← hN, ← Nat.succ_mul, Nat.succ_eq_add_one, Nat.sub_add_cancel (by omega)]
      have hx : 2 * (N - 1) = 2 * i + 1 + 1 := by omega
      exact ⟨_, _, nextState_of_rem_eq_one hout hr hone, hx ▸ hp',
        inStretch_of_armed (hfits' hp') htick (congrArg (· * pw) hN) hstop hout hone hhigh hlow⟩
  | gap hN => exact absurd hlt (Nat.not_lt.2 (Nat.mul_le_mul_right pw (by omega)))

end

/-! ### A Pulsed Note -/

/-- In `v`, the Pulsed Note that channel `ch` started at tick `t0` has taken `x` expiries and `e` µs. -/
def Pulsing (ch : Channel) (duty : Byte) (freq dur : U16) (t0 : U32) (x e : Nat) (v : State) : Prop :=
  ∃ p, PulseStretch (pulseWidth freq) (highTime duty freq) (pulseCount freq dur) x p ∧
    InStretch ch t0 (highTime duty freq) (lowTime duty freq) p e v

/-- What a Pulsed Note lasts: `max 1 N` periods (R156). -/
def pulsedTime (freq dur : U16) : Nat := max 1 (pulseCount freq dur) * pulseWidth freq

theorem pulsedTime_lt {freq : U16} (hfreq : freq ≠ 0#16) (dur : U16) : pulsedTime freq dur < 2 ^ 32 := by
  have hdelay : delayTime dur ≤ 65535 * 1000 := Nat.mul_le_mul_right 1000 (Nat.le_pred_of_lt dur.isLt)
  have hcount := pulseCount_mul_pulseWidth_le hfreq dur
  have hpw := pulseWidth_le freq
  unfold pulsedTime
  by_cases hN : pulseCount freq dur ≤ 1
  · rw [Nat.max_eq_left hN]
    omega
  · rw [Nat.max_eq_right (by omega)]
    omega

section
variable {ch : Channel} {duty : Byte} {freq dur : U16} (hfreq : freq ≠ 0#16)
include hfreq

theorem highTime_lt_pulseWidth : highTime duty freq < pulseWidth freq := by
  have := two_mul_highTime_lt duty hfreq
  omega

/-- A Pulsed Note begins with its first high phase (R149). -/
theorem pulsing_startPulsed (s : State) : Pulsing ch duty freq dur s.tick 0 0 (startPulsed ch duty freq dur s) := by
  have hp : PulseStretch (pulseWidth freq) (highTime duty freq) (pulseCount freq dur) (2 * 0) _ :=
    .high 0 (by omega)
  have hhigh := toNat_ofNat_of_le (highTime_lt duty freq) (by decide)
  have hfits := (hp.stop_le (highTime_lt_pulseWidth hfreq).le).trans_lt (pulsedTime_lt hfreq dur)
  refine ⟨_, hp, ?_⟩
  rw [startPulsed_eq]
  exact inStretch_of_armed hfits (by simp) (Nat.zero_mul _) (by simp [hhigh]) rfl
    (toNat_ofNat_of_le (pulseCount_lt freq dur) (by decide)) hhigh
    (toNat_ofNat_of_le (lowTime_lt duty freq) (by decide))

variable {t0 : U32} {x e : Nat} {v : State} (hv : Pulsing ch duty freq dur t0 x e v)
include hv

theorem Pulsing.le_pulsedTime : e ≤ pulsedTime freq dur := by
  obtain ⟨p, hp, hin⟩ := hv
  exact hin.running.trans (hp.stop_le (highTime_lt_pulseWidth hfreq).le)

/-- Where the channel is not due the output follows the waveform of R156. -/
theorem Pulsing.out_iff (hdue : due (timerOf ch) v = false) :
    (v.seq ch).out = true ↔
      e / pulseWidth freq < max 1 (pulseCount freq dur - 1) ∧ e % pulseWidth freq < highTime duty freq := by
  obtain ⟨p, hp, hin⟩ := hv
  have hne : e ≠ p.stop := fun h => Bool.false_ne_true (hdue.symm.trans (hin.due_iff.2 h))
  rw [hin.out]
  exact hp.drives_iff (highTime_lt_pulseWidth hfreq).le hin.started (hin.running.lt_of_ne hne)

/-- At the end of the last period the Note is in its last stretch, and due. -/
theorem Pulsing.last (he : e = pulsedTime freq dur) :
    x + 1 = expiryCount (pulseCount freq dur) ∧ ∃ p, p.drives = false ∧ p.rem ≤ 1 ∧ e = p.stop ∧
      InStretch ch t0 (highTime duty freq) (lowTime duty freq) p e v := by
  obtain ⟨p, hp, hin⟩ := hv
  obtain ⟨hout, hrem, hstop, hx⟩ := hp.last_of_stop (highTime_lt_pulseWidth hfreq) (he.ge.trans hin.running)
  exact ⟨hx, p, hout, hrem, he.trans hstop.symm, hin⟩

/-- The channel's expiry before the end of the last period goes on with the Note. -/
theorem Pulsing.expire (hdue : due (timerOf ch) v = true) (he : e < pulsedTime freq dur) :
    ∃ t, Machine.expire (timerOf ch) v = .next t ∧ Pulsing ch duty freq dur t0 (x + 1) e t := by
  obtain ⟨p, hp, hin⟩ := hv
  obtain rfl := hin.due_iff.1 hdue
  obtain ⟨t, p', ht, hp', hin'⟩ := hp.next (highTime_add_lowTime duty freq) (pulsedTime_lt hfreq dur) hin he
  exact ⟨t, ht, p', hp', hin'⟩

omit hfreq in
/-- A Tick, taken with nothing due, is one microsecond of the Note. -/
theorem Pulsing.pass_tick (hdue : due (timerOf ch) v = false) :
    Pulsing ch duty freq dur t0 x (e + 1) { v with tick := v.tick + 1#32, response := none } := by
  obtain ⟨p, hp, hin⟩ := hv
  have hne : e ≠ p.stop := fun h => Bool.false_ne_true (hdue.symm.trans (hin.due_iff.2 h))
  exact ⟨p, hp, hin.pass_tick (hin.running.lt_of_ne hne)⟩

omit hfreq in
theorem Pulsing.congr {u : State} (hseq : u.seq ch = v.seq ch)
    (htimer : u.timer (timerOf ch) = v.timer (timerOf ch)) (htick : u.tick = v.tick) :
    Pulsing ch duty freq dur t0 x e u := by
  obtain ⟨p, hp, hin⟩ := hv
  exact ⟨p, hp, hin.congr hseq htimer htick⟩

omit hfreq in
theorem Pulsing.elapsed : (v.tick - t0).toNat = e := by
  obtain ⟨p, hp, hin⟩ := hv
  exact hin.elapsed

/-! ### A Pulsed Note alone -/

/-- Alone, every step before the last expiry is a Tick or an expiry of the Note. -/
theorem Pulsing.step_alone (ha : PlaysAlone ch v)
    (hlt : e + x < pulsedTime freq dur + (expiryCount (pulseCount freq dur) - 1)) :
    ∃ u x' e', step v = .next u ∧ PlaysAlone ch u ∧ Pulsing ch duty freq dur t0 x' e' u ∧ e' + x' = e + x + 1 := by
  cases hdue : due (timerOf ch) v with
  | false =>
    obtain ⟨hstep, ha'⟩ := step_tick_of_playsAlone ha hdue
    exact ⟨_, x, e + 1, hstep, ha', hv.pass_tick hdue, by omega⟩
  | true =>
    have he : e < pulsedTime freq dur := by
      refine (hv.le_pulsedTime hfreq).lt_of_ne fun he => ?_
      obtain ⟨hx, -⟩ := hv.last hfreq he
      omega
    have hclear : Pulsing ch duty freq dur t0 x e (clearResponse v) :=
      hv.congr (clearResponse_seq v ch) (clearResponse_timer v _) rfl
    have hdue' : due (timerOf ch) (clearResponse v) = true :=
      (due_congr (clearResponse_timer v) (clearResponse_tick v) _).trans hdue
    obtain ⟨t, ht, hv'⟩ := hclear.expire hfreq hdue' he
    have hsame : PlaysAlone ch (clearResponse v) := ⟨ha.1, fun c hc => by rw [clearResponse_timer, ha.2 c hc]⟩
    exact ⟨t, x + 1, e, (step_due_of_playsAlone ha hdue).trans ht,
      playsAlone_of_onlyChannel hsame (onlyChannel_expire ht), hv', by omega⟩

omit hv in
/-- Alone, the Note has taken one step per microsecond and one per expiry, up to the last expiry. -/
theorem Pulsing.run_alone (hv : Pulsing ch duty freq dur t0 0 0 v) (ha : PlaysAlone ch v) {k : Nat}
    (hk : k ≤ pulsedTime freq dur + (expiryCount (pulseCount freq dur) - 1)) :
    ∃ u x e, core.run k v = .next u ∧ PlaysAlone ch u ∧ Pulsing ch duty freq dur t0 x e u ∧ e + x = k := by
  induction k with
  | zero => exact ⟨v, 0, 0, rfl, ha, hv, rfl⟩
  | succ k ih =>
    obtain ⟨u, x, e, hrun, hau, hu, rfl⟩ := ih (Nat.le_of_succ_le hk)
    obtain ⟨w, x', e', hstep, haw, hw, hk'⟩ := hu.step_alone hfreq hau hk
    exact ⟨w, x', e', run_succ_of_run hrun hstep, haw, hw, hk'⟩

/-- After as many steps the last period is over. -/
theorem Pulsing.eq_pulsedTime (hk : e + x = pulsedTime freq dur + (expiryCount (pulseCount freq dur) - 1)) :
    e = pulsedTime freq dur := by
  have hle := hv.le_pulsedTime hfreq
  obtain ⟨p, hp, -⟩ := hv
  have hx := hp.lt_expiryCount
  omega

/-! ### A Pulsed Note beside the other channel -/

/-- With nothing scheduled, whatever step is taken before the last period is over, the Note goes on (R152). -/
theorem Pulsing.step_beside {u : State} (hs : v.schedule = []) (he : e < pulsedTime freq dur) (h : step v = .next u) :
    u.schedule = [] ∧ ∃ x' e', Pulsing ch duty freq dur t0 x' e' u := by
  by_cases hnone : ∀ c, due c v = false
  · rw [step_of_nothing_due hs hnone] at h
    obtain rfl := Host.Outcome.next.inj h
    exact ⟨hs, x, e + 1, hv.pass_tick (hnone _)⟩
  · obtain ⟨c, hc⟩ : ∃ c, due c v = true := by simpa using hnone
    obtain ⟨d, n, hd, hstep⟩ := step_of_due hs hc
    rw [hstep] at h
    refine ⟨(expire_schedule h).trans hs, ?_⟩
    have hw : Pulsing ch duty freq dur t0 x e { v with response := none, freeCount := n } :=
      hv.congr (by cases ch <;> rfl) (by cases ch <;> rfl) rfl
    by_cases hown : d = timerOf ch
    · subst hown
      obtain ⟨t, ht, hv'⟩ := hw.expire hfreq (by cases ch <;> exact hd) he
      obtain rfl := Host.Outcome.next.inj (ht.symm.trans h)
      exact ⟨x + 1, e, hv'⟩
    · exact ⟨x, e, hw.congr (expire_seq_of_ne hown h) (expire_timer_of_ne (Ne.symm hown) h) (expire_tick h)⟩

omit hv in
/-- With nothing scheduled, the Note goes on in every state reached before its periods are over. -/
theorem Pulsing.run_beside {s u : State} {k : Nat} (hv : Pulsing ch duty freq dur t0 0 0 s) (hs : s.schedule = [])
    (hbefore : ∀ j < k, ∃ w, core.run j s = .next w ∧ (w.tick - t0).toNat < pulsedTime freq dur)
    (hrun : core.run k s = .next u) : u.schedule = [] ∧ ∃ x e, Pulsing ch duty freq dur t0 x e u := by
  induction k generalizing u with
  | zero =>
    obtain rfl := Host.Outcome.next.inj hrun
    exact ⟨hs, 0, 0, hv⟩
  | succ k ih =>
    obtain ⟨w, hw, he⟩ := hbefore k (Nat.lt_succ_self k)
    obtain ⟨hsw, x, e, hpw⟩ := ih (fun j hj => hbefore j (Nat.lt_succ_of_lt hj)) hw
    rw [hpw.elapsed] at he
    rw [run_succ_last, hw] at hrun
    exact hpw.step_beside hfreq hsw he hrun

end

/-- Settles O17: the steps of a Note alone are its microseconds and its expiries; the waveform is read off its stretches. -/
theorem pulsedNoteMakesItsWaveform : Obligations.PulsedNoteMakesItsWaveform := by
  intro ch duty freq dur s s1 _ hfreq _ ha h
  obtain rfl := Host.Outcome.next.inj ((exec_notePulse hfreq ch duty dur s).symm.trans h)
  have hv0 : Pulsing ch duty freq dur s.tick 0 0 (startPulsed ch duty freq dur s) := pulsing_startPulsed hfreq s
  have ha0 := playsAlone_of_onlyChannel ha (onlyChannel_startPulsed ch duty freq dur s)
  refine ⟨fun _ => pulseCount_mul_pulseWidth_le hfreq dur, fun k hk => ?_, ?_⟩
  · obtain ⟨v, x, e, hrun, -, hv, -⟩ := hv0.run_alone hfreq ha0 hk
    refine ⟨v, hrun, fun hnone => ?_⟩
    rw [hv.elapsed]
    exact hv.out_iff hfreq (hnone _)
  · obtain ⟨u, x, e, hrun, hau, hu, hk⟩ := hv0.run_alone hfreq ha0 (Nat.le_refl _)
    have he := hu.eq_pulsedTime hfreq hk
    obtain ⟨-, p, hout, hrem, rfl, hin⟩ := hu.last hfreq he
    exact ⟨u, hrun, hin.tick.trans (congrArg (s.tick + BitVec.ofNat 32 ·) he), hin.due_iff.2 rfl, hin.completesNext hau hout hrem⟩

/-- Settles O60: no step but the Note's own expiry and a Tick touches its stretch. -/
theorem waveformBesideTheOtherChannel : Obligations.WaveformBesideTheOtherChannel := by
  intro ch duty freq dur s s1 v k _ hfreq _ hs h
  obtain rfl := Host.Outcome.next.inj ((exec_notePulse hfreq ch duty dur s).symm.trans h)
  have hv0 : Pulsing ch duty freq dur s.tick 0 0 (startPulsed ch duty freq dur s) := pulsing_startPulsed hfreq s
  intro pw high N elapsed hbefore hrun
  obtain ⟨hsv, x, e, hv⟩ := hv0.run_beside hfreq ((startPulsed_schedule ..).trans hs)
    (fun j hj => hbefore j hj.le) hrun
  refine ⟨fun hdue => ?_, fun u hstep hend => ?_⟩
  · show _ ↔ (v.tick - s.tick).toNat / pw < _ ∧ (v.tick - s.tick).toNat % pw < _
    rw [hv.elapsed]
    exact hv.out_iff hfreq hdue
  · obtain ⟨w, hw, he⟩ := hbefore k (Nat.le_refl k)
    obtain rfl := Host.Outcome.next.inj (hw.symm.trans hrun)
    obtain ⟨-, x', e', hu⟩ := hv.step_beside hfreq hsv (hv.elapsed.symm.trans_lt he) hstep
    obtain ⟨-, p, hout, hrem, rfl, hin⟩ := hu.last hfreq (hu.elapsed.symm.trans hend)
    exact ⟨hin.due_iff.2 rfl, hin.expire_of_last hout hrem⟩

end Sys2Proof.Machine
end

section
/-! PROOF. What an image's views say (R174, R179, R181), where a Note slot is (R183, R252), and the store queries (R180 to
R183, R190, R191). -/

open Sys2Proof.Statements (arenaByte jingles responded)

namespace Sys2Proof.Machine

/-! ### Views of an image -/

section
variable {p : Params} {X : Memory} {ch : Channel} {idx base n : Nat}

theorem offsetOf_eq (p : Params) (X : Memory) (i : Nat) :
    offsetOf p X i = (byteAt p X (6 + 2 * i)).toNat + 256 * (byteAt p X (7 + 2 * i)).toNat := by
  rw [offsetOf, read16, Nat.add_right_comm]

/-- The table entry of a Jingle that exists points past the table, its counts in bounds (R179). -/
def EntryGood (p : Params) (X : Memory) (idx : Nat) : Prop :=
  hdr (countOf p X) ≤ offsetOf p X idx ∧ offsetOf p X idx + 4 ≤ Config.cap

theorem jingleOffset_of_count_le (h : countOf p X ≤ idx) : jingleOffset p X idx = none := if_pos h

theorem jingleOffset_of_good (h : idx < countOf p X) (hgood : EntryGood p X idx) :
    jingleOffset p X idx = some (offsetOf p X idx) := by
  obtain ⟨hlow, hhigh⟩ := hgood
  exact (if_neg (Nat.not_le.2 h)).trans (if_neg (by omega))

theorem jingleOffset_of_not_good (h : idx < countOf p X) (hgood : ¬ EntryGood p X idx) :
    jingleOffset p X idx = none := by
  unfold EntryGood at hgood
  exact (if_neg (Nat.not_le.2 h)).trans (if_pos (by omega))

theorem ValidImage.entryGood (hv : ValidImage p X) (h : idx < countOf p X) : EntryGood p X idx := by
  have hstop := hv.stop idx h
  have hsize := four_le_sizeAt p X (offsetOf p X idx)
  exact ⟨hv.start idx h, by omega⟩

theorem notesOf_ne_none (hv : isValid p X = true) (h : idx < countOf p X) (ch : Channel) : notesOf p X ch idx ≠ none := by
  rw [notesOf_of_valid p ((isValid_iff p X).1 hv) h ch]
  cases ch <;> exact Option.some_ne_none _

end

/-- Settles O23: V3's middle bound is a part of its last, and the rest is `isValid_iff`. -/
theorem validityIsTheFourConditions : Obligations.ValidityIsTheFourConditions := by
  intro p X n off size
  have hoff : off = offsetOf p X := funext fun i => (offsetOf_eq p X i).symm
  have hsize : size = sizeAt p X := rfl
  rw [isValid_iff, hoff, hsize]
  constructor
  · intro hv
    exact ⟨hv.magic, hv.header, fun i hi => ⟨hv.start i hi, (hv.entryGood hi).2, hv.stop i hi⟩, hv.order⟩
  · rintro ⟨hmagic, hheader, hblob, horder⟩
    exact ⟨hmagic, hheader, fun i hi => (hblob i hi).1, fun i hi => (hblob i hi).2.2, horder⟩

/-- Settles O26: with an offset, the bound on the Notes decides. -/
theorem notesViewOfABlob : Obligations.NotesViewOfABlob := by
  intro p X idx
  refine ⟨fun hnone ch => by simp only [notesOf, hnone], fun o ho => ⟨fun hout ch => ?_, fun hin => ?_⟩,
    fun ch base n h => ?_, fun hv hidx => notesOf_ne_none hv hidx⟩
  · simp only [notesOf, ho]
    exact if_pos hout
  · simp only [notesOf, ho]
    exact ⟨if_neg (Nat.not_lt.2 hin), if_neg (Nat.not_lt.2 hin)⟩
  · obtain ⟨-, -, -, hend, hcap⟩ := notesOf_some p h
    exact hend.trans hcap

/-! ### Note slots -/

section
variable {p : Params} {X : Memory} {idx : Byte} {ch : Channel} {k : U16} {base n : Nat}

theorem noteSlot_of_count_le (h : countOf p X ≤ idx.toNat) : noteSlot p X idx ch k = .error .badIndex := if_pos h

theorem noteSlot_of_notesOf_none (h : idx.toNat < countOf p X) (hn : notesOf p X ch idx.toNat = none) :
    noteSlot p X idx ch k = .error .invalidPersistedData := by
  simp only [noteSlot, if_neg (Nat.not_le.2 h), hn]

theorem noteSlot_of_notesOf_some (hn : notesOf p X ch idx.toNat = some (base, n)) :
    noteSlot p X idx ch k = if n ≤ k.toNat then .error .badIndex else .ok (base + 5 * k.toNat) := by
  obtain ⟨hidx, -⟩ := notesOf_some p hn
  simp only [noteSlot, if_neg (Nat.not_le.2 hidx), hn]

theorem noteSlot_of_le (hn : notesOf p X ch idx.toNat = some (base, n)) (hk : n ≤ k.toNat) :
    noteSlot p X idx ch k = .error .badIndex := (noteSlot_of_notesOf_some hn).trans (if_pos hk)

theorem noteSlot_of_lt (hn : notesOf p X ch idx.toNat = some (base, n)) (hk : k.toNat < n) :
    noteSlot p X idx ch k = .ok (base + 5 * k.toNat) :=
  (noteSlot_of_notesOf_some hn).trans (if_neg (Nat.not_le.2 hk))

end

/-! ### The queries -/

section
variable {s : State} {idx : Byte} {ch : Channel} {k : U16} {a n base : Nat} {e : Status}

theorem exec_offset_of_count_le (h : jingles s ≤ idx.toNat) : exec (.offset idx) s = .next (raise .badIndex s) :=
  congrArg _ (if_pos h)

theorem exec_offset_of_none (h : idx.toNat < jingles s)
    (ho : jingleOffset Config.params s.arena idx.toNat = none) :
    exec (.offset idx) s = .next (raise .invalidPersistedData s) := by
  refine congrArg _ ((if_neg (Nat.not_le.2 h)).trans ?_)
  rw [ho]

theorem exec_offset_of_some (ho : jingleOffset Config.params s.arena idx.toNat = some a) :
    exec (.offset idx) s = .next (answer (natData a) s) := by
  obtain ⟨hidx, -⟩ := jingleOffset_some Config.params ho
  refine congrArg _ ((if_neg (Nat.not_le.2 hidx)).trans ?_)
  rw [ho]

theorem exec_notecount_of_count_le (h : jingles s ≤ idx.toNat) :
    exec (.notecount idx ch) s = .next (raise .badIndex s) :=
  congrArg _ (if_pos h)

theorem exec_notecount_of_none (h : idx.toNat < jingles s)
    (hn : notesOf Config.params s.arena ch idx.toNat = none) :
    exec (.notecount idx ch) s = .next (raise .invalidPersistedData s) := by
  refine congrArg _ ((if_neg (Nat.not_le.2 h)).trans ?_)
  rw [hn]

theorem exec_notecount_of_some (hn : notesOf Config.params s.arena ch idx.toNat = some (base, n)) :
    exec (.notecount idx ch) s = .next (answer (natData n) s) := by
  obtain ⟨hidx, -⟩ := notesOf_some Config.params hn
  refine congrArg _ ((if_neg (Nat.not_le.2 hidx)).trans ?_)
  rw [hn]

theorem exec_getnote_of_error (h : noteSlot Config.params s.arena idx ch k = .error e) :
    exec (.getnote idx ch k) s = .next (raise e s) := by
  simp only [exec, execGetnote, getNote, h]

theorem exec_getnote_of_ok (h : noteSlot Config.params s.arena idx ch k = .ok a) :
    exec (.getnote idx ch k) s = .next (answer (noteAt Config.params s.arena a) s) := by
  simp only [exec, execGetnote, getNote, h]

end

/-- Settles O22: both answer what they read. -/
theorem countAndBytesfreeAnswer : Obligations.CountAndBytesfreeAnswer := fun _ => ⟨rfl, rfl⟩

/-- Settles O24: the answer is the validity, which is I1. -/
theorem isvalidAnswersValidity : Obligations.IsvalidAnswersValidity := by
  intro s
  have hexec : exec .isvalid s = .next (responded 0#8 (if isValid Config.params s.arena then 1#40 else 0#40) s) := rfl
  exact ⟨hexec, fun hs => hexec.trans (by rw [if_pos hs.valid])⟩

/-- Settles O25: past the count, and below it the two kinds of entry. -/
theorem offsetAnswersTheTableEntry : Obligations.OffsetAnswersTheTableEntry := by
  intro s idx o good
  have ho : o = offsetOf Config.params s.arena idx.toNat := (offsetOf_eq ..).symm
  have hgood : good = EntryGood Config.params s.arena idx.toNat := by
    rw [EntryGood, ← ho]
    rfl
  rw [hgood, ho]
  refine ⟨fun h => ⟨jingleOffset_of_count_le h, exec_offset_of_count_le h⟩, fun h hg => ?_, fun h hg => ?_,
    fun hv h => ((isValid_iff _ _).1 hv).entryGood h⟩
  · have hoff := jingleOffset_of_good h hg
    exact ⟨hoff, exec_offset_of_some hoff⟩
  · have hoff := jingleOffset_of_not_good h hg
    exact ⟨hoff, exec_offset_of_none h hoff⟩

/-- Settles O27: the three cases of the view; a valid image has one. -/
theorem notecountAnswersTheCount : Obligations.NotecountAnswersTheCount :=
  fun _ _ ch => ⟨exec_notecount_of_count_le, exec_notecount_of_none, fun _ _ => exec_notecount_of_some,
    fun hv h => notesOf_ne_none hv h ch⟩

/-- Settles O28: the errors and the address are the Note slot's. -/
theorem getnoteAnswersTheRecord : Obligations.GetnoteAnswersTheRecord :=
  fun _ _ _ _ => ⟨fun h => exec_getnote_of_error (noteSlot_of_count_le h),
    fun h hn => exec_getnote_of_error (noteSlot_of_notesOf_none h hn),
    fun _ _ hn => ⟨fun hk => exec_getnote_of_error (noteSlot_of_le hn hk),
      fun hk => exec_getnote_of_ok (noteSlot_of_lt hn hk)⟩⟩

end Sys2Proof.Machine
end

section
/-! PROOF. The commands that write the arena in place or empty it: CLEAR (R178) and SETNOTE (R184). -/

open Sys2Proof.Statements (EmptyArena)

namespace Sys2Proof.Machine

/-! ### CLEAR -/

theorem emptyArena_clearArena (s : State) : EmptyArena (clearArena s) := fun _ _ => rfl

/-- Settles O29: an unlisted address reads as the empty image. -/
theorem clearLeavesTheEmptyImage : Obligations.ClearLeavesTheEmptyImage := fun s =>
  ⟨answer 0#40 (clearArena s), rfl, emptyArena_clearArena s, rfl, rfl⟩

/-! ### SETNOTE -/

section
variable {s : State} {idx : Byte} {ch : Channel} {k : U16} {duty : Byte} {freq dur : U16} {a : Nat}

theorem exec_setnote_of_error {e : Status} (h : noteSlot Config.params s.arena idx ch k = .error e) :
    exec (.setnote idx ch k duty freq dur) s = .next (raise e s) := by
  simp only [exec, execSetnote, setNote, h]

theorem exec_setnote_of_ok (h : noteSlot Config.params s.arena idx ch k = .ok a) :
    exec (.setnote idx ch k duty freq dur) s =
      .next (answer 0#40 (writeNote Config.params a duty freq dur s)) := by
  simp only [exec, execSetnote, setNote, h]

end

/-- The byte of a range write at offset `k` of the range. -/
theorem byteAt_writeRange_add (p : Params) (X : Memory) (a : Nat) {bs : List Byte} {k : Nat} (hk : k < bs.length) :
    byteAt p (Memory.writeRange (arenaUnlisted p) X a bs) (a + k) = bs[k] := by
  rw [byteAt_writeRange, dif_pos (by omega)]
  simp only [Nat.add_sub_cancel_left]

/-- Settles O30: the errors and the address are the Note slot's, and the write is one of five bytes there. -/
theorem setnoteWritesFiveBytes : Obligations.SetnoteWritesFiveBytes := by
  intro s idx ch k duty freq dur
  refine ⟨fun h => exec_setnote_of_error (noteSlot_of_count_le h),
    fun h hn => exec_setnote_of_error (noteSlot_of_notesOf_none h hn),
    fun base n hn => ⟨fun hk => exec_setnote_of_error (noteSlot_of_le hn hk), fun hk => ?_⟩⟩
  have hslot := noteSlot_of_lt hn hk
  have hbyte (j : Nat) (hj : j < 5) :=
    byteAt_writeRange_add Config.params s.arena (base + 5 * k.toNat) (bs := noteBytes duty freq dur) hj
  exact ⟨_, exec_setnote_of_ok hslot, rfl, hbyte 0 (by decide), hbyte 1 (by decide), hbyte 2 (by decide),
    hbyte 3 (by decide), hbyte 4 (by decide),
    fun x hx => byteAt_writeRange_of_not_mem Config.params hx,
    fun hv => (valid_used_writeNote Config.params hv hslot duty freq dur).1⟩

end Sys2Proof.Machine
end

section
/-! PROOF. ADD and DELETE (R185 to R189): the blob lists they pack, the image they leave, and where ADD moves the blobs. -/

open Sys2Proof.Statements (arenaByte jingles responded)

namespace Sys2Proof.Machine

/-! ### Blob lists -/

/-- The blob list of ADD: `b` inserted at index `a` (R186). -/
def inserted (J : List (List Byte)) (a : Nat) (b : List Byte) : List (List Byte) := J.take a ++ [b] ++ J.drop a

/-- The blob list of DELETE: without blob `a` (R188). -/
def erased (J : List (List Byte)) (a : Nat) : List (List Byte) := J.take a ++ J.drop (a + 1)

section
variable {J : List (List Byte)} {a i : Nat} {b : List Byte}

theorem erased_eq_eraseIdx (J : List (List Byte)) (a : Nat) : erased J a = J.eraseIdx a :=
  (List.eraseIdx_eq_take_drop_succ J a).symm

theorem erased_length (ha : a < J.length) : (erased J a).length + 1 = J.length := by
  rw [erased_eq_eraseIdx, List.length_eraseIdx_add_one ha]

section
variable (ha : a ≤ J.length)
include ha

theorem inserted_eq_insertIdx : inserted J a b = J.insertIdx a b := by
  induction J generalizing a with
  | nil =>
    obtain rfl := Nat.le_zero.1 ha
    rfl
  | cons c J ih =>
    cases a with
    | zero => rfl
    | succ a => exact congrArg (c :: ·) (ih (Nat.le_of_succ_le_succ ha))

theorem inserted_length : (inserted J a b).length = J.length + 1 := by
  rw [inserted_eq_insertIdx ha, List.length_insertIdx_of_le_length ha]

theorem erased_inserted : erased (inserted J a b) a = J := by
  rw [erased_eq_eraseIdx, inserted_eq_insertIdx ha, List.eraseIdx_insertIdx_self]

theorem getElem?_inserted_self : (inserted J a b)[a]? = some b := by
  rw [inserted_eq_insertIdx ha, List.getElem?_insertIdx_self, if_pos ha]

theorem getElem?_inserted_of_lt (hi : i < a) : (inserted J a b)[i]? = J[i]? := by
  rw [inserted_eq_insertIdx ha, List.getElem?_insertIdx_of_lt hi]

theorem getElem?_inserted_succ (hi : a ≤ i) : (inserted J a b)[i + 1]? = J[i]? := by
  rw [inserted_eq_insertIdx ha, List.getElem?_insertIdx_of_gt (Nat.lt_succ_of_le hi), Nat.succ_sub_one]

/-- Up to its own index, the new blob adds a table entry in front of the others (R187). -/
theorem startOf_inserted (hi : i ≤ a) : startOf (inserted J a b) i = startOf J i + 2 := by
  rw [startOf, inserted_length ha, inserted_eq_insertIdx ha, List.take_insertIdx_eq_take_of_le _ _ _ _ hi, startOf]
  unfold hdr
  omega

/-- Above its own index, the new blob adds a table entry and its bytes (R187). -/
theorem startOf_inserted_succ (hi : a ≤ i) : startOf (inserted J a b) (i + 1) = startOf J i + 2 + b.length := by
  have htake : (inserted J a b).take (i + 1) = inserted (J.take i) a b := by
    obtain ⟨d, rfl⟩ := Nat.exists_eq_add_of_le hi
    simp [inserted, List.take_append, ha, List.take_take, List.drop_take, Nat.add_assoc]
  rw [startOf, inserted_length ha, htake, inserted, flatten_insert_length, startOf]
  unfold hdr
  omega

end
end

/-! ### A packed image -/

section
variable {p : Params} {X : Memory} {J : List (List Byte)}

theorem packed_iff : packed p X = true ↔
    isValid p X = true ∧ X = pack p (byteAt p X 2) (byteAt p X 3) (byteAt p X 5) (blobsOf p X) := by
  rw [packed, Bool.and_eq_true, decide_eq_true_eq]

/-- What `Pack` builds is packed (R176). -/
theorem packed_pack (h : Packable J) (r2 r3 r5 : Byte) : packed p (pack p r2 r3 r5 J) = true :=
  packed_iff.2 ⟨isValid_pack p r2 r3 r5 h, by
    rw [byteAt_pack_two, byteAt_pack_three, byteAt_pack_five, blobsOf_pack p r2 r3 r5 h]⟩

/-- In a packed image blob `i` lies where `Pack` puts it. -/
theorem offsetOf_packed (h : packed p X = true) {i : Nat} (hi : i < countOf p X) :
    offsetOf p X i = startOf (blobsOf p X) i := by
  obtain ⟨hv, hX⟩ := packed_iff.1 h
  conv_lhs => rw [hX]
  exact offsetOf_pack p _ _ _ (blobsOf_packable p hv) (by rwa [blobsOf_length])

theorem usedOf_eq_startOf (p : Params) (X : Memory) : usedOf p X = startOf (blobsOf p X) (countOf p X) := by
  rw [usedOf_eq, startOf, blobsOf_length, ← blobsOf_length p X, List.take_length]

theorem getElem?_blobsOf {i : Nat} (hi : i < countOf p X) :
    (blobsOf p X)[i]? = some (readBytes p X (offsetOf p X i) (sizeAt p X (offsetOf p X i))) := by
  simp [blobsOf, List.getElem?_range hi]

/-- Blob `j` of `Y` and blob `i` of `X`, where they are the same blob, byte by byte. -/
theorem byteAt_of_same_blob {Y : Memory} {i j k : Nat} (hi : i < countOf p X) (hj : j < countOf p Y)
    (hblob : (blobsOf p Y)[j]? = (blobsOf p X)[i]?) (hk : k < sizeAt p X (offsetOf p X i)) :
    byteAt p Y (offsetOf p Y j + k) = byteAt p X (offsetOf p X i + k) := by
  rw [getElem?_blobsOf hi, getElem?_blobsOf hj] at hblob
  have hbytes := Option.some.inj hblob
  have hsize := congrArg List.length hbytes
  rw [readBytes_length, readBytes_length] at hsize
  rw [← readBytes_getD p Y _ (hsize ▸ hk), ← readBytes_getD p X _ hk, hbytes]

end

/-! ### Where a packed insertion moves the blobs -/

section
variable {p : Params} {X Y : Memory} {a i : Nat} {b : List Byte} (hX : packed p X = true) (hY : packed p Y = true)
  (ha : a ≤ countOf p X) (hJ : blobsOf p Y = inserted (blobsOf p X) a b)
include hX hY ha hJ

omit hX hY in
theorem countOf_inserted : countOf p Y = countOf p X + 1 := by
  rw [← blobsOf_length p Y, hJ, inserted_length (by rwa [blobsOf_length]), blobsOf_length]

/-- A blob below the new one moves by its table entry (R187). -/
theorem blob_below_inserted (hi : i < a) : offsetOf p Y i = offsetOf p X i + 2 ∧
    ∀ k < sizeAt p X (offsetOf p X i), byteAt p Y (offsetOf p X i + 2 + k) = byteAt p X (offsetOf p X i + k) := by
  have hcount := countOf_inserted ha hJ
  have hle : a ≤ (blobsOf p X).length := by rwa [blobsOf_length]
  have hoff : offsetOf p Y i = offsetOf p X i + 2 := by
    rw [offsetOf_packed hY (by omega), hJ, startOf_inserted hle hi.le, offsetOf_packed hX (by omega)]
  refine ⟨hoff, fun k hk => ?_⟩
  rw [← hoff]
  exact byteAt_of_same_blob (by omega) (by omega) (by rw [hJ, getElem?_inserted_of_lt hle hi]) hk

/-- The new blob lies above the old place of its index, or above all (R187). -/
theorem offsetOf_inserted_self : offsetOf p Y a = (if a < countOf p X then offsetOf p X a else usedOf p X) + 2 := by
  have hcount := countOf_inserted ha hJ
  rw [offsetOf_packed hY (by omega), hJ, startOf_inserted (by rwa [blobsOf_length]) (Nat.le_refl a)]
  split
  next hlt => rw [offsetOf_packed hX hlt]
  next hnlt => rw [usedOf_eq_startOf, Nat.le_antisymm ha (Nat.not_lt.1 hnlt)]

/-- A blob from the index on moves by the table entry and the new blob (R187). -/
theorem blob_above_inserted (hi : a ≤ i) (hic : i < countOf p X) : offsetOf p Y (i + 1) = offsetOf p X i + 2 + b.length ∧
    ∀ k < sizeAt p X (offsetOf p X i),
      byteAt p Y (offsetOf p X i + 2 + b.length + k) = byteAt p X (offsetOf p X i + k) := by
  have hcount := countOf_inserted ha hJ
  have hle : a ≤ (blobsOf p X).length := by rwa [blobsOf_length]
  have hoff : offsetOf p Y (i + 1) = offsetOf p X i + 2 + b.length := by
    rw [offsetOf_packed hY (by omega), hJ, startOf_inserted_succ hle hi, offsetOf_packed hX hic]
  refine ⟨hoff, fun k hk => ?_⟩
  rw [← hoff]
  exact byteAt_of_same_blob hic (by omega) (by rw [hJ, getElem?_inserted_succ hle hi]) hk

end

/-! ### What ADD and DELETE leave -/

/-- `t` is `s` with `OK` answered, the blobs `J` packed in the arena, the reserved bytes kept, and `n` bytes free. -/
structure Repacked (s : State) (J : List (List Byte)) (n : Nat) (t : State) : Prop where
  frame : t = responded 0#8 0#40 { s with arena := t.arena, bytesFree := t.bytesFree }
  free : t.bytesFree.toNat = n
  count : jingles t = J.length
  blobs : blobsOf Config.params t.arena = J
  reserved : arenaByte t 2 = arenaByte s 2 ∧ arenaByte t 3 = arenaByte s 3 ∧ arenaByte t 5 = arenaByte s 5
  packed : packed Config.params t.arena = true

theorem Repacked.response {s t : State} {J : List (List Byte)} {n : Nat} (h : Repacked s J n t) :
    t.response = some (0#40 ++ 0#8) := congrArg State.response h.frame

/-- Packed images with the same reserved bytes and the same blobs are one image. -/
theorem Repacked.arena_eq {s t : State} {J : List (List Byte)} {n : Nat} {X : Memory} (h : Repacked s J n t)
    (hX : Machine.packed Config.params X = true) (hJ : blobsOf Config.params X = J)
    (hr : arenaByte s 2 = byteAt Config.params X 2 ∧ arenaByte s 3 = byteAt Config.params X 3 ∧
      arenaByte s 5 = byteAt Config.params X 5) : t.arena = X := by
  obtain ⟨-, ht⟩ := packed_iff.1 h.packed
  obtain ⟨-, hX⟩ := packed_iff.1 hX
  obtain ⟨h2, h3, h5⟩ := h.reserved
  obtain ⟨e2, e3, e5⟩ := hr
  rw [ht, hX, h.blobs, hJ, ← e2, ← e3, ← e5, ← h2, ← h3, ← h5]
  rfl

theorem repacked_repack {J : List (List Byte)} (h : Packable J) {n : Nat} (hn : n < 2 ^ 16) (s : State) :
    Repacked s J n (answer 0#40 (repack Config.params J n s)) where
  frame := rfl
  free := (BitVec.toNat_ofNat n 16).trans (Nat.mod_eq_of_lt hn)
  count := countOf_pack Config.params _ _ _ h.countLe
  blobs := blobsOf_pack Config.params _ _ _ h
  reserved := ⟨byteAt_pack_two .., byteAt_pack_three .., byteAt_pack_five ..⟩
  packed := packed_pack h _ _ _

theorem raise_response_ne_ok {k : Status} (hk : k ≠ .ok) (s : State) : (raise k s).response ≠ some (0#40 ++ 0#8) := by
  intro h
  have hcode : k.code = 0#8 := (status_responseWord k 0#40).symm.trans
    (congrArg (BitVec.extractLsb' 0 8) (Option.some.inj h))
  cases k with
  | ok => exact hk rfl
  | _ => exact absurd hcode (by decide)

section
variable {s t : State} {idx : Byte} {r l : U16}

/-! ### ADD -/

/-- What ADD asks for (R186). -/
structure AddFits (s : State) (idx : Byte) (r l : U16) : Prop where
  valid : isValid Config.params s.arena = true
  idxLe : idx.toNat ≤ jingles s
  countNe : jingles s ≠ 255
  needLe : addNeed r l ≤ s.bytesFree.toNat

theorem exec_add_of_not_valid (hv : isValid Config.params s.arena = false) :
    exec (.add idx r l) s = .next (raise .invalidPersistedData s) :=
  congrArg _ (if_pos (by rw [hv]; rfl))

section
variable (hv : isValid Config.params s.arena = true)
include hv

theorem exec_add_of_valid : exec (.add idx r l) s = .next
    (if jingles s < idx.toNat then raise .badIndex s
    else if jingles s = 255 ∨ s.bytesFree.toNat < addNeed r l then raise .outOfSpace s
    else answer 0#40 (repack Config.params (inserted (blobsOf Config.params s.arena) idx.toNat (newBlob r l))
      (s.bytesFree.toNat - addNeed r l) s)) :=
  congrArg _ (if_neg (by rw [hv]; decide))

theorem exec_add_of_count_lt (hidx : jingles s < idx.toNat) : exec (.add idx r l) s = .next (raise .badIndex s) := by
  rw [exec_add_of_valid hv, if_pos hidx]

theorem exec_add_of_no_room (hidx : idx.toNat ≤ jingles s)
    (hroom : jingles s = 255 ∨ s.bytesFree.toNat < addNeed r l) :
    exec (.add idx r l) s = .next (raise .outOfSpace s) := by
  rw [exec_add_of_valid hv, if_neg (Nat.not_lt.2 hidx), if_pos hroom]

end

theorem AddFits.exec_add (h : AddFits s idx r l) : exec (.add idx r l) s = .next
    (answer 0#40 (repack Config.params (inserted (blobsOf Config.params s.arena) idx.toNat (newBlob r l))
      (s.bytesFree.toNat - addNeed r l) s)) := by
  rw [exec_add_of_valid h.valid, if_neg (Nat.not_lt.2 h.idxLe),
    if_neg (not_or.2 ⟨h.countNe, Nat.not_lt.2 h.needLe⟩)]

theorem AddFits.idx_le_length (h : AddFits s idx r l) : idx.toNat ≤ (blobsOf Config.params s.arena).length :=
  h.idxLe.trans (blobsOf_length Config.params s.arena).ge

/-- An ADD that answers OK found what it asks for. -/
theorem addFits_of_response (h : exec (.add idx r l) s = .next t) (hok : t.response = some (0#40 ++ 0#8)) :
    AddFits s idx r l := by
  have raised {k : Status} (hk : k ≠ .ok) (hr : exec (.add idx r l) s = .next (raise k s)) : False :=
    raise_response_ne_ok hk s (Host.Outcome.next.inj (h.symm.trans hr) ▸ hok)
  have hv : isValid Config.params s.arena = true :=
    Bool.of_not_eq_false fun hv => raised (by decide) (exec_add_of_not_valid hv)
  have hidx : idx.toNat ≤ jingles s := Nat.not_lt.1 fun hlt => raised (by decide) (exec_add_of_count_lt hv hlt)
  have hroom := not_or.1 fun hno => raised (by decide) (exec_add_of_no_room hv hidx hno)
  exact ⟨hv, hidx, hroom.1, Nat.not_lt.1 hroom.2⟩

theorem AddFits.packable (h : AddFits s idx r l) (hfree : s.bytesFree.toNat + usedOf Config.params s.arena = 1024) :
    Packable (inserted (blobsOf Config.params s.arena) idx.toNat (newBlob r l)) := by
  have hlen := blobsOf_length Config.params s.arena
  have hle := (blobsOf_packable Config.params h.valid).countLe
  have hne : (blobsOf Config.params s.arena).length ≠ 255 := fun he => h.countNe (hlen.symm.trans he)
  have hneed := h.needLe
  rw [usedOf_eq, ← hlen] at hfree
  refine packable_insert (blobsOf_packable Config.params h.valid) h.idx_le_length (newBlob_shaped r l) (by omega) ?_
  rw [newBlob_length]
  unfold addNeed at hneed
  simp only [Config.cap]
  omega

/-- Where `bytesFree` is `CAP - Used`, an ADD that fits packs the blobs with the new one (R186). -/
theorem AddFits.repacked (h : AddFits s idx r l) (hfree : s.bytesFree.toNat + usedOf Config.params s.arena = 1024) :
    ∃ t, exec (.add idx r l) s = .next t ∧
      Repacked s (inserted (blobsOf Config.params s.arena) idx.toNat (newBlob r l)) (s.bytesFree.toNat - addNeed r l) t :=
  ⟨_, h.exec_add, repacked_repack (h.packable hfree) ((Nat.sub_le _ _).trans_lt s.bytesFree.isLt) s⟩

/-- The same of an ADD that has answered OK. -/
theorem repacked_of_exec_add (hfree : s.bytesFree.toNat + usedOf Config.params s.arena = 1024)
    (h : exec (.add idx r l) s = .next t) (hok : t.response = some (0#40 ++ 0#8)) : AddFits s idx r l ∧
      Repacked s (inserted (blobsOf Config.params s.arena) idx.toNat (newBlob r l)) (s.bytesFree.toNat - addNeed r l) t := by
  have hfits := addFits_of_response h hok
  obtain ⟨u, hu, hrep⟩ := hfits.repacked hfree
  obtain rfl := Host.Outcome.next.inj (h.symm.trans hu)
  exact ⟨hfits, hrep⟩

/-! ### DELETE -/

theorem exec_delete_of_not_valid (hv : isValid Config.params s.arena = false) :
    exec (.delete idx) s = .next (raise .invalidPersistedData s) :=
  congrArg _ (if_pos (by rw [hv]; rfl))

theorem exec_delete_of_count_le (hv : isValid Config.params s.arena = true) (hidx : jingles s ≤ idx.toNat) :
    exec (.delete idx) s = .next (raise .badIndex s) :=
  congrArg _ ((if_neg (by rw [hv]; decide)).trans (if_pos hidx))

/-- Where `bytesFree` is `CAP - Used`, a DELETE of a Jingle that exists packs the blobs without it (R188). -/
theorem repacked_delete (hv : isValid Config.params s.arena = true) (hidx : idx.toNat < jingles s)
    (hfree : s.bytesFree.toNat + usedOf Config.params s.arena = 1024) :
    ∃ t, exec (.delete idx) s = .next t ∧ Repacked s (erased (blobsOf Config.params s.arena) idx.toNat)
      (s.bytesFree.toNat + (2 + ((blobsOf Config.params s.arena).getD idx.toNat []).length)) t := by
  have hexec : exec (.delete idx) s = .next (answer 0#40 (repack Config.params
      (erased (blobsOf Config.params s.arena) idx.toNat)
      (s.bytesFree.toNat + (2 + ((blobsOf Config.params s.arena).getD idx.toNat []).length)) s)) :=
    congrArg _ ((if_neg (by rw [hv]; decide)).trans (if_neg (Nat.not_le.2 hidx)))
  have hlt : idx.toNat < (blobsOf Config.params s.arena).length := by rwa [blobsOf_length]
  refine ⟨_, hexec, repacked_repack (packable_erase (blobsOf_packable Config.params hv) hlt) ?_ s⟩
  have hle := take_flatten_length_le _ hlt
  rw [List.getD_eq_getElem _ _ hlt]
  rw [usedOf_eq, hdr] at hfree
  change idx.toNat < countOf Config.params s.arena at hidx
  omega

end

/-- Settles O31: the errors in their order; an ADD that fits packs the blobs with the new one. -/
theorem addInsertsAZeroedJingle : Obligations.AddInsertsAZeroedJingle := by
  intro s idx r l need J
  refine ⟨exec_add_of_not_valid, fun hv => ⟨exec_add_of_count_lt hv, exec_add_of_no_room hv,
    fun hidx hne hneed hfree => ?_⟩⟩
  have hfits : AddFits s idx r l := ⟨hv, hidx, hne, hneed⟩
  obtain ⟨t, hexec, ht⟩ := hfits.repacked hfree
  obtain ⟨h2, h3, h5⟩ := ht.reserved
  exact ⟨t, hexec, ht.frame, ht.free, countOf_inserted hfits.idxLe ht.blobs, ht.blobs, h2, h3, h5, ht.packed⟩

/-- Settles O32: the images before and after are packed, and the blobs after are those before with the new one inserted. -/
theorem addMovesTheOtherBlobs : Obligations.AddMovesTheOtherBlobs := by
  intro s t idx r l p X size hpacked hfree hexec hok
  obtain ⟨hfits, ht⟩ := repacked_of_exec_add hfree hexec hok
  have hsize : size = (newBlob r l).length := (newBlob_length r l).symm
  rw [hsize]
  exact ⟨fun _ => blob_below_inserted hpacked ht.packed hfits.idxLe ht.blobs,
    offsetOf_inserted_self hpacked ht.packed hfits.idxLe ht.blobs,
    fun _ => blob_above_inserted hpacked ht.packed hfits.idxLe ht.blobs⟩

/-- Settles O33: the errors in their order; else the blobs are packed without the one. -/
theorem deleteRemovesTheJingle : Obligations.DeleteRemovesTheJingle := by
  intro s idx J
  refine ⟨exec_delete_of_not_valid, fun hv => ⟨exec_delete_of_count_le hv, fun hidx hfree => ?_⟩⟩
  obtain ⟨t, hexec, ht⟩ := repacked_delete hv hidx hfree
  obtain ⟨h2, h3, h5⟩ := ht.reserved
  have hcount : jingles t + 1 = jingles s := by
    rw [ht.count, erased_length (by rwa [blobsOf_length]), blobsOf_length]
    rfl
  exact ⟨t, hexec, ht.frame, ht.free, hcount, ht.blobs, h2, h3, h5, ht.packed⟩

/-- Settles O34: the list with the new blob inserted and erased is the old one, and its bytes are the bytes paid. -/
theorem addThenDeleteRestores : Obligations.AddThenDeleteRestores := by
  intro s t idx r l hs hexec hok
  obtain ⟨hfits, ht⟩ := repacked_of_exec_add hs.free hexec hok
  have hle := hfits.idx_le_length
  have hidx : idx.toNat < jingles t := by
    rw [ht.count, inserted_length hle]
    omega
  have hokt : ArenaOk Config.params t := Host.Outcome.next.inj hexec ▸ arenaOk_addJingle Config.params hs.arenaOk idx r l
  obtain ⟨u, hdel, hu⟩ := repacked_delete hokt.valid hidx hokt.free
  have hblobs : blobsOf Config.params u.arena = blobsOf Config.params s.arena := by
    rw [hu.blobs, ht.blobs, erased_inserted hle]
  refine ⟨u, hdel, hu.response, BitVec.eq_of_toNat_eq ?_, hblobs, fun hp => ?_⟩
  · have hneed := hfits.needLe
    rw [hu.free, ht.free, ht.blobs, List.getD_eq_getElem?_getD, getElem?_inserted_self hle, Option.getD_some,
      newBlob_length]
    unfold addNeed at hneed ⊢
    omega
  · exact hu.arena_eq hp (hblobs.symm.trans hu.blobs) ht.reserved

end Sys2Proof.Machine
end

section
/-! PROOF. Persistence (R212 to R218): LOAD by its three cases, SAVE and PCLEAR as one write to the store each. -/

open Sys2Proof.Statements (arenaByte jingles responded EmptyArena imageBase OutsideImage)

namespace Sys2Proof.Machine

/-! ### LOAD -/

section
variable {s : State}

theorem exec_load_of_fail (hio : s.io = .fail) : exec .load s = .next (raise .storageIoError (clearArena s)) := by
  simp only [exec, execLoad, loadImage, hio]

theorem exec_load_of_not_valid (hio : s.io = .ok) (hv : isValid Config.params (storedImage Config.params s) = false) :
    exec .load s = .next (raise .invalidPersistedData (clearArena s)) := by
  simp only [exec, execLoad, loadImage, hio, hv, Bool.not_false, if_true]

theorem exec_load_of_valid (hio : s.io = .ok) (hv : isValid Config.params (storedImage Config.params s) = true) :
    exec .load s = .next (answer 0#40 (loaded Config.params (storedImage Config.params s) s)) := by
  simp only [exec, execLoad, loadImage, hio, hv, Bool.not_true, Bool.false_eq_true, if_false, loaded]

end

/-- The stored image starts at `PERSIST_OFFSET` (R55). -/
theorem byteAt_storedImage_eq (s : State) {k : Nat} (hk : k < 1024) :
    byteAt Config.params (storedImage Config.params s) k = persistByte s (imageBase + k) :=
  byteAt_storedImage Config.params s hk

section
variable (X : Memory) (s : State)

theorem loaded_frame : answer 0#40 (loaded Config.params X s) = responded 0#8 0#40
    { s with
      arena := (answer 0#40 (loaded Config.params X s)).arena
      bytesFree := (answer 0#40 (loaded Config.params X s)).bytesFree } := rfl

theorem arenaByte_loaded (k : Nat) :
    arenaByte (answer 0#40 (loaded Config.params X s)) k = byteAt Config.params X k := rfl

theorem toNat_bytesFree_loaded (hw : Memory.wf Config.cap (arenaUnlisted Config.params) X = true)
    (hv : isValid Config.params X = true) :
    (answer 0#40 (loaded Config.params X s)).bytesFree.toNat = 1024 - usedOf Config.params X :=
  Nat.eq_sub_of_add_eq (arenaOk_loaded Config.params hw hv s).free

end

/-- Settles O35: the three cases of LOAD; the image's bytes are those of the store. -/
theorem loadCopiesAValidImage : Obligations.LoadCopiesAValidImage := by
  intro s X
  exact ⟨fun _ => byteAt_storedImage_eq s, fun hio => ⟨_, exec_load_of_fail hio, emptyArena_clearArena s, rfl⟩,
    fun hio hv => ⟨_, exec_load_of_not_valid hio hv, emptyArena_clearArena s, rfl⟩,
    fun hio hv => ⟨_, exec_load_of_valid hio hv, loaded_frame X s,
      fun k hk => (arenaByte_loaded X s k).trans (byteAt_storedImage_eq s hk),
      toNat_bytesFree_loaded X s (storedImage_wf _ s) hv⟩⟩

/-- Settles O39: LOAD leaves I1 and I2 in every case, and its arena is the empty image or the stored one. -/
theorem loadAlwaysLeavesAValidArena : Obligations.LoadAlwaysLeavesAValidArena := by
  intro s
  have hok := arenaOk_loadImage Config.params s
  refine ⟨loadImage Config.params s, rfl, hok.valid, hok.free, ?_⟩
  obtain ⟨-, h⟩ | ⟨-, -, h⟩ | ⟨-, -, h⟩ := loadImage_cases Config.params s <;> rw [h]
  · exact .inl (emptyArena_clearArena s)
  · exact .inl (emptyArena_clearArena s)
  · exact .inr fun k hk => (arenaByte_loaded _ s k).trans (byteAt_storedImage_eq s hk)

/-! ### SAVE and PCLEAR: one write to the store, with its status -/

/-- `PWrite(off, bs)`, then the status of the store's outcome (R211, R212, R216). -/
def storeWrite (off : Nat) (bs : List Byte) (s : State) : State := storeStatus s.io (persistWrite off bs s)

theorem exec_save (s : State) :
    exec .save s = .next (storeWrite imageBase (readBytes Config.params s.arena 0 Config.cap) s) := rfl

theorem exec_pclear (s : State) : exec .pclear s = .next (storeWrite imageBase (List.replicate 6 0#8) s) := rfl

section
variable {off : Nat} {bs : List Byte} {s : State}

theorem storeWrite_of_ok (hio : s.io = .ok) : storeWrite off bs s =
    answer 0#40 { s with persist := Memory.writeRange persistUnlisted s.persist off bs } := by
  simp only [storeWrite, storeStatus, persistWrite, hio]

theorem storeWrite_frame_of_ok (hio : s.io = .ok) :
    storeWrite off bs s = responded 0#8 0#40 { s with persist := (storeWrite off bs s).persist } := by
  rw [storeWrite_of_ok hio]
  rfl

theorem storeWrite_frame_of_fail (hio : s.io = .fail) :
    storeWrite off bs s = responded 6#8 0#40
      { s with persist := (storeWrite off bs s).persist, freeCount := (storeWrite off bs s).freeCount } := by
  simp only [storeWrite, storeStatus, persistWrite, hio]
  rfl

theorem persistByte_storeWrite_add (hio : s.io = .ok) {k : Nat} (hk : k < bs.length) :
    persistByte (storeWrite off bs s) (off + k) = bs[k] := by
  have hwrite := persistByte_writeRange s off bs (off + k)
  rw [dif_pos (by omega)] at hwrite
  rw [storeWrite_of_ok hio]
  exact hwrite.trans (by simp only [Nat.add_sub_cancel_left])

theorem persistByte_storeWrite_of_not_mem {a : Nat} (ha : a < off ∨ off + bs.length ≤ a) :
    persistByte (storeWrite off bs s) a = persistByte s a := by
  obtain ⟨r, hr⟩ := storeStatus_responds s.io (persistWrite off bs s)
  rw [storeWrite, hr]
  exact persistByte_persistWrite_of_not_mem s ha

end

/-- After a successful SAVE the image bytes of the store are the arena's (R212). -/
theorem persistByte_save {s : State} (hio : s.io = .ok) {k : Nat} (hk : k < 1024) :
    persistByte (storeWrite imageBase (readBytes Config.params s.arena 0 Config.cap) s) (imageBase + k) =
      arenaByte s k := by
  rw [persistByte_storeWrite_add hio (by rwa [readBytes_length])]
  simp [readBytes, arenaByte]

/-- Settles O36: a write of the 1024 arena bytes at the image's offset. -/
theorem saveCopiesTheArenaOut : Obligations.SaveCopiesTheArenaOut := by
  intro s
  have hout (a : Nat) (ha : OutsideImage a) :=
    persistByte_storeWrite_of_not_mem (bs := readBytes Config.params s.arena 0 Config.cap) (s := s)
      (by rwa [readBytes_length])
  exact ⟨fun hio => ⟨_, exec_save s, storeWrite_frame_of_ok hio, fun _ => persistByte_save hio, hout⟩,
    fun hio => ⟨_, exec_save s, storeWrite_frame_of_fail hio, hout⟩⟩

/-- MAGIC != 0 (R81). -/
theorem magic_ne_zero : Config.params.magic.toNat ≠ 0 := by
  have hlt := Config.magicPred.isLt
  change (BitVec.ofNat 16 (Config.magicPred.val + 1)).toNat ≠ 0
  rw [BitVec.toNat_ofNat]
  omega

/-- An image whose first two bytes are 0 fails V1 (R174). -/
theorem not_valid_of_zero_magic {X : Memory} (h0 : byteAt Config.params X 0 = 0#8) (h1 : byteAt Config.params X 1 = 0#8) :
    isValid Config.params X = false := by
  refine Bool.eq_false_iff.2 fun hv => magic_ne_zero ?_
  rw [← ((isValid_iff Config.params X).1 hv).magic, read16, h0, h1]
  rfl

/-- Settles O37: a write of six zeros at the image's offset; the image it leaves does not start with MAGIC. -/
theorem pclearZeroesTheStoredHeader : Obligations.PclearZeroesTheStoredHeader := by
  intro s
  have hout (a : Nat) (ha : a < imageBase ∨ imageBase + 6 ≤ a) :=
    persistByte_storeWrite_of_not_mem (bs := List.replicate 6 0#8) (s := s) (by simpa using ha)
  refine ⟨fun hio => ?_, fun hio => ⟨_, exec_pclear s, storeWrite_frame_of_fail hio, hout⟩⟩
  have hzero (k : Nat) (hk : k < 6) :
      persistByte (storeWrite imageBase (List.replicate 6 0#8) s) (imageBase + k) = 0#8 := by
    rw [persistByte_storeWrite_add hio (by simpa using hk), List.getElem_replicate]
  refine ⟨_, exec_pclear s, storeWrite_frame_of_ok hio, hzero, hout, fun u hu hsame => ?_⟩
  have hstored (k : Nat) (hk : k < 6) : byteAt Config.params (storedImage Config.params u) k = 0#8 :=
    (byteAt_storedImage_eq u (by omega)).trans ((hsame k (by omega)).trans (hzero k hk))
  have hv := not_valid_of_zero_magic (hstored 0 (by decide)) (hstored 1 (by decide))
  exact ⟨_, exec_load_of_not_valid hu hv, rfl, emptyArena_clearArena u, rfl⟩

/-- Settles O38: the stored image is the saved arena, which is valid and whose free count is `CAP - Used` by the invariant. -/
theorem saveThenLoadRestoresTheArena : Obligations.SaveThenLoadRestoresTheArena := by
  intro s t u hs hio hexec hu hsame
  obtain rfl := Host.Outcome.next.inj ((exec_save s).symm.trans hexec)
  have hX : storedImage Config.params u = s.arena :=
    storedImage_eq Config.params hs.arenaWf fun k hk => (hsame k hk).trans (persistByte_save hio hk)
  have hload := exec_load_of_valid hu (hX ▸ hs.valid)
  rw [hX] at hload
  have hfree := (arenaOk_loaded Config.params hs.arenaWf hs.valid u).free
  exact ⟨_, hload, rfl, rfl, BitVec.eq_of_toNat_eq (Nat.add_right_cancel (hfree.trans hs.free.symm))⟩

end Sys2Proof.Machine
end

section
/-! PROOF. PLAY (R225 to R227): the start of a sequence neither reads nor writes the other channel, so each of PLAY's two
starts does what it does alone. -/

open Sys2Proof.Statements (jingles startCode)

namespace Sys2Proof.Machine

/-! ### A sequence start and the other channel -/

section
variable {ch d : Channel} {q : Sequencer} {v : Timer} {s : State} (hne : d ≠ ch)
include hne

theorem seqPlayStatus_withChannel (ref : Option (Nat × Nat)) :
    seqPlayStatus d ref (withChannel ch q v s) = seqPlayStatus d ref s := by
  unfold seqPlayStatus
  rw [withChannel_seq hne]

theorem beginSequence_withChannel (base n : Nat) :
    beginSequence d base n (withChannel ch q v s) = withChannel ch q v (beginSequence d base n s) := by
  rw [beginSequence, withChannel_seq hne, setSeq_withChannel hne, beginSequence]

theorem ignores_startNote : Ignores ch (startNote d) := by
  intro q v s
  rw [startNote, withChannel_seq hne]
  exact ignores_startNoteLoop hne _ q v s

theorem ignores_seqPlay (ref : Option (Nat × Nat)) : Ignores ch (seqPlay d ref) := by
  intro q v s
  simp only [seqPlay, seqPlayStatus_withChannel hne, beginSequence_withChannel hne]
  split
  · exact ignores_startNote hne q v _
  · rfl

end

/-! ### The start codes (R227, R243, R244) -/

/-- A start that answers `OK` has a reference. -/
theorem exists_ref_of_seqPlayStatus_ok {ch : Channel} {ref : Option (Nat × Nat)} {s : State}
    (h : seqPlayStatus ch ref s = .ok) : ∃ base n, ref = some (base, n) := by
  obtain _ | ⟨base, n⟩ := ref
  · unfold seqPlayStatus at h
    split at h <;> cases h
  · exact ⟨base, n, rfl⟩

theorem status_code_toNat_eq_zero_iff {k : Status} : k.code.toNat = 0 ↔ k = .ok := by
  cases k <;> decide

theorem startCode_eq (ch : Channel) (s : State) (idx : Byte) :
    startCode ch s idx = (seqPlayStatus ch (notesOf Config.params s.arena ch idx.toNat) s).code.toNat := by
  unfold startCode seqPlayStatus
  split
  · rfl
  · obtain _ | ⟨base, n⟩ := notesOf Config.params s.arena ch idx.toNat
    · rfl
    · by_cases hn : n = 0 <;> simp [hn, Status.code]

/-! ### PLAY -/

/-- PLAY of a Jingle that exists: both starts complete from `s` itself, the data is their codes, and the next state has the
RIGHT channel of the one and the LEFT channel of the other (R225, R227). -/
theorem exec_play_of_lt {idx : Byte} {s : State} (h : idx.toNat < jingles s) :
    ∃ r l, seqPlay .right (notesOf Config.params s.arena .right idx.toNat) s = .next r ∧
      seqPlay .left (notesOf Config.params s.arena .left idx.toNat) s = .next l ∧
      exec (.play idx) s = .next
        (answer (natData (startCode .right s idx + 256 * startCode .left s idx))
          (withChannel .right r.right r.timer0 (withChannel .left l.left l.timer1 s))) := by
  have hne : Channel.left ≠ .right := by decide
  obtain ⟨t, ht⟩ := execPlay_total idx s
  have hexec : exec (.play idx) s = .next t := ht
  obtain ⟨r, hr, ht⟩ := andThen_next ((if_neg (Nat.not_le.2 h)).symm.trans ht)
  obtain ⟨w, hw, ht⟩ := andThen_next ht
  have hrs : r = withChannel .right r.right r.timer0 s := (onlyChannel_seqPlay hr).eq_withChannel
  have hstatus := seqPlayStatus_withChannel (q := r.right) (v := r.timer0) (s := s) hne
  rw [hrs, ignores_seqPlay hne] at hw
  obtain ⟨l, hl, hw⟩ := andThen_next hw
  have hls : l = withChannel .left l.left l.timer1 s := (onlyChannel_seqPlay hl).eq_withChannel
  refine ⟨r, l, hr, hl, hexec.trans ?_⟩
  rw [← ht, ← Host.Outcome.next.inj hw, ← hls, startCode_eq, startCode_eq, ← hstatus, ← hrs]
  rfl

/-- Settles O20: the next state takes each channel from that channel's own start, which changes nothing unless its status
is `OK`. -/
theorem playStartsEachChannelOnItsOwn : Obligations.PlayStartsEachChannelOnItsOwn := by
  intro s idx
  refine ⟨fun h => if_pos h, fun h => ?_⟩
  obtain ⟨r, l, hr, hl, hexec⟩ := exec_play_of_lt h
  refine ⟨_, hexec, rfl, rfl, fun ch => ?_⟩
  generalize ht : answer _ _ = t
  obtain ⟨u, hu, hseq, htimer⟩ : ∃ u, seqPlay ch (notesOf Config.params s.arena ch idx.toNat) s = .next u ∧
      t.seq ch = u.seq ch ∧ t.timer (timerOf ch) = u.timer (timerOf ch) := by
    subst ht
    cases ch with
    | right => exact ⟨r, hr, rfl, rfl⟩
    | left => exact ⟨l, hl, rfl, rfl⟩
  rw [startCode_eq, Ne, status_code_toNat_eq_zero_iff]
  refine ⟨fun hfail => ?_, fun hok => ?_⟩
  · obtain rfl := Host.Outcome.next.inj ((seqPlay_of_status_ne_ok hfail).symm.trans hu)
    exact ⟨hseq, htimer⟩
  · obtain ⟨base, n, href⟩ := exists_ref_of_seqPlayStatus_ok hok
    exact ⟨base, n, u, href, href ▸ hu, hseq, htimer⟩

end Sys2Proof.Machine
end

section
/-! PROOF. Errors (R16, R247 to R249): an undefined `op` answers BadCommand, and a command that answers an error has
changed nothing but what LOAD's recovery and a failed write to the store change. -/

open Sys2Proof.Statements

namespace Sys2Proof.Machine

/-! ### Undefined opcodes (R103, R247) -/

/-- Only an `op` of no row is rejected, and the rejection names it (R103). -/
theorem undefined_of_decode_badCommand {w : Cmd80} {op : Byte} (h : decodeCommand w = .badCommand op) :
    cmdOp w = 0x00#8 ∨ 0x10#8 ≤ cmdOp w := by
  by_contra hop
  have hlow : 1 ≤ (cmdOp w).toNat := by bv_omega
  have hhigh : (cmdOp w).toNat ≤ 15 := by bv_omega
  unfold decodeCommand at h
  interval_cases (cmdOp w).toNat <;> cases h

theorem runCommand_of_badCommand {w : Cmd80} {op : Byte} (h : decodeCommand w = .badCommand op) (io : IoOutcome)
    (s : State) : runCommand w io s = .next (raise .badCommand s) := by
  simp only [runCommand, h]

/-- Settles O47: the rows of the decoder leave exactly these opcodes, and a rejected word only answers. -/
theorem undefinedOpcodeAnswersBadCommand : Obligations.UndefinedOpcodeAnswersBadCommand := fun s _ io =>
  ⟨⟨decodeCommand_of_undefined, undefined_of_decode_badCommand⟩,
    fun h => runCommand_of_badCommand (decodeCommand_of_undefined h) io s⟩

/-! ### A command either answers `OK` or raises an error from the state it found (R16, R248) -/

/-- `t` answers `OK`, or it is `s` with an error raised. -/
def AnswersOrRaises (s t : State) : Prop := (∃ d u, t = answer d u) ∨ ∃ k, t = raise k s

section
variable {s t : State}

theorem answersOrRaises_answer (d : BitVec 40) (u : State) : AnswersOrRaises s (answer d u) := .inl ⟨d, u, rfl⟩

theorem answersOrRaises_raise (k : Status) : AnswersOrRaises s (raise k s) := .inr ⟨k, rfl⟩

/-- A guard that raises an error. -/
theorem AnswersOrRaises.guard (h : AnswersOrRaises s t) (k : Status) (c : Prop) [Decidable c] :
    AnswersOrRaises s (if c then raise k s else t) := by
  split
  · exact answersOrRaises_raise k
  · exact h

end

section
variable (p : Params) (idx : Byte) (ch : Channel) (k : U16) (s : State)

theorem answersOrRaises_addJingle (r l : U16) : AnswersOrRaises s (addJingle p idx r l s) :=
  (((answersOrRaises_answer ..).guard ..).guard ..).guard ..

theorem answersOrRaises_deleteJingle : AnswersOrRaises s (deleteJingle p idx s) :=
  ((answersOrRaises_answer ..).guard ..).guard ..

theorem answersOrRaises_setNote (duty : Byte) (freq dur : U16) :
    AnswersOrRaises s (setNote p idx ch k duty freq dur s) := by
  unfold setNote
  split
  · exact answersOrRaises_raise _
  · exact answersOrRaises_answer ..

theorem answersOrRaises_getNote : AnswersOrRaises s (getNote p idx ch k s) := by
  unfold getNote
  split
  · exact answersOrRaises_raise _
  · exact answersOrRaises_answer ..

theorem answersOrRaises_queryOffset : AnswersOrRaises s (queryOffset p idx s) := by
  refine AnswersOrRaises.guard ?_ ..
  split
  · exact answersOrRaises_raise _
  · exact answersOrRaises_answer ..

theorem answersOrRaises_queryNoteCount : AnswersOrRaises s (queryNoteCount p idx ch s) := by
  refine AnswersOrRaises.guard ?_ ..
  split
  · exact answersOrRaises_raise _
  · exact answersOrRaises_answer ..

end

/-- PLAY raises an error before its first start only: the codes of the two starts are data of an `OK` (R227). -/
theorem answersOrRaises_execPlay {idx : Byte} {s t : State} (h : execPlay idx s = .next t) : AnswersOrRaises s t := by
  unfold execPlay at h
  split at h
  · obtain rfl := Host.Outcome.next.inj h
    exact answersOrRaises_raise _
  · obtain ⟨u, -, h⟩ := andThen_next h
    obtain ⟨v, -, h⟩ := andThen_next h
    obtain rfl := Host.Outcome.next.inj h
    exact answersOrRaises_answer ..

/-! ### The outcome of a command step (R249) -/

/-- How a command step of opcode `op` ends, `io` being the store's outcome: with `OK`, or with an error, which takes one
of three forms. `t` is stated over `s` as the step found it. -/
inductive CommandOutcome (op : Byte) (io : IoOutcome) (s t : State) : Prop where
  | answers (d : BitVec 40) (u : State) (ht : t = answer d u)
  /-- Every error but those of LOAD, SAVE and PCLEAR; an undefined `op` latches no store outcome. -/
  | raises (hop : op ≠ 0x0D#8 ∧ op ≠ 0x0E#8 ∧ op ≠ 0x0F#8) (k : Status) (j : IoOutcome)
      (ht : t = raise k { s with io := j })
  /-- LOAD re-initialises the arena first (R214). -/
  | recovers (hop : op = 0x0D#8) (k : Status) (ht : t = raise k (clearArena { s with io := io }))
  /-- SAVE and PCLEAR have drawn what a failed write leaves (R211). -/
  | failsToStore (hop : op = 0x0E#8 ∨ op = 0x0F#8) (P : Memory) (n : Nat)
      (ht : t = raise .storageIoError { s with io := io, persist := P, freeCount := n })
      (hout : ∀ a, OutsideImage a → persistByte t a = persistByte s a)

section
variable {op : Byte} {io : IoOutcome} {s t : State}

theorem AnswersOrRaises.commandOutcome (h : AnswersOrRaises { s with io := io } t)
    (hop : op ≠ 0x0D#8 ∧ op ≠ 0x0E#8 ∧ op ≠ 0x0F#8) : CommandOutcome op io s t := by
  obtain ⟨d, u, ht⟩ | ⟨k, ht⟩ := h
  · exact .answers d u ht
  · exact .raises hop k io ht

theorem commandOutcome_loadImage :
    CommandOutcome 0x0D#8 io s (loadImage Config.params { s with io := io }) := by
  obtain ⟨-, h⟩ | ⟨-, -, h⟩ | ⟨-, -, h⟩ := loadImage_cases Config.params { s with io := io }
  · exact .recovers rfl _ h
  · exact .recovers rfl _ h
  · exact .answers _ _ h

/-- SAVE and PCLEAR (R212, R216). -/
theorem commandOutcome_storeWrite {bs : List Byte} (hbs : bs.length ≤ Config.cap) (hop : op = 0x0E#8 ∨ op = 0x0F#8) :
    CommandOutcome op io s (storeWrite imageBase bs { s with io := io }) := by
  cases io with
  | ok => exact .answers _ _ (storeWrite_of_ok rfl)
  | fail => exact .failsToStore hop _ _ (storeWrite_frame_of_fail rfl) (onlyStored_persistWrite hbs _).outside

theorem commandOutcome_exec {i : Instr} (hop : commandOp i = some op) (h : exec i { s with io := io } = .next t) :
    CommandOutcome op io s t := by
  cases i with
  | play idx => cases hop; exact (answersOrRaises_execPlay h).commandOutcome (by decide)
  | isbusy | clear | count | bytesfree | isvalid => cases h; exact .answers _ _ rfl
  | add idx r l => cases hop; cases h; exact (answersOrRaises_addJingle ..).commandOutcome (by decide)
  | delete idx => cases hop; cases h; exact (answersOrRaises_deleteJingle ..).commandOutcome (by decide)
  | setnote idx ch k duty freq dur => cases hop; cases h; exact (answersOrRaises_setNote ..).commandOutcome (by decide)
  | getnote idx ch k => cases hop; cases h; exact (answersOrRaises_getNote ..).commandOutcome (by decide)
  | offset idx => cases hop; cases h; exact (answersOrRaises_queryOffset ..).commandOutcome (by decide)
  | notecount idx ch => cases hop; cases h; exact (answersOrRaises_queryNoteCount ..).commandOutcome (by decide)
  | load => cases hop; cases h; exact commandOutcome_loadImage
  | save => cases hop; cases h; exact commandOutcome_storeWrite (readBytes_length ..).le (.inl rfl)
  | pclear => cases hop; cases h; exact commandOutcome_storeWrite (by decide) (.inr rfl)
  | noteSkip | noteDelayDuty0 | noteDelayFreq0 | notePulse => cases hop

theorem commandOutcome_runCommand {w : Cmd80} (h : runCommand w io s = .next t) : CommandOutcome (cmdOp w) io s t := by
  cases hd : decodeCommand w with
  | instr i =>
    rw [runCommand_of_decode hd] at h
    exact commandOutcome_exec (commandOp_of_decode hd) h
  | badCommand op =>
    rw [runCommand_of_badCommand hd] at h
    have hop := undefined_of_decode_badCommand hd
    exact .raises (by bv_omega) .badCommand s.io (Host.Outcome.next.inj h).symm

end

/-- The data of a response word (R105). -/
theorem data_responseWord (k : Status) (d : BitVec 40) : (responseWord k d).extractLsb' 8 40 = d :=
  BitVec.extractLsb'_append_eq_left

/-- Settles O48: of the outcomes of a command step, those with a non-zero status are the three forms of an error. -/
theorem errorsArePrecise : Obligations.ErrorsArePrecise := by
  intro s t w io rest r hsched hstep hr hstatus op
  have houtcome : CommandOutcome op io { s with schedule := rest } t :=
    commandOutcome_runCommand ((step_of_schedule_cons hsched).symm.trans hstep)
  clear_value op
  cases houtcome with
  | answers d u ht =>
    subst ht
    obtain rfl := Option.some.inj hr
    exact absurd (status_responseWord .ok d) hstatus
  | raises hop k j ht =>
    obtain ⟨hload, hsave, hpclear⟩ := hop
    subst ht
    obtain rfl := Option.some.inj hr
    exact ⟨data_responseWord k _, fun _ _ _ => rfl, fun h => absurd h hload,
      fun h => absurd h (not_or.2 ⟨hsave, hpclear⟩)⟩
  | recovers hop k ht =>
    subst hop ht
    obtain rfl := Option.some.inj hr
    exact ⟨data_responseWord k _, fun h => absurd rfl h, fun _ => ⟨emptyArena_clearArena s, rfl⟩,
      fun h => absurd h (by decide)⟩
  | failsToStore hop P n ht hout =>
    subst ht
    obtain rfl := Option.some.inj hr
    exact ⟨data_responseWord _ _, fun _ hsave hpclear => absurd hop (not_or.2 ⟨hsave, hpclear⟩),
      fun h => absurd hop (by rw [h]; decide), fun _ => ⟨hout, rfl⟩⟩

end Sys2Proof.Machine
end

section
/-! PROOF. Reset (R270) and quiescence (R291): what a Reset leaves in every register, and what is silent while neither
sequencer plays. -/

open Sys2Proof.Statements (EmptyArena)

namespace Sys2Proof.Machine

/-! ### Reset -/

/-- Both channels leave a Reset with the same registers, those of R36. -/
@[simp] theorem resetBlock_seq (s : State) (ch : Channel) : (resetBlock s).seq ch = Sequencer.reset := by
  cases ch <;> rfl

/-- All three timer channels leave a Reset alike, those of the sequencers and the spare one (R36, R129). -/
@[simp] theorem resetBlock_timer (s : State) (c : TimerId) : (resetBlock s).timer c = Timer.reset := by
  cases c <;> rfl

/-- The arena of a Reset is the one that CLEAR leaves (R270). -/
theorem emptyArena_resetBlock (s : State) : EmptyArena (resetBlock s) := emptyArena_clearArena s

/-- Settles O46: Reset is always enabled, and what it leaves is read register by register (R36, R270). -/
theorem resetStepSetsEveryRegister : Obligations.ResetStepSetsEveryRegister := fun s =>
  ⟨rfl, resetBlock s, rfl, emptyArena_resetBlock s, rfl, resetBlock_seq s, rfl, resetBlock_timer s, rfl⟩

/-! ### Quiescence -/

/-- The block is quiescent exactly when neither channel plays (R291). -/
theorem quiescent_iff {s : State} : quiescent s = true ↔ ∀ ch, (s.seq ch).busy = false := by
  simp only [quiescent, Bool.and_eq_true, Bool.not_eq_true']
  constructor
  · rintro ⟨hright, hleft⟩ (_ | _)
    · exact hright
    · exact hleft
  · exact fun h => ⟨h .right, h .left⟩

/-- Timer channels 0 and 1 are armed only for a playing sequencer (I3), and channel 2 never is. -/
theorem Inv.not_armed_of_idle {s : State} (hs : Inv s) (hidle : ∀ ch, (s.seq ch).busy = false) (c : TimerId) :
    (s.timer c).armed = false := by
  cases c with
  | c0 => exact hs.rightOk.busyArmed.symm.trans (hidle .right)
  | c1 => exact hs.leftOk.busyArmed.symm.trans (hidle .left)
  | c2 => exact hs.spareIdle

theorem not_due_of_not_armed {c : TimerId} {s : State} (h : (s.timer c).armed = false) : due c s = false := by
  rw [due, h, Bool.false_and]

/-- Settles O59: an idle channel has no armed timer (I3) and an inactive output (I4), so nothing can be due. -/
theorem quiescentBlockIsSilent : Obligations.QuiescentBlockIsSilent := by
  intro s hs hquiet
  have hidle := quiescent_iff.1 hquiet
  have harmed := hs.not_armed_of_idle hidle
  have hdue : ∀ c, due c s = false := fun c => not_due_of_not_armed (harmed c)
  exact ⟨fun c => ⟨harmed c, hdue c⟩, fun ch => (hs.sequencerOk ch).idleInactive (hidle ch), enabled_tick_iff.2 hdue⟩

end Sys2Proof.Machine
end
